-- ==== Sys2Proof/Word.lean ====
section
/-! DEFINITION. The word types of the block: the widths of rules R8 and R9 of spec/00_scope.md. -/

namespace Sys2Proof

/-- A byte of the request and response streams, a command, a character (R11). -/
abbrev Byte := BitVec 8

/-- Half a byte: the unit sent per strobe over the four data lines (R8 `NIB_W`, R19). -/
abbrev Nibble := BitVec 4

/-- One analog result, an integer in `[0, 1023]` (R8 `ADC_W`, R82). -/
abbrev Sample := BitVec 10

/-- A 16-bit count of ADC ticks: a threshold entry, `PREV`, the operand of `CLASSIFY` (R8 `THR_W`). -/
abbrev Ticks := BitVec 16

/-- A fixed-point word: two's complement, value times 10000 (R150, R151). -/
abbrev Fx := BitVec 32

/-- The number of a physical pin or of a physical analog channel: it must fit `FAULT.aux` (R31, R193).
DEDUCED (log 7), safe. -/
abbrev PhysNum := BitVec 16

/-- The 16-bit auxiliary field of `FAULT` (R31). -/
abbrev Aux := BitVec 16

end Sys2Proof
end

