-- ==== Sys2Proof/Syntax.lean ====
section
/-! DEFINITION. The requests of the block: one constructor per row of spec/opcode_table.json (R89), its operands
as rule R91 assembles them. -/

namespace Sys2Proof

/-- A request: one operation of the block (R89). -/
inductive Instr where
  /-- `configure_pins()`, R125. -/
  | cfgpins
  /-- `initialize_display()`, R127. -/
  | initdisp
  /-- `send_command(byte)`, R129: any byte. -/
  | sendcmd (b : Byte)
  /-- `write_nibble(4 bits)`, R111: the low half of `imm8`, whose high half must be zero (R96). -/
  | wrnib (n : Nibble)
  /-- `write_line(row, text)`, R131: any row byte is a legal encoding (R96), the text is 0 to 255 bytes (R88). -/
  | wrline (row : Byte) (text : List Byte)
  /-- `clear()`, R133. -/
  | clear
  /-- `calibrate()`, R170. -/
  | calib
  /-- `classify(sample)`, R175: any 16-bit unsigned sample. -/
  | classify (sample : Ticks)
  /-- `read_raw()`, R179. -/
  | rdraw
  /-- `detect_edge()`, R181. -/
  | edge
  /-- `sense_5V()`, R183. -/
  | sense5v
deriving DecidableEq, Repr

/-- The pseudo-request `LCDBOOT` (R99): from `Uninitialized` to `DisplayReady`. -/
def Instr.lcdboot : List Instr := [.cfgpins, .initdisp]

/-- The pseudo-request `SETROW r` (R99): the row address command and no character. -/
def Instr.setrow (r : Byte) : List Instr := [.wrline r []]

/-- The pseudo-request `RECALIB` (R99): re-calibration is the same operation. -/
def Instr.recalib : List Instr := [.calib]

end Sys2Proof
end

