-- ==== Sys2Proof/WellFormed.lean ====
section
/-! DEFINITION. Which terms of `Instr` are requests: those that have an encoding (R88, R96). -/

namespace Sys2Proof

/-- The only limit an encoding sets on operands: the length byte of format `L` counts 0 to 255 characters (R88).
Every row byte, command byte, nibble and sample is legal (R96). -/
def Instr.wf : Instr → Bool
  | .cfgpins => true
  | .initdisp => true
  | .sendcmd _ => true
  | .wrnib _ => true
  | .wrline _ text => text.length ≤ 255
  | .clear => true
  | .calib => true
  | .classify _ => true
  | .rdraw => true
  | .edge => true
  | .sense5v => true

/-- `i` is a request the host can send. -/
abbrev Instr.WellFormed (i : Instr) : Prop := i.wf = true

end Sys2Proof
end

