-- ==== Sys2Proof/Decode.lean ====
section
/-! DEFINITION. The request decoder and the encoder of spec/30_encoding.md part 2. The decoder is total on any
bytes: it answers a request and its length, or names why the bytes are none. -/

namespace Sys2Proof

/-- The four request formats (R84 to R88). -/
inductive Format where
  /-- No operand, one byte (R85). -/
  | z
  /-- One byte operand, two bytes (R86). -/
  | b
  /-- One 16-bit operand, three bytes, big-endian (R87). -/
  | h
  /-- Row, length and text, `3 + len` bytes (R88). -/
  | l
deriving DecidableEq, Repr

/-- The eleven defined opcodes (R89). -/
inductive Opcode where
  | cfgpins | initdisp | sendcmd | wrnib | wrline | clear
  | calib | classify | rdraw | edge | sense5v
deriving DecidableEq, Repr

/-- The opcode byte (R89). -/
def Opcode.code : Opcode → Byte
  | .cfgpins => 0x10
  | .initdisp => 0x11
  | .sendcmd => 0x12
  | .wrnib => 0x13
  | .wrline => 0x14
  | .clear => 0x15
  | .calib => 0x20
  | .classify => 0x21
  | .rdraw => 0x22
  | .edge => 0x23
  | .sense5v => 0x24

/-- The format column of the opcode map (R89). -/
def Opcode.format : Opcode → Format
  | .cfgpins => .z
  | .initdisp => .z
  | .sendcmd => .b
  | .wrnib => .b
  | .wrline => .l
  | .clear => .z
  | .calib => .z
  | .classify => .h
  | .rdraw => .z
  | .edge => .z
  | .sense5v => .z

/-- Every opcode, in the order of the map (R89). -/
def Opcode.all : List Opcode :=
  [.cfgpins, .initdisp, .sendcmd, .wrnib, .wrline, .clear, .calib, .classify, .rdraw, .edge, .sense5v]

/-- The opcode a byte is, if it is one: every other byte is illegal (R89, R95). -/
def Opcode.ofByte? (b : Byte) : Option Opcode := Opcode.all.find? (fun o => o.code == b)

/-- The opcode of a request. -/
def Instr.opcode : Instr → Opcode
  | .cfgpins => .cfgpins
  | .initdisp => .initdisp
  | .sendcmd _ => .sendcmd
  | .wrnib _ => .wrnib
  | .wrline _ _ => .wrline
  | .clear => .clear
  | .calib => .calib
  | .classify _ => .classify
  | .rdraw => .rdraw
  | .edge => .edge
  | .sense5v => .sense5v

/-- Request length in bytes, from the format and, for format `L`, byte 2 (R90). -/
def Format.length (f : Format) (byte2 : Byte) : Nat :=
  match f with
  | .z => 1
  | .b => 2
  | .h => 3
  | .l => 3 + byte2.toNat

/-- What the decoder reads from the bytes at the request pointer. -/
inductive Decoded where
  /-- A request, and how many bytes it is long. -/
  | request (i : Instr) (len : Nat)
  /-- Byte 0 is not in the opcode map: illegal, one byte long (R95, R90). -/
  | illegalOpcode (op : Byte)
  /-- The opcode byte `op` with a reserved operand value `imm8`: illegal, two bytes long (R96). -/
  | reservedOperand (op : Byte) (imm : Byte)
  /-- The bytes so far are the beginning of a request: the block waits for the rest (R66). -/
  | incomplete
deriving DecidableEq, Repr

/-- The operand byte of format `B`, given to `k` (R86). -/
def decodeB (rest : List Byte) (k : Byte → Decoded) : Decoded :=
  match rest with
  | [] => .incomplete
  | imm :: _ => k imm

/-- `WRNIB`: the nibble is `imm8[3:0]`, and `imm8[7:4]` must be zero (R91, R96). -/
def decodeWrnib (imm : Byte) : Decoded :=
  if imm.extractLsb' 4 4 = 0#4 then .request (.wrnib (imm.extractLsb' 0 4)) 2
  else .reservedOperand (Opcode.code .wrnib) imm

/-- `CLASSIFY`: the 16-bit operand of format `H`, most significant byte first (R87, R91). -/
def decodeClassify (rest : List Byte) : Decoded :=
  match rest with
  | [] => .incomplete
  | [_] => .incomplete
  | hi :: lo :: _ => .request (.classify (hi ++ lo)) 3

/-- `WRLINE`: row, length, then that many characters (R88, R91). -/
def decodeWrline (rest : List Byte) : Decoded :=
  match rest with
  | [] => .incomplete
  | [_] => .incomplete
  | row :: len :: body =>
    if (body.take len.toNat).length = len.toNat then .request (.wrline row (body.take len.toNat)) (3 + len.toNat)
    else .incomplete

/-- The operands of an opcode, from the bytes after it. -/
def decodeOperands (o : Opcode) (rest : List Byte) : Decoded :=
  match o with
  | .cfgpins => .request .cfgpins 1
  | .initdisp => .request .initdisp 1
  | .sendcmd => decodeB rest (fun imm => .request (.sendcmd imm) 2)
  | .wrnib => decodeB rest decodeWrnib
  | .wrline => decodeWrline rest
  | .clear => .request .clear 1
  | .calib => .request .calib 1
  | .classify => decodeClassify rest
  | .rdraw => .request .rdraw 1
  | .edge => .request .edge 1
  | .sense5v => .request .sense5v 1

/-- The decoder: it reads the request that the bytes begin with (R66, R89 to R96). -/
def decode (bytes : List Byte) : Decoded :=
  match bytes with
  | [] => .incomplete
  | op :: rest =>
    match Opcode.ofByte? op with
    | none => .illegalOpcode op
    | some o => decodeOperands o rest

/-- The longest request: `WRLINE` with 255 characters (R88). -/
def maxRequest : Nat := 258

/-- The operand bytes of a request (R85 to R88, R91). -/
def Instr.operandBytes : Instr → List Byte
  | .cfgpins => []
  | .initdisp => []
  | .sendcmd b => [b]
  | .wrnib n => [0#4 ++ n]
  | .wrline row text => row :: BitVec.ofNat 8 text.length :: text
  | .clear => []
  | .calib => []
  | .classify s => [s.extractLsb' 8 8, s.extractLsb' 0 8]
  | .rdraw => []
  | .edge => []
  | .sense5v => []

/-- The bytes of a request, in the order they are sent (R84, R89). -/
def encode (i : Instr) : List Byte := i.opcode.code :: i.operandBytes

/-- The `k` least significant bytes of `w`, most significant first. The opcode table reads a row as one number whose
most significant byte is byte 0, the first sent (the table's note; R58). DEDUCED (log 16), safe. -/
def bytesBE (k w : Nat) : List Byte :=
  match k with
  | 0 => []
  | j + 1 => BitVec.ofNat 8 (w / 256 ^ j) :: bytesBE j w

/-- The bytes of a word of the opcode table: the row's own bytes, then zeros up to the longest request. -/
def tableBytes (nbits w : Nat) : List Byte :=
  bytesBE (nbits / 8) w ++ List.replicate (maxRequest - nbits / 8) 0

/-- The request the decoder reads from a word of the opcode table, if it is one. -/
def decodeTableWord (nbits w : Nat) : Option Instr :=
  match decode (tableBytes nbits w) with
  | .request i _ => some i
  | .illegalOpcode _ => none
  | .reservedOperand _ _ => none
  | .incomplete => none

end Sys2Proof
end

