-- ==== Sys2Proof/Machine/FixedPoint.lean ====
section
/-! DEFINITION. The fixed-point voltage scaler: the four functions of spec/42_fixed_point.md, exact on integers and
narrowed once at the end. They take the parameters they need as plain arguments. -/

namespace Sys2Proof.Machine

/-- What a fixed-point function answers (R158): a value, a rejected near-zero divisor, or an overflow. -/
inductive FxResult (α : Type) where
  | ok (a : α)
  | rejected
  | overflow
deriving DecidableEq, Repr, Inhabited

/-- The next computation on a value; a rejection or an overflow stays. -/
def FxResult.bind {α β : Type} (r : FxResult α) (k : α → FxResult β) : FxResult β :=
  match r with
  | .ok a => k a
  | .rejected => .rejected
  | .overflow => .overflow

/-- The scale factor `FX_SCALE` (R8). -/
def fxScale : Int := 10000

/-- The exact integer as a 32-bit word, or an overflow: never wrapped (R151, R158). -/
def fxNarrow (n : Int) : FxResult Fx :=
  if -2147483648 ≤ n ∧ n ≤ 2147483647 then .ok (BitVec.ofInt 32 n) else .overflow

/-- `to_fx(n) = n * 10000` (R152). -/
def toFx (n : Int) : FxResult Fx := fxNarrow (n * fxScale)

/-- `from_fx(f) = f div 10000`, truncating toward zero (R153). -/
def fromFx (f : Fx) : Int := f.toInt.tdiv fxScale

/-- `fx_mul(a, b) = (a * b) div 10000`, on the exact product (R154). -/
def fxMul (a b : Fx) : FxResult Fx := fxNarrow ((a.toInt * b.toInt).tdiv fxScale)

/-- `fx_div(a, b) = (a * 10000) div b`, rejected when the magnitude of `b` is below `FX_DIV_MIN` (R155). -/
def fxDiv (divMin : Nat) (a b : Fx) : FxResult Fx :=
  if b.toInt.natAbs < divMin then .rejected else fxNarrow ((a.toInt * fxScale).tdiv b.toInt)

/-- `sense_mv(v) = from_fx(fx_mul(to_fx(v), MV_PER_TICK_FX))` (R167). -/
def senseMv (mvPerTick : Fx) (v : Int) : FxResult Int :=
  (toFx v).bind fun f => (fxMul f mvPerTick).bind fun g => .ok (fromFx g)

/-- The four bytes of a fixed-point word, most significant first (R57, R150). -/
def fxBytes (f : Fx) : List Byte :=
  [f.extractLsb' 24 8, f.extractLsb' 16 8, f.extractLsb' 8 8, f.extractLsb' 0 8]

/-- `word(B0, B1, B2, B3)` (R150). -/
def fxWord (b0 b1 b2 b3 : Byte) : Fx := b0 ++ b1 ++ b2 ++ b3

end Sys2Proof.Machine
end

