-- ==== Sys2Proof/Machine/Pins.lean ====
section
/-! DEFINITION. The seven logical pins and the two logical analog channels (R14, R50, R52), and a record with one
entry per pin. -/

namespace Sys2Proof.Machine

/-- The logical pins, numbered 0 to 6 in this order (R14): four data lines, register select, enable, backlight. -/
inductive Pin where
  | dl0 | dl1 | dl2 | dl3 | rs | en | bl
deriving DecidableEq, Repr

/-- The number of a logical pin (R14). -/
def Pin.index : Pin → Nat
  | .dl0 => 0
  | .dl1 => 1
  | .dl2 => 2
  | .dl3 => 3
  | .rs => 4
  | .en => 5
  | .bl => 6

/-- The logical analog channels (R50): 0 the button ladder, 1 the supply sense. -/
inductive Chan where
  | btn | vsense
deriving DecidableEq, Repr

/-- One entry for each logical pin. -/
structure PerPin (α : Type) where
  dl0 : α
  dl1 : α
  dl2 : α
  dl3 : α
  rs : α
  en : α
  bl : α
deriving DecidableEq, Repr

/-- A register with one bit per logical pin (R30). -/
abbrev PinBits := PerPin Bool

/-- The entry of pin `p`. -/
def PerPin.get {α : Type} (f : PerPin α) (p : Pin) : α :=
  match p with
  | .dl0 => f.dl0
  | .dl1 => f.dl1
  | .dl2 => f.dl2
  | .dl3 => f.dl3
  | .rs => f.rs
  | .en => f.en
  | .bl => f.bl

/-- `f` with the entry of pin `p` replaced. -/
def PerPin.set {α : Type} (f : PerPin α) (p : Pin) (a : α) : PerPin α :=
  match p with
  | .dl0 => { f with dl0 := a }
  | .dl1 => { f with dl1 := a }
  | .dl2 => { f with dl2 := a }
  | .dl3 => { f with dl3 := a }
  | .rs => { f with rs := a }
  | .en => { f with en := a }
  | .bl => { f with bl := a }

/-- The same entry for every pin. -/
def PerPin.const {α : Type} (a : α) : PerPin α := ⟨a, a, a, a, a, a, a⟩

/-- The logical pins in ascending number. -/
def Pin.all : List Pin := [.dl0, .dl1, .dl2, .dl3, .rs, .en, .bl]

/-- The seven bits as a register, bit `k` for pin `k` (R30; `pin_o[6:0]` and `pin_oe[6:0]` of decision D6). -/
def PinBits.word (f : PinBits) : BitVec 7 :=
  BitVec.ofBool f.bl ++ BitVec.ofBool f.en ++ BitVec.ofBool f.rs ++ BitVec.ofBool f.dl3
    ++ BitVec.ofBool f.dl2 ++ BitVec.ofBool f.dl1 ++ BitVec.ofBool f.dl0

/-- The nibble on the data lines: line `k` carries bit `k` (R55, R75). -/
def PinBits.nibble (f : PinBits) : Nibble :=
  BitVec.ofBool f.dl3 ++ BitVec.ofBool f.dl2 ++ BitVec.ofBool f.dl1 ++ BitVec.ofBool f.dl0

end Sys2Proof.Machine
end

