-- ==== Sys2Proof/Config.lean ====
section
/-! DEFINITION. The implementation parameters of rules R8 and R9 of spec/00_scope.md, their constraints, the
parameters of the block the machine resets to (every OPEN one left open), and the free values. -/

namespace Sys2Proof

open Sys2Proof.Machine

/-- A predicate on physical numbers as plain data: `pin_valid`, `chan_valid` (R9, decision D41).
DEDUCED (log 8), safe: among 16-bit numbers every predicate is a list. -/
inductive PhysSet where
  /-- Every number is valid. -/
  | all
  /-- Exactly the listed numbers are valid. -/
  | only (valid : List PhysNum)
deriving DecidableEq, Repr

/-- Whether a physical number is valid. -/
def PhysSet.holds (s : PhysSet) (n : PhysNum) : Bool :=
  match s with
  | .all => true
  | .only valid => valid.contains n

/-- The ButtonRatioConstant file `RATIO_FX[1..5]`, labels `KR1` to `KR5` (R25). -/
structure Ratios where
  r1 : Fx
  r2 : Fx
  r3 : Fx
  r4 : Fx
  r5 : Fx
deriving DecidableEq, Repr

/-- The threshold of a ratio at the baseline 1023 and the nominal supply, in ticks (R172). -/
def ratioTicks (r : Fx) : Int := (1023 * r.toInt).tdiv 10000

/-- The property rule R172 says a parameter set must be checked against: at the baseline 1023 and the nominal supply the
thresholds of indices 1 to 5 are strictly decreasing. -/
abbrev Ratios.Checked (f : Ratios) : Prop :=
  ratioTicks f.r2 < ratioTicks f.r1 ∧ ratioTicks f.r3 < ratioTicks f.r2 ∧ ratioTicks f.r4 < ratioTicks f.r3 ∧
    ratioTicks f.r5 < ratioTicks f.r4

/-- Which function `baseline_voltage_ratio` is (R169: keep it a configuration function).
DESIGN CHOICE (log 9): the spec's definition is the default; unsafe where the source means another. -/
inductive BvrReading where
  /-- The spec's definition, `fx_mul(B, fx_div(V, to_fx(V_NOM_TICKS)))` (R169). -/
  | rescaled
  /-- Another reading of the source: the unknown function `Config.bvrOther`. -/
  | other
deriving DecidableEq, Repr

/-- Rule R8's constants that a computation uses: the matching tolerance `TOL` in ADC ticks. -/
def tolerance : Nat := 10

/-- `ROW_ADDR(1)` (R8, R78). -/
def rowAddr1 : Byte := 0x80

/-- `ROW_ADDR(2)` (R8, R78). -/
def rowAddr2 : Byte := 0xC0

/-- The configuration record of rule R9: a default where the spec decides one, none where it says OPEN. -/
structure Params where
  /-- `PINMAP`, OPEN: the physical number of each logical pin. -/
  pinMap : PerPin PhysNum
  /-- `CH_BTN`, OPEN. -/
  chBtn : PhysNum
  /-- `CH_VSENSE`, OPEN. -/
  chVsense : PhysNum
  /-- `pin_valid`, OPEN. -/
  pinValid : PhysSet
  /-- `chan_valid`, OPEN. -/
  chanValid : PhysSet
  /-- `RATIO_FX[1..5]`, OPEN. -/
  ratioFx : Ratios
  /-- `V_NOM_TICKS`, OPEN. -/
  vNomTicks : Nat
  /-- `MV_PER_TICK_FX`, OPEN. -/
  mvPerTickFx : Fx
  /-- `T_RELEASE`, OPEN. -/
  tRelease : Nat
  /-- `F_CLK_HZ`, OPEN. -/
  fClkHz : Nat
  /-- `BL_ON_LEVEL` (decision D12). -/
  blOnLevel : Bool := true
  /-- `IDLE_NIBBLE` (decision D13). -/
  idleNibble : Nibble := 0x0
  /-- `T_EN_US` (decision D14). -/
  tEnUs : Nat := 1
  /-- `T_PRE_US` (decision D15). -/
  tPreUs : Nat := 50
  /-- `T_CLEAR_SETTLE_US` (decision D16). -/
  tClearSettleUs : Nat := 2000
  /-- `CMD_CLEAR` (decision D18). -/
  cmdClear : Byte := 0x01
  /-- `LONG_CMDS` (decision D16). -/
  longCmds : List Byte := [cmdClear]
  /-- `T_CHAR_GAP_US` (decision D17). -/
  tCharGapUs : Nat := 0
  /-- `INIT_SEQ[0..6]`, the bring-up ROM (R26, decision D19). -/
  initSeq : List Byte := [0x33, 0x32, 0x28, 0x0C, 0x01, 0x06, 0x02]
  /-- `DUR_W`, bits of a signed duration (decision D20). -/
  durW : Nat := 16
  /-- `CAL_MIN` (decision D30). -/
  calMin : Nat := 10
  /-- `FX_DIV_MIN` (decision D26). -/
  fxDivMin : Nat := 10000
  /-- `CAL_CHECK_SPACING` (decision D32). -/
  calCheckSpacing : Bool := false
  /-- `PREV_INIT` (decision D36). -/
  prevInit : Ticks := 1023
  /-- The reading of `baseline_voltage_ratio` (R169, decision D27). -/
  bvr : BvrReading := .rescaled
deriving DecidableEq, Repr

/-- `TICKS_PER_US = ceil(F_CLK_HZ / 1000000)` (R9, R110, R242). -/
def Params.ticksPerUs (p : Params) : Nat := (p.fClkHz + 999999) / 1000000

/-- A duration fits `DUR_W` bits of two's complement (R9, R83). -/
abbrev Params.Fits (p : Params) (d : Nat) : Prop := d < 2 ^ (p.durW - 1)

/-- The constraints of rule R9's table, one field each, and the check of `RATIO_FX` by rule R172, which decision D29, cited by
R9's row, lists with them: DEDUCED (log 23). Of an OPEN parameter the model assumes these and nothing else. -/
structure Params.Ok (p : Params) : Prop where
  pinMap_injective : ∀ a b : Pin, p.pinMap.get a = p.pinMap.get b → a = b
  channels_differ : p.chBtn ≠ p.chVsense
  tEn_pos : 1 ≤ p.tEnUs
  tPre_pos : 1 ≤ p.tPreUs
  tClear_pos : 1 ≤ p.tClearSettleUs
  long_has_clear : p.cmdClear ∈ p.longCmds
  init_length : p.initSeq.length = 7
  init_clear : p.initSeq[4]? = some p.cmdClear
  tEn_fits : p.Fits p.tEnUs
  tPre_fits : p.Fits p.tPreUs
  tClear_fits : p.Fits p.tClearSettleUs
  tGap_fits : p.Fits p.tCharGapUs
  ratio_last : 0 ≤ p.ratioFx.r5.toInt
  ratio_first : p.ratioFx.r1.toInt < 10000
  ratio_decreasing : p.ratioFx.r2.toInt < p.ratioFx.r1.toInt ∧ p.ratioFx.r3.toInt < p.ratioFx.r2.toInt ∧
    p.ratioFx.r4.toInt < p.ratioFx.r3.toInt ∧ p.ratioFx.r5.toInt < p.ratioFx.r4.toInt
  ratio_checked : p.ratioFx.Checked
  calMin_pos : 1 ≤ p.calMin
  vNom_min : p.calMin ≤ p.vNomTicks
  vNom_max : p.vNomTicks ≤ 1023
  mv_nominal : ∃ m, senseMv p.mvPerTickFx p.vNomTicks = .ok m ∧ 4999 ≤ m ∧ m ≤ 5001
  divMin_pos : 1 ≤ p.fxDivMin
  divMin_max : p.fxDivMin ≤ p.calMin * 10000
  release_min : 400 < p.tRelease
  release_max : p.tRelease ≤ 1023
  prevInit_above : p.tRelease ≤ p.prevInit.toNat
  ticks_pos : 1 ≤ p.ticksPerUs

/-- An admissible parameter set: what an instance of the block is built with (R9, R36). -/
abbrev Config := { p : Params // p.Ok }

/-- The parameters rule R9 leaves OPEN. -/
structure OpenParams where
  pinMap : PerPin PhysNum
  chBtn : PhysNum
  chVsense : PhysNum
  pinValid : PhysSet
  chanValid : PhysSet
  ratioFx : Ratios
  vNomTicks : Nat
  mvPerTickFx : Fx
  tRelease : Nat
  fClkHz : Nat
deriving DecidableEq, Repr

/-- Every other parameter at its default of rule R9. -/
def OpenParams.withDefaults (o : OpenParams) : Params where
  pinMap := o.pinMap
  chBtn := o.chBtn
  chVsense := o.chVsense
  pinValid := o.pinValid
  chanValid := o.chanValid
  ratioFx := o.ratioFx
  vNomTicks := o.vNomTicks
  mvPerTickFx := o.mvPerTickFx
  tRelease := o.tRelease
  fClkHz := o.fClkHz

/-- A choice of the OPEN parameters that meets the constraints. -/
abbrev OpenChoice := { o : OpenParams // o.withDefaults.Ok }

/-- The illustrative parameter set `EX1` of rule R10. The tests use it, and `Config.chip` uses it to show that the
constraints can be met; nothing can be proved of `Config.chip` from it. Rule R10 gives no clock frequency, and `F_CLK_HZ` has no
default: the 1000000 Hz here are the model's own. DESIGN CHOICE (log 22), safe. -/
def OpenParams.ex1 : OpenParams where
  pinMap := ⟨0, 1, 2, 3, 4, 5, 6⟩
  chBtn := 0
  chVsense := 1
  pinValid := .all
  chanValid := .all
  ratioFx := ⟨7000, 5000, 3000, 1500, 500⟩
  vNomTicks := 800
  mvPerTickFx := 62500
  tRelease := 900
  fClkHz := 1000000

/-- `EX1` meets every constraint of rule R9. -/
theorem OpenParams.ex1_ok : OpenParams.ex1.withDefaults.Ok where
  pinMap_injective := by intro a b; cases a <;> cases b <;> decide
  channels_differ := by decide
  tEn_pos := by decide
  tPre_pos := by decide
  tClear_pos := by decide
  long_has_clear := by decide
  init_length := by decide
  init_clear := by decide
  tEn_fits := by decide
  tPre_fits := by decide
  tClear_fits := by decide
  tGap_fits := by decide
  ratio_last := by decide
  ratio_first := by decide
  ratio_decreasing := by decide
  ratio_checked := by decide
  calMin_pos := by decide
  vNom_min := by decide
  vNom_max := by decide
  mv_nominal := ⟨5000, by decide, by decide, by decide⟩
  divMin_pos := by decide
  divMin_max := by decide
  release_min := by decide
  release_max := by decide
  prevInit_above := by decide
  ticks_pos := by decide

/-- `EX1` as an admissible parameter set (R10). -/
def Config.ex1 : Config := ⟨OpenParams.ex1.withDefaults, OpenParams.ex1_ok⟩

/-- FREE. The OPEN parameters of the block: nothing is known of them but their constraints (R9). DESIGN CHOICE (log 6),
safe. -/
opaque Config.openChoice [Inhabited OpenChoice] : OpenChoice

/-- The parameters of the block after power-up: defaults where rule R9 gives them, the rest open. -/
def Config.chip : Config :=
  ⟨(@Config.openChoice ⟨⟨OpenParams.ex1, OpenParams.ex1_ok⟩⟩).val.withDefaults,
   (@Config.openChoice ⟨⟨OpenParams.ex1, OpenParams.ex1_ok⟩⟩).property⟩

/-- FREE. Another reading of `baseline_voltage_ratio` (R169): any function of the two fixed-point arguments.
DESIGN CHOICE (log 9), safe. -/
opaque Config.bvrOther : Fx → Fx → FxResult Fx

/-- FREE. The value of an analog read the environment has not listed beforehand (R63, U8): any value in
`[0, 1023]`, a fresh one for each count. DESIGN CHOICE (log 5), safe. -/
opaque Config.freeSample : Nat → Sample

/-- FREE. What the latch `CMD` holds after an operation: no value (R35, U17). DESIGN CHOICE (log 3), safe. -/
opaque Config.freeCmd : Nat → Byte

/-- FREE. What the latch `NIB` holds after an operation: no value (R35, U17). DESIGN CHOICE (log 3), safe. -/
opaque Config.freeNib : Nat → Nibble

/-- FREE. What the latch `IDX` holds after an operation: no value (R35, U17). DESIGN CHOICE (log 3), safe. -/
opaque Config.freeIdx : Nat → Byte

end Sys2Proof
end

