-- ==== Sys2Proof/Machine/Memory.lean ====
section
/-! DEFINITION. The address space `REQ` of rule R50 (spec/20_memory.md): the host's byte stream, addressed by stream
offset. It is the only space the block addresses by a number that can grow; no operation of the block writes it (R67).
The small fixed spaces (`PIN`, `THR`, the ROMs) are fields of `State` and of `Config`. -/

namespace Sys2Proof.Machine

/-- Bytes by address. -/
abbrev Memory := List Host.Cell

/-- What an unlisted address reads as: no byte, the host has not sent it. DEDUCED (log 14), safe. -/
def Memory.unlisted : Option Byte := none

/-- The canonical form: addresses strictly rising. An unlisted address holds no byte, so no entry can equal what an
unlisted address reads as. -/
abbrev Memory.wf (m : Memory) : Prop := m.Pairwise (fun x y => x.1 < y.1)

/-- The byte at an address (R50: read only). -/
def Memory.read (m : Memory) (a : Nat) : Option Byte :=
  match m with
  | [] => Memory.unlisted
  | (k, b) :: rest => if k = a then some b else Memory.read rest a

/-- Consecutive cells from an address. -/
def Memory.block (a : Nat) (bytes : List Byte) : Memory :=
  match bytes with
  | [] => []
  | b :: rest => (a, b) :: Memory.block (a + 1) rest

/-- The host's act of placing bytes at an address; every other address is left alone. -/
def Memory.store (m : Memory) (a : Nat) (bytes : List Byte) : Memory :=
  m.filter (fun c => decide (c.1 < a)) ++ Memory.block a bytes ++ m.filter (fun c => decide (a + bytes.length ≤ c.1))

/-- The bytes that stand from address `a` on, at most `n`, up to the first the host has not sent (R66). -/
def Memory.fetch (m : Memory) (a n : Nat) : List Byte :=
  match n with
  | 0 => []
  | k + 1 =>
    match m.read a with
    | none => []
    | some b => b :: Memory.fetch m (a + 1) k

/-- The stream seen from address `r` on, counted anew from 0: what reset does to offsets, since `RP` counts bytes
consumed since reset (R32, R220). DESIGN CHOICE (log 13), unsafe: the spec does not say what reset does to unread bytes. -/
def Memory.rebase (m : Memory) (r : Nat) : Memory :=
  m.filterMap (fun c => if r ≤ c.1 then some (c.1 - r, c.2) else none)

end Sys2Proof.Machine
end

