-- ==== Sys2Proof/Machine/State.lean ====
section
/-! DEFINITION. The state of the block: every register of spec/10_state.md, the configuration record of rule R9, what
stands at its inputs, and the record of the events it has emitted. -/

namespace Sys2Proof.Machine

/-- `LCD_STATE` (`CR0`, R28). The encoding 3 is never produced and is no value: DEDUCED (log 19),
safe. -/
inductive LcdState where
  | uninitialized
  | pinsConfigured
  | displayReady
deriving DecidableEq, Repr

/-- `CLS_STATE` (`CR1`, R29). -/
inductive ClsState where
  | uncalibrated
  | calibrated
deriving DecidableEq, Repr

/-- `FAULT` (`CR4`, R31): 27 bits in three fields; `kind = 0` means no fault recorded. -/
structure FaultReg where
  kind : BitVec 3
  op : BitVec 8
  aux : BitVec 16
deriving DecidableEq, Repr

/-- A threshold entry: the pair `THR_H`, `THR_L` (R20). -/
structure ThrEntry where
  hi : Byte
  lo : Byte
deriving DecidableEq, Repr

/-- The ButtonThresholdTable `THR[0..5]`, labels `DR0` to `DR5` (R20). -/
structure ThrFile where
  e0 : ThrEntry
  e1 : ThrEntry
  e2 : ThrEntry
  e3 : ThrEntry
  e4 : ThrEntry
  e5 : ThrEntry
deriving DecidableEq, Repr

/-- An event at the external contracts (R14). -/
inductive Event where
  /-- `DIR(p, o)`. -/
  | dir (p : Pin) (o : Bool)
  /-- `WR(p, l)`. -/
  | wr (p : Pin) (l : Bool)
  /-- `PULSE(p, d, l)`; with `d` negative it is a hold and `l` is ignored (R83). -/
  | pulse (p : Pin) (d : Int) (l : Bool)
  /-- `ADC(c) = v`. -/
  | adc (c : Chan) (v : Sample)
  /-- `RSP(bytes)`. -/
  | rsp (bytes : List Byte)
deriving DecidableEq, Repr

/-- `HOLD(p, d)` is `PULSE(p, -d, 0)` (R14). -/
abbrev Event.hold (p : Pin) (d : Nat) : Event := .pulse p (-(d : Int)) false

/-- The state. Labels in the docstrings are those of spec/10_state.md. -/
structure State where
  /-- The parameters of this instance (R9, R36): an argument of the model, which no step changes. -/
  cfg : Config
  /-- `DR0` to `DR5`, the threshold table (R20). -/
  thr : ThrFile
  /-- `DR6`, `PREV`: the previous sample of the edge detector (R24). -/
  prev : Ticks
  /-- `CR0`, `LCD_STATE` (R28). -/
  lcdState : LcdState
  /-- `CR1`, `CLS_STATE` (R29). -/
  clsState : ClsState
  /-- `CR2`, `PIN_DIR`: 1 is output (R30). -/
  pinDir : PinBits
  /-- `CR3`, `PIN_LVL`: the level last driven (R30). -/
  pinLvl : PinBits
  /-- `CR4`, `FAULT` (R31). -/
  fault : FaultReg
  /-- `CR5`, `RP`: request bytes consumed since reset, unbounded (R32). -/
  rp : Nat
  /-- `CR6`, `UPC`: the index of the next event of the operation in progress (R32). -/
  upc : Nat
  /-- `CR7`, `TMR`: the down-counter of pulses and holds (R34). -/
  tmr : BitVec 32
  /-- The latch `CMD` (R35). -/
  cmd : Byte
  /-- The latch `NIB` (R35). -/
  nib : Nibble
  /-- The latch `IDX` (R35). -/
  idx : Byte
  /-- The address space `REQ` (R50): the bytes the host sends, by stream offset. -/
  req : Memory
  /-- Input: the values the environment will return to the next analog reads, in order (U8). DESIGN CHOICE (logs 4 and 5). -/
  ana : List Sample
  /-- Input: the reset line `rst` as the next step finds it (R220). DESIGN CHOICE (log 12). -/
  rst : Bool
  /-- The events emitted so far, oldest first: what an observer records (R6, R14). DESIGN CHOICE (log 4). -/
  trace : List Event
  /-- The model's own counter of free values drawn so far. DESIGN CHOICE (log 4). -/
  fresh : Nat
deriving DecidableEq, Repr

/-- Reasons for the machine to stop outside the spec's rules. There is none: the five error kinds of spec/60_exceptions.md
are next states, with `FAULT` written and the block halted (R196, R197), so no step of this machine answers a fault. -/
inductive Fault where
deriving DecidableEq, Repr

/-- Reasons to have no meaning for a request. -/
inductive Refusal where
  /-- Raised by an arm of `exec` that has no meaning yet; no arm of this model does. Safe: nothing is claimed. -/
  | notModelled (mnemonic : String)
deriving DecidableEq, Repr

/-- A threshold entry before any calibration: the spec gives it no value; the model names zero.
DESIGN CHOICE (log 1), unsafe. -/
def ThrEntry.zero : ThrEntry := ⟨0, 0⟩

/-- No fault recorded (R31). -/
def FaultReg.none : FaultReg := ⟨0, 0, 0⟩

/-- The registers of an instance with parameters `c` right after reset (R38, R220). DESIGN CHOICE, unsafe: zero for `THR`
(log 1), for `PIN_LVL` (log 2) and for the latches (log 3), which the spec gives no value at reset. -/
def State.resetOf (c : Config) : State where
  cfg := c
  thr := ⟨.zero, .zero, .zero, .zero, .zero, .zero⟩
  prev := c.val.prevInit
  lcdState := .uninitialized
  clsState := .uncalibrated
  pinDir := .const false
  pinLvl := .const false
  fault := .none
  rp := 0
  upc := 0
  tmr := 0
  cmd := 0
  nib := 0
  idx := 0
  req := []
  ana := []
  rst := false
  trace := []
  fresh := 0

/-- The machine right after reset (R38): no request sent yet, every OPEN parameter open. -/
def State.reset : State := State.resetOf Config.chip

end Sys2Proof.Machine
end

