-- ==== Sys2Proof/Machine/Operands.lean ====
section
/-! DEFINITION. Operand forms: the nibble encoder, row addresses, threshold entries, big-endian payloads, signed
durations. -/

namespace Sys2Proof.Machine

/-- `hi(b) = b[7:4]` (R11, R115). -/
def hiNibble (b : Byte) : Nibble := b.extractLsb' 4 4

/-- `lo(b) = b[3:0]` (R11, R115). -/
def loNibble (b : Byte) : Nibble := b.extractLsb' 0 4

/-- The level of data line `k` for a nibble: bit `k` (R55, R115). -/
def lineLevel (n : Nibble) (k : Nat) : Bool := n.getLsbD k

/-- The row start address command, for the two rows there are (R78). -/
def rowAddr (row : Byte) : Option Byte :=
  if row = 1 then some rowAddr1 else if row = 2 then some rowAddr2 else none

/-- A 16-bit value as two bytes, most significant first (R58, R93). -/
def ticksBytes (t : Ticks) : List Byte := [t.extractLsb' 8 8, t.extractLsb' 0 8]

/-- `THR_H * 256 + THR_L` (R20, R56). -/
def ThrEntry.ticks (e : ThrEntry) : Ticks := e.hi ++ e.lo

/-- `THR_H <- t[15:8]; THR_L <- t[7:0]` (R20). -/
def ThrEntry.ofTicks (t : Ticks) : ThrEntry := ⟨t.extractLsb' 8 8, t.extractLsb' 0 8⟩

/-- The six entries as tick values, in index order (R20). -/
def ThrFile.ticks (f : ThrFile) : List Ticks :=
  [f.e0.ticks, f.e1.ticks, f.e2.ticks, f.e3.ticks, f.e4.ticks, f.e5.ticks]

/-- A signed duration in its `DUR_W` bits of two's complement (R83). -/
def durationBits (p : Params) (d : Int) : BitVec p.durW := BitVec.ofInt p.durW d

/-- The physical channel behind a logical one (R165). -/
def physChannel (p : Params) (c : Chan) : PhysNum :=
  match c with
  | .btn => p.chBtn
  | .vsense => p.chVsense

end Sys2Proof.Machine
end

