-- ==== Sys2Proof/Machine/Flags.lean ====
section
/-! DEFINITION. Flags and conditions. The block has no arithmetic flags (R27): its flags are the two lifecycle registers and the
fault register; its conditions are the comparator, the two sides of the release threshold and the plausibility checks. -/

namespace Sys2Proof.Machine

/-- The encoding of `LCD_STATE` (R28). -/
def LcdState.code : LcdState → BitVec 2
  | .uninitialized => 0
  | .pinsConfigured => 1
  | .displayReady => 2

/-- The encoding of `CLS_STATE` (R29). -/
def ClsState.code : ClsState → BitVec 1
  | .uncalibrated => 0
  | .calibrated => 1

/-- The five fault kinds (R190). -/
inductive FaultKind where
  | calibration
  | protocolMisuse
  | io
  | argument
  | illegalRequest
deriving DecidableEq, Repr

/-- The code of a fault kind: `FAULT.kind` and the response status (R92, R191 to R195). -/
def FaultKind.code : FaultKind → BitVec 3
  | .calibration => 1
  | .protocolMisuse => 2
  | .io => 3
  | .argument => 4
  | .illegalRequest => 5

/-- The response status byte of a fault kind (R92). -/
def FaultKind.status (k : FaultKind) : Byte := k.code.setWidth 8

/-- The packed 27-bit `FAULT` register, `{kind, op, aux}` (R31, decision D37). -/
def FaultReg.word (f : FaultReg) : BitVec 27 := f.kind ++ f.op ++ f.aux

/-- The halted condition: `FAULT.kind != 0` (R197). -/
def FaultReg.halted (f : FaultReg) : Bool := f.kind != 0

/-- One comparator: `abs(s - t) < 10`, on integers (R174). -/
def comparator (s t : Ticks) : Bool := ((s.toNat : Int) - (t.toNat : Int)).natAbs < tolerance

/-- `above(s)`: `s >= T_RELEASE` (R180). -/
def above (p : Params) (s : Ticks) : Bool := p.tRelease ≤ s.toNat

/-- `below(s)`: `s < T_RELEASE` (R180). -/
def below (p : Params) (s : Ticks) : Bool := s.toNat < p.tRelease

/-- A sample below the sane minimum `CAL_MIN` (R168). -/
def implausible (p : Params) (v : Sample) : Bool := v.toNat < p.calMin

/-- `pressed(r)` of a `CLASSIFY` result code: `1 <= r <= 5` (R94). -/
def pressed (r : Byte) : Bool := 1 ≤ r.toNat && r.toNat ≤ 5

end Sys2Proof.Machine
end

