-- ==== Sys2Proof/Machine/Ops.lean ====
section
/-! DEFINITION. The named operations over the state: the Digital IO and Analog primitives, the timer, the latches, the state
gate, the response, fault entry, reset, and the shape every request has. -/

namespace Sys2Proof.Machine

/-- The parameters of the instance. -/
def State.par (s : State) : Params := s.cfg.val

/-- How far an operation has come: to its end, or to a `raise` (R15: no later statement runs). -/
inductive Res where
  | done (s : State)
  | raised (k : FaultKind) (aux : Aux) (s : State)
deriving DecidableEq, Repr

/-- The next statement; after a `raise` nothing runs (R15). -/
def Res.andThen (r : Res) (f : State → Res) : Res :=
  match r with
  | .done s => f s
  | .raised k a s => .raised k a s

/-- The state reached, by the end of the operation or by a `raise`, passed through `f`. -/
def Res.map (r : Res) (f : State → State) : Res :=
  match r with
  | .done s => .done (f s)
  | .raised k a s => .raised k a (f s)

/-- `emit e` (R14); `UPC` counts the operation's events (R32). -/
def State.emit (s : State) (e : Event) : State := { s with trace := s.trace ++ [e], upc := s.upc + 1 }

/-- `PIN_DIR[p] <- o`. -/
def State.setDir (s : State) (p : Pin) (o : Bool) : State := { s with pinDir := s.pinDir.set p o }

/-- `PIN_LVL[p] <- l`. -/
def State.setLvl (s : State) (p : Pin) (l : Bool) : State := { s with pinLvl := s.pinLvl.set p l }

/-- `d * TICKS_PER_US` in the 32 bits of the timer: the ticks of one microsecond, `d` times (R34, R110). -/
def timerTicks (p : Params) (d : Nat) : BitVec 32 :=
  match d with
  | 0 => 0
  | k + 1 => timerTicks p k + BitVec.ofNat 32 p.ticksPerUs

/-- `TMR <- d * TICKS_PER_US`: the timer at the start of a pulse or hold (R34, R110). -/
def State.loadTimer (s : State) (d : Nat) : State := { s with tmr := timerTicks s.par d }

/-- The timer has counted down to 0: the pulse or hold ends (R34, R110). -/
def State.timerExpires (s : State) : State := { s with tmr := 0 }

/-- `PINMAP(p)`. -/
def State.phys (s : State) (p : Pin) : PhysNum := s.par.pinMap.get p

/-- `pin_valid(PINMAP(p))`. -/
def State.pinOk (s : State) (p : Pin) : Bool := s.par.pinValid.holds (s.phys p)

/-- The check every Digital IO primitive begins with (R105 to R108, R193). -/
def State.withPin (s : State) (p : Pin) (f : State → State) : Res :=
  if s.pinOk p then .done (f s) else .raised .io (s.phys p) s

/-- `DioDir(p, o)` (R105). -/
def dioDir (p : Pin) (o : Bool) (s : State) : Res :=
  s.withPin p fun s => (s.emit (.dir p o)).setDir p o

/-- `DioWrite(p, l)` (R106). -/
def dioWrite (p : Pin) (l : Bool) (s : State) : Res :=
  s.withPin p fun s => (s.emit (.wr p l)).setLvl p l

/-- `DioPulse(p, d, l)`, `d > 0`: the pin is at `l` while the timer runs, then back at its prior level (R107, R110). -/
def dioPulse (p : Pin) (d : Nat) (l : Bool) (s : State) : Res :=
  s.withPin p fun s => ((((s.emit (.pulse p d l)).setLvl p l).loadTimer d).timerExpires).setLvl p (s.pinLvl.get p)

/-- `DioHold(d)`, `d > 0`: the call `pulse(EN, -d, 0)`, in which no pin changes (R108). -/
def dioHold (d : Nat) (s : State) : Res :=
  s.withPin .en fun s => ((s.emit (.hold .en d)).loadTimer d).timerExpires

/-- One micro-step of a Unit L operation: a Digital IO primitive, or the load of a latch (R33, R35). -/
inductive MicroOp where
  | dir (p : Pin) (o : Bool)
  | write (p : Pin) (l : Bool)
  | pulse (p : Pin) (d : Nat) (l : Bool)
  | hold (d : Nat)
  | loadCmd (b : Byte)
  | loadNib (n : Nibble)
  | loadIdx (i : Byte)
deriving DecidableEq, Repr

/-- One micro-step. -/
def MicroOp.run (m : MicroOp) (s : State) : Res :=
  match m with
  | .dir p o => dioDir p o s
  | .write p l => dioWrite p l s
  | .pulse p d l => dioPulse p d l s
  | .hold d => dioHold d s
  | .loadCmd b => .done { s with cmd := b }
  | .loadNib n => .done { s with nib := n }
  | .loadIdx i => .done { s with idx := i }

/-- Micro-steps in order, up to the first `raise` (R15). -/
def runMicro (ms : List MicroOp) (s : State) : Res :=
  match ms with
  | [] => .done s
  | m :: rest => (m.run s).andThen (runMicro rest)

/-- The block is idle again: `UPC = 0` and `TMR = 0` between operations (R32, R34). DEDUCED (log 10) where the operation ended
in a `raise`. -/
def State.idle (s : State) : State := { s with upc := 0, tmr := 0 }

/-- The latches have no value between operations: each takes a free value (R35, U17).
DESIGN CHOICE (log 3), safe. -/
def State.dropLatches (s : State) : State :=
  { s with cmd := Config.freeCmd s.fresh, nib := Config.freeNib s.fresh, idx := Config.freeIdx s.fresh, fresh := s.fresh + 1 }

/-- The pin part of a Unit L operation, from its first micro-step to its last or to a `raise`. -/
def unitL (ms : List MicroOp) (s : State) : Res := (runMicro ms s).map fun t => t.idle.dropLatches

/-- `WriteNibble(n)` (R111). -/
def writeNibble (p : Params) (n : Nibble) : List MicroOp :=
  [.loadNib n,
   .write .dl0 (lineLevel n 0), .write .dl1 (lineLevel n 1), .write .dl2 (lineLevel n 2), .write .dl3 (lineLevel n 3),
   .pulse .en p.tEnUs true]

/-- A byte as two nibbles, high nibble first (R54, R76, R77). -/
def writeByte (p : Params) (b : Byte) : List MicroOp :=
  writeNibble p (hiNibble b) ++ writeNibble p (loNibble b)

/-- The settle delay of a command in `LONG_CMDS` (R129, decision D16). -/
def settle (p : Params) (b : Byte) : List MicroOp :=
  if p.longCmds.contains b then [.hold p.tClearSettleUs] else []

/-- `SendCommand(b)` (R129). -/
def sendCommand (p : Params) (b : Byte) : List MicroOp :=
  [.loadCmd b, .write .rs false, .hold p.tPreUs] ++ writeByte p b ++ settle p b

/-- The value the next analog read returns: the environment's next listed value, else a free one (R63, U8).
DESIGN CHOICE (log 5), safe. -/
def State.draw (s : State) : Sample :=
  match s.ana with
  | v :: _ => v
  | [] => Config.freeSample s.fresh

/-- The environment's input after a read: each value is returned once (R63). -/
def State.drawn (s : State) : State :=
  match s.ana with
  | _ :: rest => { s with ana := rest }
  | [] => { s with fresh := s.fresh + 1 }

/-- `AdcRead(c)` (R165); the value read is `s.draw`. -/
def adcRead (c : Chan) (s : State) : Res :=
  if s.par.chanValid.holds (physChannel s.par c) then .done (s.drawn.emit (.adc c s.draw))
  else .raised .io (physChannel s.par c) s

/-- The state gate of a Unit L request (R192, R200). -/
def needLcd (st : LcdState) (s : State) : Res :=
  if s.lcdState = st then .done s else .raised .protocolMisuse (s.lcdState.code.setWidth 16) s

/-- The state gate of `CLASSIFY` (R192, R200). -/
def needCalibrated (s : State) : Res :=
  if s.clsState = .calibrated then .done s else .raised .protocolMisuse (s.clsState.code.setWidth 16) s

/-- `emit RSP(bytes)` (R14, R92). -/
def State.rsp (s : State) (bytes : List Byte) : State := { s with trace := s.trace ++ [.rsp bytes] }

/-- The response of a completed request: status `0x00`, then the payload (R92, R93). -/
def respond (payload : List Byte) (s : State) : Res := .done (s.rsp (0x00 :: payload))

/-- FAULT ENTRY, `raise K(aux = a)` during the operation of opcode byte `op` (R196): `FAULT` is written, the response is one
byte, and the block is halted, since `FAULT.kind` is no longer 0 (R197). Nothing else changes. -/
def State.raise (s : State) (k : FaultKind) (op : Byte) (aux : Aux) : State :=
  { s.rsp [k.status] with fault := ⟨k.code, op, aux⟩ }

/-- A request: its operation runs to its end, or to the fault entry (R15, R196). -/
def request (o : Opcode) (body : State → Res) (s : State) : State :=
  match body s with
  | .done t => t
  | .raised k a t => t.raise k o.code a

/-- RESET, the only way out of the halted condition (R197, R220): every register takes its reset value. The parameters,
the environment's inputs and the observer's record are no registers; stream offsets count anew (R32). DESIGN CHOICE: logs 12
and 13. -/
def State.afterReset (s : State) : State :=
  { State.resetOf s.cfg with req := s.req.rebase s.rp, ana := s.ana, trace := s.trace, fresh := s.fresh }

/-- The bytes at the request pointer, as many as the longest request has (R66). -/
def State.fetchBytes (s : State) : List Byte := s.req.fetch s.rp maxRequest

/-- `RP <- RP + len` (R66). -/
def State.advance (s : State) (len : Nat) : State := { s with rp := s.rp + len }

/-- `s` with the bytes of a word of the opcode table standing at the request pointer, and nothing to keep the block from
fetching: no reset pending, no fault recorded. DESIGN CHOICE (log 15), safe. -/
def State.placeRequest (s : State) (nbits w : Nat) : State :=
  { s with req := s.req.store s.rp (tableBytes nbits w), rst := false, fault := .none }

end Sys2Proof.Machine
end

