-- ==== Sys2Proof/Machine/Buttons.lean ====
section
/-! DEFINITION. Unit B, the button threshold classifier: `CALIB`, `CLASSIFY`, `RDRAW`, `EDGE`, `SENSE5V` (spec/43_button_classifier.md). -/

namespace Sys2Proof.Machine

/-- `baseline_voltage_ratio` of two fixed-point arguments: the spec's definition, or the other reading the instance is
configured with (R169). -/
def bvr (p : Params) (b v : Fx) : FxResult Fx :=
  match p.bvr with
  | .rescaled => (toFx p.vNomTicks).bind fun nom => (fxDiv p.fxDivMin v nom).bind fun q => fxMul b q
  | .other => Config.bvrOther b v

/-- A fixed-point result inside an operation: a rejection is `aux` 3, an overflow `aux` 4 (R158, R191). -/
def fxOrAux {α : Type} (r : FxResult α) : Except Aux α :=
  match r with
  | .ok a => .ok a
  | .rejected => .error 3
  | .overflow => .error 4

/-- One threshold: scaled by its ratio, truncated to ticks, and `aux` 5 if it does not fit 16 bits (R170). -/
def threshold (bvrFx ratio : Fx) : Except Aux Ticks :=
  match fxOrAux (fxMul bvrFx ratio) with
  | .error a => .error a
  | .ok t => if fromFx t > 65535 ∨ fromFx t < 0 then .error 5 else .ok (BitVec.ofInt 16 (fromFx t))

/-- The spacing check of neighbours: `t[i-1] - t[i] > TOL` (R170, R173). -/
def spaced (a b : Ticks) : Bool := (a.toNat : Int) - b.toNat > tolerance

/-- A failing check of `CALIB` with its `aux` (R170). -/
def refuseIf (c : Bool) (a : Aux) : Except Aux Unit := if c then .error a else .ok ()

/-- The table that `CALIB` computes from the two samples, or the `aux` of its first failing check (R168, R170). -/
def calibTable (p : Params) (b v : Sample) : Except Aux ThrFile := do
  refuseIf (implausible p b) 1
  refuseIf (implausible p v) 2
  let bFx ← fxOrAux (toFx b.toNat)
  let vFx ← fxOrAux (toFx v.toNat)
  let bvrFx ← fxOrAux (bvr p bFx vFx)
  let t0 : Ticks := b.setWidth 16
  let t1 ← threshold bvrFx p.ratioFx.r1
  let t2 ← threshold bvrFx p.ratioFx.r2
  let t3 ← threshold bvrFx p.ratioFx.r3
  let t4 ← threshold bvrFx p.ratioFx.r4
  let t5 ← threshold bvrFx p.ratioFx.r5
  refuseIf (p.calCheckSpacing && !(spaced t0 t1 && spaced t1 t2 && spaced t2 t3 && spaced t3 t4 && spaced t4 t5)) 6
  return ⟨.ofTicks t0, .ofTicks t1, .ofTicks t2, .ofTicks t3, .ofTicks t4, .ofTicks t5⟩

/-- All six entries in one commit, and `CLS_STATE <- 1`; a failing check writes nothing (R170, R171). -/
def commitTable (r : Except Aux ThrFile) (s : State) : Res :=
  match r with
  | .ok f => .done { s with thr := f, clsState := .calibrated }
  | .error a => .raised .calibration a s

/-- `CALIB` (R170): both samples are read, button channel first, before either is checked (R168). -/
def calibrate (s : State) : Res :=
  (adcRead .btn s).andThen fun s1 =>
  (adcRead .vsense s1).andThen fun s2 => commitTable (calibTable s2.par s.draw s1.draw) s2

/-- The analog part of a Unit B operation, from its first read to its last statement or to a `raise`. -/
def unitB (body : State → Res) (s : State) : Res := (body s).map State.idle

/-- `CALIB` (R170). -/
def execCalib (s : State) : Host.Outcome State Fault Refusal :=
  .next (request .calib (fun s => (unitB calibrate s).andThen (respond [])) s)

/-- The result code `NONE` (R94). -/
def noneCode : Byte := 7

/-- The priority pick: the lowest index, counted from `i`, whose entry matches, else `NONE` (R174, R175). -/
def pick (s : Ticks) (i : Nat) (entries : List Ticks) : Byte :=
  match entries with
  | [] => noneCode
  | t :: rest => if comparator s t then BitVec.ofNat 8 i else pick s (i + 1) rest

/-- `CLASSIFY` (R175). -/
def execClassify (sample : Ticks) (s : State) : Host.Outcome State Fault Refusal :=
  .next (request .classify (fun s =>
    (needCalibrated s).andThen fun s => respond [pick sample 0 s.thr.ticks] s) s)

/-- `RDRAW` (R179). -/
def execRdraw (s : State) : Host.Outcome State Fault Refusal :=
  .next (request .rdraw (fun s =>
    (unitB (adcRead .btn) s).andThen (respond (ticksBytes (s.draw.setWidth 16)))) s)

/-- `e <- above(PREV) and below(s)` (R181). -/
def edgeBit (p : Params) (prev now : Ticks) : Bool := above p prev && below p now

/-- `EDGE` (R181). -/
def execEdge (s : State) : Host.Outcome State Fault Refusal :=
  .next (request .edge (fun s =>
    (unitB (fun s => (adcRead .btn s).andThen fun t => .done { t with prev := s.draw.setWidth 16 }) s).andThen
      (respond [if edgeBit s.par s.prev (s.draw.setWidth 16) then 1 else 0])) s)

/-- The millivolts of a supply sample as 16 bits, or `aux` 4 when they do not fit (R167, R183). -/
def senseTicks (p : Params) (v : Sample) : Except Aux Ticks :=
  match fxOrAux (senseMv p.mvPerTickFx v.toNat) with
  | .error a => .error a
  | .ok m => if m > 65535 then .error 4 else .ok (BitVec.ofInt 16 m)

/-- The end of `SENSE5V`: the millivolts, or the fault (R183). -/
def answerMv (r : Except Aux Ticks) (s : State) : Res :=
  match r with
  | .ok m => respond (ticksBytes m) s
  | .error a => .raised .calibration a s

/-- `SENSE5V` (R183). -/
def execSense5v (s : State) : Host.Outcome State Fault Refusal :=
  .next (request .sense5v (fun s =>
    (unitB (adcRead .vsense) s).andThen (answerMv (senseTicks s.par s.draw))) s)

end Sys2Proof.Machine
end

