-- ==== Sys2Proof/Machine/Lcd.lean ====
section
/-! DEFINITION. Unit L, the LCD controller: `CFGPINS`, `INITDISP`, `SENDCMD`, `WRNIB`, `WRLINE`, `CLEAR` (spec/40_lcd_primitives.md,
spec/41_lcd_commands.md). Each meaning is the request of its opcode: gate, argument check, micro-steps, response. -/

namespace Sys2Proof.Machine

/-- The fourteen primitives of `CFGPINS`, directions first (R125). -/
def configurePins (p : Params) : List MicroOp :=
  [.dir .dl0 true, .dir .dl1 true, .dir .dl2 true, .dir .dl3 true, .dir .rs true, .dir .en true, .dir .bl true,
   .write .bl p.blOnLevel, .write .rs true, .write .en false,
   .write .dl0 (lineLevel p.idleNibble 0), .write .dl1 (lineLevel p.idleNibble 1),
   .write .dl2 (lineLevel p.idleNibble 2), .write .dl3 (lineLevel p.idleNibble 3)]

/-- The commands of the bring-up sequence from ROM index `i` on (R26, R127). -/
def bringUp (p : Params) (i : Byte) (bytes : List Byte) : List MicroOp :=
  match bytes with
  | [] => []
  | b :: rest => .loadIdx i :: sendCommand p b ++ bringUp p (i + 1) rest

/-- The optional hold after a character: skipped when `T_CHAR_GAP_US` is 0 (R109, R131). -/
def charGap (p : Params) : List MicroOp :=
  if 0 < p.tCharGapUs then [.hold p.tCharGapUs] else []

/-- The characters of a line from text index `j` on (R131). -/
def streamText (p : Params) (j : Byte) (text : List Byte) : List MicroOp :=
  match text with
  | [] => []
  | c :: rest => [.loadIdx j, .loadCmd c] ++ writeByte p c ++ charGap p ++ streamText p (j + 1) rest

/-- The micro-steps of a line after its row address `a` is known (R131). -/
def lineSteps (p : Params) (a : Byte) (text : List Byte) : List MicroOp :=
  sendCommand p a ++ [.write .rs true] ++ streamText p 0 text

/-- `LCD_STATE <- st` (R125, R127). -/
def setLcd (st : LcdState) (s : State) : Res := .done { s with lcdState := st }

/-- `CFGPINS` (R125). -/
def execCfgpins (s : State) : Host.Outcome State Fault Refusal :=
  .next (request .cfgpins (fun s =>
    (needLcd .uninitialized s).andThen fun s =>
    (unitL (configurePins s.par) s).andThen fun s =>
    (setLcd .pinsConfigured s).andThen (respond [])) s)

/-- `INITDISP` (R127). -/
def execInitdisp (s : State) : Host.Outcome State Fault Refusal :=
  .next (request .initdisp (fun s =>
    (needLcd .pinsConfigured s).andThen fun s =>
    (unitL (bringUp s.par 0 s.par.initSeq) s).andThen fun s =>
    (setLcd .displayReady s).andThen (respond [])) s)

/-- `SENDCMD` (R129). -/
def execSendcmd (b : Byte) (s : State) : Host.Outcome State Fault Refusal :=
  .next (request .sendcmd (fun s =>
    (needLcd .displayReady s).andThen fun s =>
    (unitL (sendCommand s.par b) s).andThen (respond [])) s)

/-- `WRNIB` (R111). -/
def execWrnib (n : Nibble) (s : State) : Host.Outcome State Fault Refusal :=
  .next (request .wrnib (fun s =>
    (needLcd .displayReady s).andThen fun s =>
    (unitL (writeNibble s.par n) s).andThen (respond [])) s)

/-- The argument check of `WRLINE`, after the gate and before any event, then the line (R131, R194). -/
def writeLine (row : Byte) (text : List Byte) (s : State) : Res :=
  match rowAddr row with
  | none => .raised .argument (row.setWidth 16) s
  | some a => unitL (lineSteps s.par a text) s

/-- `WRLINE` (R131). -/
def execWrline (row : Byte) (text : List Byte) (s : State) : Host.Outcome State Fault Refusal :=
  .next (request .wrline (fun s =>
    (needLcd .displayReady s).andThen fun s =>
    (writeLine row text s).andThen (respond [])) s)

/-- `CLEAR` (R133). -/
def execClear (s : State) : Host.Outcome State Fault Refusal :=
  .next (request .clear (fun s =>
    (needLcd .displayReady s).andThen fun s =>
    (unitL (sendCommand s.par s.par.cmdClear) s).andThen (respond [])) s)

end Sys2Proof.Machine
end

