-- ==== Sys2Proof/Machine/Dispatch.lean ====
section
/-! DEFINITION. One arm per request: the meaning of each (R89). -/

namespace Sys2Proof.Machine

/-- What a fetched request does. -/
def exec (i : Instr) (s : State) : Host.Outcome State Fault Refusal :=
  match i with
  | .cfgpins => Sys2Proof.Machine.execCfgpins s
  | .initdisp => Sys2Proof.Machine.execInitdisp s
  | .sendcmd b => Sys2Proof.Machine.execSendcmd b s
  | .wrnib n => Sys2Proof.Machine.execWrnib n s
  | .wrline row text => Sys2Proof.Machine.execWrline row text s
  | .clear => Sys2Proof.Machine.execClear s
  | .calib => Sys2Proof.Machine.execCalib s
  | .classify sample => Sys2Proof.Machine.execClassify sample s
  | .rdraw => Sys2Proof.Machine.execRdraw s
  | .edge => Sys2Proof.Machine.execEdge s
  | .sense5v => Sys2Proof.Machine.execSense5v s

end Sys2Proof.Machine
end

