-- ==== Sys2Proof/Machine/Sequencer.lean ====
section
/-! DEFINITION. The request sequencer: a pending reset, a halted block, a block that waits for bytes, an illegal request, or
one request from its fetch to its response (R6, R66, R197, R220). -/

namespace Sys2Proof.Machine

/-- What the decoder's answer makes the block do: `RP` advances by the request's length before the first event (R66), and
an illegal request raises `IllegalRequest` at decode (R95, R96, R195). -/
def runDecoded (d : Decoded) (s : State) : Host.Outcome State Fault Refusal :=
  match d with
  | .request i len => exec i (s.advance len)
  | .illegalOpcode op => .next ((s.advance 1).raise .illegalRequest op (op.setWidth 16))
  | .reservedOperand op imm => .next ((s.advance 2).raise .illegalRequest op (imm.setWidth 16))
  | .incomplete => .next s

/-- One turn of the block: reset wins over everything, a halted block does nothing (R197), else one request is taken.
DESIGN CHOICE (log 11), safe: a halted block and an incomplete request make a step that changes nothing. -/
def turn (s : State) : Host.Outcome State Fault Refusal :=
  if s.rst then .next s.afterReset
  else if s.fault.halted then .next s
  else runDecoded (decode s.fetchBytes) s

end Sys2Proof.Machine
end

