-- ==== Sys2Proof/Machine/Step.lean ====
section
/-! DEFINITION. The step of the machine. -/

namespace Sys2Proof.Machine

/-- One step: one turn of the request sequencer. -/
def step (s : State) : Host.Outcome State Fault Refusal := turn s

/-- `s` with a word of the opcode table standing where `step` fetches its next request. -/
def State.withFetchWord (s : State) (nbits w : Nat) : State := s.placeRequest nbits w

end Sys2Proof.Machine
end

