-- ==== Sys2Proof/Machine/Observe.lean ====
section
/-! DEFINITION. What an observer reads off the events and the registers: the latched pairs and bytes on the display bus, minimum
durations, response bytes, and the block's output lines (R14, R112, R134, decision D6). -/

namespace Sys2Proof.Machine

/-- `PULSE(EN, d, 1)` with `d > 0`: an enable strobe (R19, R112). -/
def Event.isStrobe (e : Event) : Bool :=
  match e with
  | .dir _ _ => false
  | .wr _ _ => false
  | .pulse p d l => p == .en && decide (0 < d) && l
  | .adc _ _ => false
  | .rsp _ => false

/-- `HOLD(p, d)`, the event `PULSE(p, -d, 0)` with `d > 0` (R14, R83). -/
def Event.isHold (e : Event) : Bool :=
  match e with
  | .dir _ _ => false
  | .wr _ _ => false
  | .pulse _ d _ => decide (d < 0)
  | .adc _ _ => false
  | .rsp _ => false

/-- The pin levels after an event: a write moves its pin, a pulse returns its pin to where it was (R106, R107). -/
def Event.after (e : Event) (lvl : PinBits) : PinBits :=
  match e with
  | .dir _ _ => lvl
  | .wr p l => lvl.set p l
  | .pulse _ _ _ => lvl
  | .adc _ _ => lvl
  | .rsp _ => lvl

/-- `latched(E)`: the pair `(RS, nibble)` at the start of each strobe, from the levels before `E` (R112). -/
def latched (lvl : PinBits) (es : List Event) : List (Bool × Nibble) :=
  match es with
  | [] => []
  | e :: rest =>
    if e.isStrobe then (lvl.rs, lvl.nibble) :: latched (e.after lvl) rest else latched (e.after lvl) rest

/-- `bytes(E)`: consecutive latched pairs joined, defined when they pair up with equal `RS` (R112). -/
def busBytes (pairs : List (Bool × Nibble)) : Option (List (Bool × Byte)) :=
  match pairs with
  | [] => some []
  | [_] => none
  | (r, h) :: (r', l) :: rest => if r = r' then (busBytes rest).map (fun bs => (r, h ++ l) :: bs) else none

/-- The microseconds an event lasts at the least (R14, R110): the magnitude of a pulse's or a hold's duration. -/
def Event.minUs (e : Event) : Nat :=
  match e with
  | .dir _ _ => 0
  | .wr _ _ => 0
  | .pulse _ d _ => d.natAbs
  | .adc _ _ => 0
  | .rsp _ => 0

/-- The least real time a list of events takes (R134). -/
def minUs (es : List Event) : Nat := (es.map Event.minUs).sum

/-- The bytes an event puts on the response stream `RSP` (R50, R92). -/
def Event.rspBytes (e : Event) : List Byte :=
  match e with
  | .dir _ _ => []
  | .wr _ _ => []
  | .pulse _ _ _ => []
  | .adc _ _ => []
  | .rsp bytes => bytes

/-- The response stream (R50). -/
def State.rspStream (s : State) : List Byte := s.trace.flatMap Event.rspBytes

/-- What physical pin a logical pin drives: its level if it is an output, nothing if it is not (R106). -/
def State.drives (s : State) (p : Pin) : Option Bool :=
  if s.pinDir.get p then some (s.pinLvl.get p) else none

/-- The output `pin_o[6:0]` (decision D6). -/
def State.pinO (s : State) : BitVec 7 := s.pinLvl.word

/-- The output `pin_oe[6:0]` (decision D6). -/
def State.pinOe (s : State) : BitVec 7 := s.pinDir.word

/-- The output `fault` (decision D6). -/
def State.faultOut (s : State) : Bool := s.fault.halted

/-- The output `fault_kind[2:0]` (decision D6). -/
def State.faultKindOut (s : State) : BitVec 3 := s.fault.kind

/-- The output `req_ready`: the block takes request bytes only when it is neither in reset nor halted (R197). -/
def State.reqReady (s : State) : Bool := !s.rst && !s.fault.halted

/-- The events a step or an operation emitted: what stands in `t`'s record after `s`'s. -/
def emitted (s t : State) : List Event := t.trace.drop s.trace.length

end Sys2Proof.Machine
end

