-- ==== Sys2Proof/Safety.lean ====
section
/-! DEFINITION. The terms the claims use: what an instance must be like for an operation to run through, the event lists the
rules give for each operation, what counts as known of a state, and the invariant of the block. -/

namespace Sys2Proof.Machine

/-- All seven pins are valid: no Digital IO primitive can raise (R193). -/
def State.pinsOk (s : State) : Prop := ∀ p : Pin, s.pinOk p = true

/-- The physical channel behind `c` is valid (R165, R193). -/
def State.chanOk (s : State) (c : Chan) : Prop := s.par.chanValid.holds (physChannel s.par c) = true

/-- No fault is recorded (R31). -/
def State.noFault (s : State) : Prop := s.fault.kind = 0

/-- The state without what the spec gives no value to between operations (R35): the latches, and the counter their free
values are drawn with. -/
def State.known (s : State) : State := { s with cmd := 0, nib := 0, idx := 0, fresh := 0 }

/-- The levels that leave nibble `n` on the data lines. -/
def PinBits.withNibble (f : PinBits) (n : Nibble) : PinBits :=
  { f with dl0 := n.getLsbD 0, dl1 := n.getLsbD 1, dl2 := n.getLsbD 2, dl3 := n.getLsbD 3 }

/-- The five events of one nibble (R111). -/
def nibbleEvents (p : Params) (n : Nibble) : List Event :=
  [.wr .dl0 (n.getLsbD 0), .wr .dl1 (n.getLsbD 1), .wr .dl2 (n.getLsbD 2), .wr .dl3 (n.getLsbD 3), .pulse .en p.tEnUs true]

/-- The ten events of one byte, high nibble first (R54). -/
def byteEvents (p : Params) (b : Byte) : List Event :=
  nibbleEvents p (b.extractLsb' 4 4) ++ nibbleEvents p (b.extractLsb' 0 4)

/-- The twelve or thirteen events of a command (R129). -/
def commandEvents (p : Params) (b : Byte) : List Event :=
  [.wr .rs false, .hold .en p.tPreUs] ++ byteEvents p b ++ (if b ∈ p.longCmds then [.hold .en p.tClearSettleUs] else [])

/-- The ten or eleven events of a character (R131). -/
def charEvents (p : Params) (c : Byte) : List Event :=
  byteEvents p c ++ (if p.tCharGapUs = 0 then [] else [.hold .en p.tCharGapUs])

/-- The events of a line on the row with start address command `a` (R131). -/
def lineEvents (p : Params) (a : Byte) (text : List Byte) : List Event :=
  commandEvents p a ++ [.wr .rs true] ++ text.flatMap (charEvents p)

/-- The latched pairs of a byte sent with register select at `rs` (R76, R77). -/
def bytePairs (rs : Bool) (b : Byte) : List (Bool × Nibble) := [(rs, b.extractLsb' 4 4), (rs, b.extractLsb' 0 4)]

/-- How many of the events are enable strobes. -/
def strobes (es : List Event) : Nat := es.countP Event.isStrobe

/-- The requests of Unit L. -/
def isUnitL (i : Instr) : Bool :=
  match i with
  | .cfgpins => true
  | .initdisp => true
  | .sendcmd _ => true
  | .wrnib _ => true
  | .wrline _ _ => true
  | .clear => true
  | .calib => false
  | .classify _ => false
  | .rdraw => false
  | .edge => false
  | .sense5v => false

/-- The state a Unit L request needs (R200). -/
def needsLcdState (i : Instr) : Option LcdState :=
  match i with
  | .cfgpins => some .uninitialized
  | .initdisp => some .pinsConfigured
  | .sendcmd _ => some .displayReady
  | .wrnib _ => some .displayReady
  | .wrline _ _ => some .displayReady
  | .clear => some .displayReady
  | .calib => none
  | .classify _ => none
  | .rdraw => none
  | .edge => none
  | .sense5v => none

/-- `s` after the fault entry of rule R196 and nothing else: `FAULT` and the one-byte response. -/
def State.faulted (s : State) (kind : BitVec 3) (op : Byte) (aux : Aux) : State :=
  { s with fault := ⟨kind, op, aux⟩, trace := s.trace ++ [.rsp [kind.setWidth 8]] }

/-- `s` after a `CALIB` that read `b` and `v` and then failed the check with this `aux` (R168, R170, R191, R196): the two reads, the
response, `FAULT`; nothing else. -/
def State.calibFaulted (s : State) (b v : Sample) (aux : Aux) : State :=
  { s with
    fault := ⟨1, 0x20, aux⟩, ana := s.ana.drop 2, upc := 0, tmr := 0,
    trace := s.trace ++ [.adc .btn b, .adc .vsense v, .rsp [0x01]] }

/-- `s` after a `CALIB` that read `b` and `v`, passed its checks and stored `table` (R170). -/
def State.calibStored (s : State) (b v : Sample) (table : ThrFile) : State :=
  { s with
    thr := table, clsState := .calibrated, ana := s.ana.drop 2, upc := 0, tmr := 0,
    trace := s.trace ++ [.adc .btn b, .adc .vsense v, .rsp [0x00]] }

/-- The invariant of the block between requests. -/
structure State.Inv (s : State) : Prop where
  /-- The block is idle (R32, R34); in a block halted by a `raise` this is log 10, DEDUCED. -/
  idle_upc : s.upc = 0
  idle_tmr : s.tmr = 0
  /-- The request space is in canonical form. -/
  req_wf : s.req.wf
  /-- `FAULT.kind` is 0 or one of the five codes (R31, R190). -/
  fault_code : s.fault.kind.toNat ≤ 5
  /-- Once `CFGPINS` has completed: every pin is valid and an output, `EN` is low, the backlight is on (R113, R214). -/
  configured : s.lcdState ≠ .uninitialized →
    s.pinsOk ∧ s.pinDir = .const true ∧ s.pinLvl.en = false ∧ s.pinLvl.bl = s.par.blOnLevel
  /-- Once a `CALIB` has completed: both channels are valid, and entry 0 is a plausible raw reading (R168, R170). -/
  calibrated : s.clsState = .calibrated →
    s.chanOk .btn ∧ s.chanOk .vsense ∧ s.par.calMin ≤ s.thr.e0.ticks.toNat ∧ s.thr.e0.ticks.toNat ≤ 1023
  /-- `PREV` is its reset value or a raw sample (R24). -/
  prev_sample : s.prev = s.par.prevInit ∨ s.prev.toNat ≤ 1023

end Sys2Proof.Machine
end

