-- ==== Sys2Proof/Certificates/Slice0/Obligations.lean ====
section
/-! DEFINITION. The statements for the provers. Each docstring names the rules of spec/ it rests on. -/

open Sys2Proof Sys2Proof.Machine

/-! ## Requests as bytes -/

/-- R84 to R91: the bytes of a request, whatever follows them, decode to that request and its length. -/
def Obligations.DecodeOfEncodeIsTheRequest : Prop :=
  ∀ (i : Instr) (rest : List Byte), i.WellFormed → decode (encode i ++ rest) = .request i (encode i).length

/-- R84 to R91: whatever decodes is the encoding of a request that has one, so no bit of a request is ignored. -/
def Obligations.DecodedBytesAreTheEncoding : Prop :=
  ∀ (bytes : List Byte) (i : Instr) (n : Nat), decode bytes = .request i n →
    i.WellFormed ∧ n ≤ bytes.length ∧ bytes.take n = encode i

/-- R90: the length of a request follows from byte 0, and for format `L` from byte 2; an illegal opcode has length 1. -/
def Obligations.RequestLengthFollowsFromItsFirstBytes : Prop :=
  (∀ (bytes : List Byte) (i : Instr) (n : Nat), decode bytes = .request i n →
    ∃ rest, bytes = i.opcode.code :: rest ∧
      n = match i.opcode.format with
          | .z => 1
          | .b => 2
          | .h => 3
          | .l => 3 + (rest.getD 1 0).toNat) ∧
  (∀ (s : State) (op : Byte), s.rst = false → s.noFault → s.req.read s.rp = some op → Opcode.ofByte? op = none →
    ∃ t, step s = .next t ∧ t.rp = s.rp + 1)

/-- R89, R98: the eleven request lines of the assembler table, byte by byte. -/
def Obligations.SampleRequestsDecode : Prop :=
  decode [0x10] = .request .cfgpins 1 ∧ decode [0x11] = .request .initdisp 1 ∧
  decode [0x12, 0x28] = .request (.sendcmd 0x28) 2 ∧ decode [0x13, 0x03] = .request (.wrnib 0x3) 2 ∧
  decode [0x14, 0x01, 0x02, 0x48, 0x49] = .request (.wrline 1 [0x48, 0x49]) 5 ∧ decode [0x15] = .request .clear 1 ∧
  decode [0x20] = .request .calib 1 ∧ decode [0x21, 0x02, 0xCC] = .request (.classify 716) 3 ∧
  decode [0x22] = .request .rdraw 1 ∧ decode [0x23] = .request .edge 1 ∧ decode [0x24] = .request .sense5v 1

/-- R20, R57, R150: a threshold entry is read back from its high and low byte, a fixed-point word from its four bytes. -/
def Obligations.StoredBytesReadBack : Prop :=
  (∀ t : Ticks, (ThrEntry.ofTicks t).ticks = t ∧ t.toNat = (ThrEntry.ofTicks t).hi.toNat * 256 + (ThrEntry.ofTicks t).lo.toNat) ∧
  (∀ f : Fx, ∃ b0 b1 b2 b3, fxBytes f = [b0, b1, b2, b3] ∧ fxWord b0 b1 b2 b3 = f)

/-! ## The sequencer -/

/-- R66: when the bytes at the request pointer decode to a request, a step is that request, with `RP` advanced past it. -/
def Obligations.StepRunsTheDecodedRequest : Prop :=
  ∀ (s : State) (i : Instr) (n : Nat), s.rst = false → s.noFault → decode s.fetchBytes = .request i n →
    step s = exec i { s with rp := s.rp + n }

/-- R66, R90: when the bytes of a request stand at the request pointer, a step is that request, with `RP` advanced by their
number. -/
def Obligations.StepRunsTheEncodedRequest : Prop :=
  ∀ (s : State) (i : Instr), s.rst = false → s.noFault → i.WellFormed →
    (∀ k, k < (encode i).length → s.req.read (s.rp + k) = (encode i)[k]?) →
    step s = exec i { s with rp := s.rp + (encode i).length }

/-- R66: while the request at the request pointer is not complete, nothing happens. -/
def Obligations.StepWaitsForTheRequest : Prop :=
  ∀ s : State, s.rst = false → s.noFault → decode s.fetchBytes = .incomplete → step s = .next s

/-- R95: an opcode byte outside the map raises `IllegalRequest` with that byte as `aux`, changes only `FAULT` and `RP` and
emits no event but the response; no byte of the map is decoded as an illegal opcode. -/
def Obligations.IllegalOpcodeRaises : Prop :=
  (∀ (s : State) (op : Byte), s.rst = false → s.noFault → s.req.read s.rp = some op →
    (op.toNat ≤ 0x0F ∨ (0x16 ≤ op.toNat ∧ op.toNat ≤ 0x1F) ∨ 0x25 ≤ op.toNat) →
    step s = .next { s with
      rp := s.rp + 1, fault := ⟨5, op, op.setWidth 16⟩, trace := s.trace ++ [.rsp [0x05]] }) ∧
  (∀ (op o : Byte) (rest : List Byte),
    ¬ (op.toNat ≤ 0x0F ∨ (0x16 ≤ op.toNat ∧ op.toNat ≤ 0x1F) ∨ 0x25 ≤ op.toNat) → decode (op :: rest) ≠ .illegalOpcode o)

/-- R96, R195, R199: `WRNIB` with a non-zero upper half of `imm8` raises `IllegalRequest(aux = imm8)`, in every state. -/
def Obligations.ReservedNibbleOperandRaises : Prop :=
  ∀ (s : State) (imm : Byte), s.rst = false → s.noFault → s.req.read s.rp = some 0x13 → s.req.read (s.rp + 1) = some imm →
    imm.extractLsb' 4 4 ≠ 0#4 →
    step s = .next { s with
      rp := s.rp + 2, fault := ⟨5, 0x13, imm.setWidth 16⟩, trace := s.trace ++ [.rsp [0x05]] }

/-- R197: a halted block is not ready for a request, fetches nothing, emits nothing and changes no register; only reset leaves
the halt. -/
def Obligations.HaltedUntilReset : Prop :=
  (∀ s : State, ¬ s.noFault → s.rst = false → s.reqReady = false ∧ step s = .next s) ∧
  (∀ s : State, s.rst = true → ∃ t, step s = .next t ∧ t.noFault)

/-- R220: reset, whatever the state, gives every register that has one its reset value, with no event and no response. -/
def Obligations.ResetInputGivesResetValues : Prop :=
  ∀ s : State, s.rst = true → ∃ t, step s = .next t ∧
    t.lcdState = .uninitialized ∧ t.clsState = .uncalibrated ∧ t.prev = s.par.prevInit ∧ t.pinDir = .const false ∧
    t.fault = ⟨0, 0, 0⟩ ∧ t.rp = 0 ∧ t.upc = 0 ∧ t.tmr = 0 ∧ t.trace = s.trace ∧ t.cfg = s.cfg

/-- R38: the values the spec gives the registers after reset. -/
def Obligations.ResetStateValues : Prop :=
  State.reset.lcdState.code = 0 ∧ State.reset.clsState.code = 0 ∧ State.reset.prev = State.reset.par.prevInit ∧
  State.reset.prev.toNat = 1023 ∧ (∀ p : Pin, State.reset.pinDir.get p = false) ∧ State.reset.fault.word = 0 ∧
  State.reset.rp = 0 ∧ State.reset.upc = 0 ∧ State.reset.tmr = 0

/-- R221: after reset the block is idle: it drives no pin, and with no request sent a step changes nothing. -/
def Obligations.ResetStateIsIdle : Prop :=
  step State.reset = .next State.reset ∧ (∀ p : Pin, State.reset.drives p = none)

/-- R196, R197: every step answers a next state, and a step that records a fault leaves the block halted: its next step changes
nothing. That a halted block and a waiting block take a step at all is the model's choice (log entry 11). -/
def Obligations.EveryStepAnswers : Prop :=
  ∀ s : State, ∃ t, step s = .next t ∧
    (s.rst = false → t.fault ≠ s.fault → t.faultOut = true ∧ t.reqReady = false ∧ step t = .next t)

/-! ## What holds of every request -/

/-- R113, R214, R24, R168, R31, R32, R34: every step keeps the invariant. That `UPC` and `TMR` are 0 in a block halted by a fault
is the model's (log entry 10); R32 and R34 say it between operations. -/
def Obligations.StepKeepsTheInvariant : Prop := ∀ s t : State, s.Inv → step s = .next t → t.Inv

/-- The invariant holds at reset. -/
def Obligations.ResetMeetsTheInvariant : Prop := State.reset.Inv

/-- R36, R66, R67: no operation changes the parameters, the request pointer, the request space or the reset line. -/
def Obligations.OperationsLeaveTheSequencer : Prop :=
  ∀ (i : Instr) (s t : State), exec i s = .next t →
    t.cfg = s.cfg ∧ t.rp = s.rp ∧ t.req = s.req ∧ t.rst = s.rst ∧
    ∀ a : Nat, t.req.read a = s.req.read a

/-- R92: a request appends its events and then exactly one response; from a block with no fault the status byte is
`FAULT.kind`, and a non-zero status stands alone. -/
def Obligations.ExactlyOneResponse : Prop :=
  ∀ (i : Instr) (s t : State), s.noFault → exec i s = .next t →
    ∃ (es : List Event) (payload : List Byte),
      t.trace = s.trace ++ es ++ [.rsp (t.fault.kind.setWidth 8 :: payload)] ∧
      (∀ e ∈ es, ∀ bs, e ≠ .rsp bs) ∧ (t.fault.kind ≠ 0 → payload = [])

/-- R200: the state gate. A request in a state it is not admitted in raises `ProtocolMisuseError` before any event, with the
state register as `aux`; in the state that admits it, it never does, and the four requests that need nothing never do. -/
def Obligations.StateGateRaises : Prop :=
  (∀ (i : Instr) (s : State) (st : LcdState), needsLcdState i = some st → s.lcdState ≠ st →
    exec i s = .next (s.faulted 2 i.opcode.code (s.lcdState.code.setWidth 16))) ∧
  (∀ (x : Ticks) (s : State), s.clsState = .uncalibrated → exec (.classify x) s = .next (s.faulted 2 0x21 0)) ∧
  (∀ (i : Instr) (s t : State), needsLcdState i = some s.lcdState → s.noFault → exec i s = .next t → t.fault.kind ≠ 2) ∧
  (∀ (x : Ticks) (s t : State), s.clsState = .calibrated → s.noFault → exec (.classify x) s = .next t → t.fault.kind ≠ 2) ∧
  (∀ (i : Instr) (s t : State), i = .calib ∨ i = .rdraw ∨ i = .edge ∨ i = .sense5v → s.noFault → exec i s = .next t →
    t.fault.kind ≠ 2)

/-- R136: the transitions of `LCD_STATE`, complete. -/
def Obligations.LcdStateTransitions : Prop :=
  (∀ s : State, s.pinsOk → s.lcdState = .uninitialized → ∃ t, exec .cfgpins s = .next t ∧ t.lcdState = .pinsConfigured) ∧
  (∀ s : State, s.pinsOk → s.lcdState = .pinsConfigured → ∃ t, exec .initdisp s = .next t ∧ t.lcdState = .displayReady) ∧
  (∀ (i : Instr) (s t : State), exec i s = .next t → t.lcdState ≠ s.lcdState →
    (i = .cfgpins ∧ s.lcdState = .uninitialized ∧ t.lcdState = .pinsConfigured ∧ t.fault = s.fault) ∨
    (i = .initdisp ∧ s.lcdState = .pinsConfigured ∧ t.lcdState = .displayReady ∧ t.fault = s.fault)) ∧
  (∀ (i : Instr) (s : State) (st : LcdState), needsLcdState i = some st → s.lcdState ≠ st →
    ∃ t, exec i s = .next t ∧ t.fault.kind = 2 ∧ t.lcdState = s.lcdState)

/-- R193: `IOError` names an invalid pin of Unit L or an invalid channel of Unit B, so where all are valid it is never raised. -/
def Obligations.IoErrorNamesAnInvalidPinOrChannel : Prop :=
  ∀ (i : Instr) (s t : State), s.noFault → exec i s = .next t → t.fault.kind = 3 →
    (isUnitL i = true ∧ ∃ p, s.pinOk p = false ∧ t.fault = ⟨3, i.opcode.code, s.phys p⟩) ∨
    (isUnitL i = false ∧ ∃ c, ¬ s.chanOk c ∧ t.fault = ⟨3, i.opcode.code, physChannel s.par c⟩)

/-- R198: precision. `ProtocolMisuseError` and `ArgumentFault` leave everything but `FAULT` and the response; a
`CalibrationError` besides these has only the analog reads, two of `CALIB`, one of `SENSE5V` (`UPC` and `TMR`: log entry 10); no
fault changes `LCD_STATE`, `THR`, `CLS_STATE` or `PREV`. -/
def Obligations.FaultsArePrecise : Prop :=
  ∀ (i : Instr) (s t : State), s.noFault → exec i s = .next t →
    ((t.fault.kind = 2 ∨ t.fault.kind = 4) → t = s.faulted t.fault.kind i.opcode.code t.fault.aux) ∧
    (t.fault.kind = 1 →
      (i = .calib ∧ t.known = { s.known with
        fault := t.fault, ana := s.ana.drop 2, upc := 0, tmr := 0,
        trace := s.trace ++ [.adc .btn s.draw, .adc .vsense s.drawn.draw, .rsp [0x01]] }) ∨
      (i = .sense5v ∧ t.known = { s.known with
        fault := t.fault, ana := s.ana.tail, upc := 0, tmr := 0, trace := s.trace ++ [.adc .vsense s.draw, .rsp [0x01]] })) ∧
    (t.fault.kind ≠ 0 → t.lcdState = s.lcdState ∧ t.thr = s.thr ∧ t.clsState = s.clsState ∧ t.prev = s.prev)

/-- R191: the causes of a `CalibrationError`: `CALIB` numbers them 1 to 6, `SENSE5V` only 4. -/
def Obligations.CalibrationErrorCauses : Prop :=
  ∀ (i : Instr) (s t : State), s.noFault → exec i s = .next t → t.fault.kind = 1 →
    (i = .calib ∧ t.fault.op = 0x20 ∧ 1 ≤ t.fault.aux.toNat ∧ t.fault.aux.toNat ≤ 6) ∨
    (i = .sense5v ∧ t.fault.op = 0x24 ∧ t.fault.aux = 4)

/-- R72: the two units share nothing but the ports and `FAULT`. -/
def Obligations.UnitsAreSeparate : Prop :=
  (∀ (i : Instr) (s t : State), isUnitL i = true → exec i s = .next t →
    t.thr = s.thr ∧ t.prev = s.prev ∧ t.clsState = s.clsState ∧ t.ana = s.ana ∧
    ∀ e ∈ emitted s t, ∀ c v, e ≠ .adc c v) ∧
  (∀ (i : Instr) (s t : State), isUnitL i = false → exec i s = .next t →
    t.lcdState = s.lcdState ∧ t.pinDir = s.pinDir ∧ t.pinLvl = s.pinLvl ∧
    ∀ e ∈ emitted s t, (∀ p o, e ≠ .dir p o) ∧ (∀ p l, e ≠ .wr p l) ∧ (∀ p d l, e ≠ .pulse p d l)) ∧
  (∀ s : State, ¬ s.noFault → s.rst = false → step s = .next s)

/-- R72, R223: what Unit B emits, answers and stores does not depend on the pins or on `LCD_STATE`. -/
def Obligations.UnitBIsBlindToUnitL : Prop :=
  ∀ (i : Instr) (s s' t t' : State), isUnitL i = false →
    s.cfg = s'.cfg → s.thr = s'.thr → s.prev = s'.prev → s.clsState = s'.clsState → s.ana = s'.ana → s.fresh = s'.fresh →
    exec i s = .next t → exec i s' = .next t' →
    emitted s t = emitted s' t' ∧ t.thr = t'.thr ∧ t.prev = t'.prev ∧ t.clsState = t'.clsState ∧ t.ana = t'.ana

/-- R72, R223: what Unit L emits, answers and leaves on the pins does not depend on Unit B's registers or inputs. -/
def Obligations.UnitLIsBlindToUnitB : Prop :=
  ∀ (i : Instr) (s s' t t' : State), isUnitL i = true →
    s.cfg = s'.cfg → s.lcdState = s'.lcdState → s.pinDir = s'.pinDir → s.pinLvl = s'.pinLvl →
    exec i s = .next t → exec i s' = .next t' →
    emitted s t = emitted s' t' ∧ t.lcdState = t'.lcdState ∧ t.pinDir = t'.pinDir ∧ t.pinLvl = t'.pinLvl

/-- R21, R24, R28, R29, R31, R113, R214: which request a step must have fetched to write which register. -/
def Obligations.OnlyTheirRequestsWriteTheRegisters : Prop :=
  ∀ s t : State, s.rst = false → step s = .next t →
    (t.thr ≠ s.thr → ∃ n, decode s.fetchBytes = .request .calib n) ∧
    (t.prev ≠ s.prev → ∃ n, decode s.fetchBytes = .request .edge n) ∧
    (t.clsState ≠ s.clsState → t.clsState = .calibrated ∧ ∃ n, decode s.fetchBytes = .request .calib n) ∧
    (t.lcdState ≠ s.lcdState → ∃ i n, decode s.fetchBytes = .request i n ∧ (i = .cfgpins ∨ i = .initdisp)) ∧
    (t.pinDir ≠ s.pinDir → ∃ n, decode s.fetchBytes = .request .cfgpins n) ∧
    (t.pinLvl.bl ≠ s.pinLvl.bl → ∃ n, decode s.fetchBytes = .request .cfgpins n) ∧
    (t.pinLvl.en ≠ s.pinLvl.en → ∃ n, decode s.fetchBytes = .request .cfgpins n) ∧
    (¬ s.noFault → t.fault = s.fault)

/-! ## The Digital IO primitives -/

/-- R105 to R108: each primitive checks its pin, emits its event and changes what its rule says; a pulse returns its pin to
the prior level. No rule says what a pulse or a hold of duration 0 does, and no request issues one (R109). -/
def Obligations.DigitalIoPrimitives : Prop :=
  (∀ (s : State) (p : Pin) (o l : Bool) (d : Nat), 0 < d → s.pinOk p = false →
    dioDir p o s = .raised .io (s.phys p) s ∧ dioWrite p l s = .raised .io (s.phys p) s ∧
    dioPulse p d l s = .raised .io (s.phys p) s) ∧
  (∀ (s : State) (d : Nat), 0 < d → s.pinOk .en = false → dioHold d s = .raised .io (s.phys .en) s) ∧
  (∀ (s : State) (p : Pin) (o : Bool), s.pinOk p = true →
    dioDir p o s = .done { s with pinDir := s.pinDir.set p o, trace := s.trace ++ [.dir p o], upc := s.upc + 1 }) ∧
  (∀ (s : State) (p : Pin) (l : Bool), s.pinOk p = true →
    dioWrite p l s = .done { s with pinLvl := s.pinLvl.set p l, trace := s.trace ++ [.wr p l], upc := s.upc + 1 }) ∧
  (∀ (s : State) (p : Pin) (d : Nat) (l : Bool), 0 < d → s.pinOk p = true →
    dioPulse p d l s = .done { s with trace := s.trace ++ [.pulse p d l], upc := s.upc + 1, tmr := 0 }) ∧
  (∀ (s : State) (d : Nat), 0 < d → s.pinOk .en = true →
    dioHold d s = .done { s with trace := s.trace ++ [.pulse .en (-(d : Int)) false], upc := s.upc + 1, tmr := 0 })

/-! ## Unit L -/

/-- R125: `CFGPINS`. In `Uninitialized` with all pins valid it completes with its fourteen events; otherwise it stops at the
first invalid pin, or at the gate. -/
def Obligations.ConfigurePins : Prop :=
  (∀ s : State, s.lcdState = .uninitialized → s.pinsOk →
    ∃ t, exec .cfgpins s = .next t ∧ t.known = { s.known with
      pinDir := .const true,
      pinLvl := { (s.pinLvl.withNibble s.par.idleNibble) with bl := s.par.blOnLevel, rs := true, en := false },
      lcdState := .pinsConfigured, upc := 0, tmr := 0,
      trace := s.trace ++
        [.dir .dl0 true, .dir .dl1 true, .dir .dl2 true, .dir .dl3 true, .dir .rs true, .dir .en true, .dir .bl true,
         .wr .bl s.par.blOnLevel, .wr .rs true, .wr .en false,
         .wr .dl0 (s.par.idleNibble.getLsbD 0), .wr .dl1 (s.par.idleNibble.getLsbD 1),
         .wr .dl2 (s.par.idleNibble.getLsbD 2), .wr .dl3 (s.par.idleNibble.getLsbD 3), .rsp [0x00]] }) ∧
  (∀ (s : State) (p : Pin), s.lcdState = .uninitialized → s.pinOk p = false →
    (∀ q : Pin, q.index < p.index → s.pinOk q = true) →
    ∃ t, exec .cfgpins s = .next t ∧ t.known = { s.known with
      pinDir := (Pin.all.take p.index).foldl (fun f q => f.set q true) s.pinDir,
      fault := ⟨3, 0x10, s.phys p⟩, upc := 0, tmr := 0,
      trace := s.trace ++ (Pin.all.take p.index).map (fun q => .dir q true) ++ [.rsp [0x03]] }) ∧
  (∀ s : State, s.lcdState ≠ .uninitialized →
    exec .cfgpins s = .next (s.faulted 2 0x10 (s.lcdState.code.setWidth 16)))

/-- R127: `INITDISP` sends the seven commands of the bring-up ROM in order and makes the display ready. -/
def Obligations.InitializeDisplay : Prop :=
  ∀ s : State, s.lcdState = .pinsConfigured → s.pinsOk →
    ∃ t, exec .initdisp s = .next t ∧ t.known = { s.known with
      pinLvl := { (s.pinLvl.withNibble ((s.par.initSeq.getD 6 0).extractLsb' 0 4)) with rs := false },
      lcdState := .displayReady, upc := 0, tmr := 0,
      trace := s.trace ++ s.par.initSeq.flatMap (commandEvents s.par) ++ [.rsp [0x00]] }

/-- R128: the pairs that `INITDISP` latches, for any bring-up ROM and for the default one; and for the default one the one
settle hold, right after the strobe of `(0,1)`: the holds are, in order, five pre-strobe delays, the settle delay and two
pre-strobe delays, and there is no other. -/
def Obligations.InitializeDisplayLatches : Prop :=
  ∀ s t : State, s.lcdState = .pinsConfigured → s.pinsOk → exec .initdisp s = .next t →
    latched s.pinLvl (emitted s t) = s.par.initSeq.flatMap (bytePairs false) ∧
    (s.par.initSeq = [0x33, 0x32, 0x28, 0x0C, 0x01, 0x06, 0x02] → s.par.longCmds = [0x01] →
      latched s.pinLvl (emitted s t) =
        [(false, 3), (false, 3), (false, 3), (false, 2), (false, 2), (false, 8), (false, 0), (false, 0xC), (false, 0), (false, 1),
         (false, 0), (false, 6), (false, 0), (false, 2)] ∧
      ∃ before after, emitted s t = before ++ [.pulse .en s.par.tEnUs true, .hold .en s.par.tClearSettleUs] ++ after ∧
        strobes before = 9 ∧ before.filter Event.isHold = List.replicate 5 (.hold .en s.par.tPreUs) ∧
        after.filter Event.isHold = List.replicate 2 (.hold .en s.par.tPreUs))

/-- R129: `SENDCMD` completes in `DisplayReady` with the events of the command, whatever the byte. -/
def Obligations.SendCommandCompletes : Prop :=
  ∀ (s : State) (b : Byte), s.lcdState = .displayReady → s.pinsOk →
    ∃ t, exec (.sendcmd b) s = .next t ∧ t.known = { s.known with
      pinLvl := { (s.pinLvl.withNibble (b.extractLsb' 0 4)) with rs := false }, upc := 0, tmr := 0,
      trace := s.trace ++ commandEvents s.par b ++ [.rsp [0x00]] }

/-- R130: for every byte, a command latches exactly its high and then its low nibble with `RS = 0`; its strobes are exactly
two, both `PULSE(EN, T_EN_US, 1)`, and each follows the four writes of its nibble with no other strobe between. -/
def Obligations.SendCommandLatchesTwoNibbles : Prop :=
  ∀ (s t : State) (b : Byte), s.lcdState = .displayReady → s.pinsOk → exec (.sendcmd b) s = .next t →
    latched s.pinLvl (emitted s t) = [(false, b.extractLsb' 4 4), (false, b.extractLsb' 0 4)] ∧
    (emitted s t).filter Event.isStrobe = [.pulse .en s.par.tEnUs true, .pulse .en s.par.tEnUs true] ∧
    ∃ before after, emitted s t = before ++ nibbleEvents s.par (b.extractLsb' 4 4) ++ nibbleEvents s.par (b.extractLsb' 0 4) ++ after ∧
      strobes before = 0 ∧ strobes after = 0

/-- R111: `WRNIB` completes in `DisplayReady` with five events, register select as it was; it stops at the first invalid pin
in the order of its primitives. -/
def Obligations.WriteNibble : Prop :=
  (∀ (s : State) (n : Nibble), s.lcdState = .displayReady →
    (∀ p ∈ [Pin.dl0, .dl1, .dl2, .dl3, .en], s.pinOk p = true) →
    ∃ t, exec (.wrnib n) s = .next t ∧ t.known = { s.known with
      pinLvl := s.pinLvl.withNibble n, upc := 0, tmr := 0,
      trace := s.trace ++ nibbleEvents s.par n ++ [.rsp [0x00]] } ∧
      latched s.pinLvl (emitted s t) = [(s.pinLvl.rs, n)]) ∧
  (∀ (s : State) (n : Nibble) (before after : List Pin) (p : Pin), s.lcdState = .displayReady →
    [Pin.dl0, .dl1, .dl2, .dl3, .en] = before ++ p :: after → (∀ q ∈ before, s.pinOk q = true) → s.pinOk p = false →
    ∃ t, exec (.wrnib n) s = .next t ∧ t.fault = ⟨3, 0x13, s.phys p⟩ ∧ t.lcdState = s.lcdState ∧
      t.trace = s.trace ++ (nibbleEvents s.par n).take before.length ++ [.rsp [0x03]])

/-- R131: `WRLINE` completes in `DisplayReady` on rows 1 and 2, whatever the text. -/
def Obligations.WriteLineCompletes : Prop :=
  ∀ (s : State) (row : Byte) (text : List Byte) (a : Byte), s.lcdState = .displayReady → s.pinsOk →
    (row = 1 ∧ a = 0x80) ∨ (row = 2 ∧ a = 0xC0) →
    ∃ t, exec (.wrline row text) s = .next t ∧ t.known = { s.known with
      pinLvl := { (s.pinLvl.withNibble ((text.getLast?.getD a).extractLsb' 0 4)) with rs := true }, upc := 0, tmr := 0,
      trace := s.trace ++ lineEvents s.par a text ++ [.rsp [0x00]] }

/-- R54, R112, R131: the display bus carries the row's start address command and then exactly the characters of the text. -/
def Obligations.WriteLineSendsExactlyTheText : Prop :=
  ∀ (s t : State) (row : Byte) (text : List Byte) (a : Byte), s.lcdState = .displayReady → s.pinsOk →
    (row = 1 ∧ a = 0x80) ∨ (row = 2 ∧ a = 0xC0) → exec (.wrline row text) s = .next t →
    busBytes (latched s.pinLvl (emitted s t)) = some ((false, a) :: text.map (fun c => (true, c)))

/-- R132: the source's worked example: `write_line(1, "HI")` is the row-1 address command and four nibbles. -/
def Obligations.WriteLineHiExample : Prop :=
  ∀ s t : State, s.lcdState = .displayReady → s.pinsOk → exec (.wrline 1 [0x48, 0x49]) s = .next t →
    latched s.pinLvl (emitted s t) = [(false, 8), (false, 0), (true, 4), (true, 8), (true, 4), (true, 9)]

/-- R194: a row that is neither 1 nor 2 raises `ArgumentFault(aux = row)` after the gate and before any event. -/
def Obligations.WriteLineRefusesOtherRows : Prop :=
  ∀ (s : State) (row : Byte) (text : List Byte), row ≠ 1 → row ≠ 2 →
    (s.lcdState = .displayReady → exec (.wrline row text) s = .next (s.faulted 4 0x14 (row.setWidth 16))) ∧
    (s.lcdState ≠ .displayReady →
      exec (.wrline row text) s = .next (s.faulted 2 0x14 (s.lcdState.code.setWidth 16)))

/-- R133: `CLEAR` completes in `DisplayReady` with exactly the events of `SENDCMD CMD_CLEAR`, the settle hold last. -/
def Obligations.ClearDisplay : Prop :=
  ∀ s : State, s.lcdState = .displayReady → s.pinsOk →
    ∃ t, exec .clear s = .next t ∧ exec (.sendcmd s.par.cmdClear) s = .next t ∧ t.known = { s.known with
      pinLvl := { (s.pinLvl.withNibble (s.par.cmdClear.extractLsb' 0 4)) with rs := false }, upc := 0, tmr := 0,
      trace := s.trace ++ [.wr .rs false, .hold .en s.par.tPreUs] ++ byteEvents s.par s.par.cmdClear ++
        [.hold .en s.par.tClearSettleUs, .rsp [0x00]] }

/-- R114: every pulse that any request emits is the enable strobe of `T_EN_US` microseconds or a hold, and no request but
`CFGPINS` writes `EN`, which drives it low. -/
def Obligations.OnlyEnableIsPulsed : Prop :=
  ∀ (i : Instr) (s t : State), exec i s = .next t → ∀ e ∈ emitted s t,
    (∀ p d l, e = .pulse p d l → p = .en ∧ ((d = s.par.tEnUs ∧ 0 < d ∧ l = true) ∨ (d < 0 ∧ l = false))) ∧
    (∀ l, e = .wr .en l → i = .cfgpins ∧ l = false)

/-- R61: every completed request but `WRNIB` strobes an even number of times. -/
def Obligations.StrobesComeInPairs : Prop :=
  ∀ (i : Instr) (s t : State), s.pinsOk → (∀ n, i ≠ .wrnib n) → exec i s = .next t → strobes (emitted s t) % 2 = 0

/-- R134: events, strobes and minimum time of each Unit L operation; the response is not counted. -/
def Obligations.EventStrobeAndTimeTable : Prop :=
  ∀ s : State, s.pinsOk →
    (∀ t, s.lcdState = .uninitialized → exec .cfgpins s = .next t →
      (emitted s t).length = 14 + 1 ∧ strobes (emitted s t) = 0 ∧ minUs (emitted s t) = 0) ∧
    (∀ n t, s.lcdState = .displayReady → exec (.wrnib n) s = .next t →
      (emitted s t).length = 5 + 1 ∧ strobes (emitted s t) = 1 ∧ minUs (emitted s t) = s.par.tEnUs) ∧
    (∀ b t, s.lcdState = .displayReady → b ∉ s.par.longCmds → exec (.sendcmd b) s = .next t →
      (emitted s t).length = 12 + 1 ∧ strobes (emitted s t) = 2 ∧ minUs (emitted s t) = s.par.tPreUs + 2 * s.par.tEnUs) ∧
    (∀ b t, s.lcdState = .displayReady → b ∈ s.par.longCmds → exec (.sendcmd b) s = .next t →
      (emitted s t).length = 13 + 1 ∧ strobes (emitted s t) = 2 ∧
      minUs (emitted s t) = s.par.tPreUs + 2 * s.par.tEnUs + s.par.tClearSettleUs) ∧
    (∀ t, s.lcdState = .displayReady → exec .clear s = .next t →
      (emitted s t).length = 13 + 1 ∧ strobes (emitted s t) = 2 ∧
      minUs (emitted s t) = s.par.tPreUs + 2 * s.par.tEnUs + s.par.tClearSettleUs) ∧
    (∀ t k, k = s.par.initSeq.countP (fun b => decide (b ∈ s.par.longCmds)) → s.lcdState = .pinsConfigured →
      exec .initdisp s = .next t →
      (emitted s t).length = 84 + k + 1 ∧ strobes (emitted s t) = 14 ∧
      minUs (emitted s t) = 7 * (s.par.tPreUs + 2 * s.par.tEnUs) + k * s.par.tClearSettleUs) ∧
    (∀ row text t g, (row = 1 ∨ row = 2) → g = (if 0 < s.par.tCharGapUs then 1 else 0) → s.lcdState = .displayReady →
      0x80#8 ∉ s.par.longCmds → 0xC0#8 ∉ s.par.longCmds → exec (.wrline row text) s = .next t →
      (emitted s t).length = 13 + text.length * (10 + g) + 1 ∧ strobes (emitted s t) = 2 + 2 * text.length ∧
      minUs (emitted s t) = s.par.tPreUs + 2 * s.par.tEnUs + text.length * (2 * s.par.tEnUs + s.par.tCharGapUs))

/-! ## Unit B arithmetic -/

/-- R152, R153: `to_fx` multiplies by 10000, overflows exactly outside -214748..214748, and `from_fx` undoes it. -/
def Obligations.FixedPointConversion : Prop :=
  (∀ n : Int, -214748 ≤ n → n ≤ 214748 → ∃ f, toFx n = .ok f ∧ f.toInt = n * 10000 ∧ fromFx f = n) ∧
  (∀ n : Int, n < -214748 ∨ 214748 < n → toFx n = .overflow) ∧
  (∀ f : Fx, 0 ≤ f.toInt → fromFx f = f.toInt / 10000) ∧ (∀ f : Fx, f.toInt < 0 → fromFx f = -(-f.toInt / 10000))

/-- R154, R155, R157, R158: multiply and divide at every sign combination: the floor of the magnitudes with the product's
sign, an overflow when that does not fit 32 bits, a rejection when the divisor's magnitude is below `FX_DIV_MIN`. -/
def Obligations.FixedPointMultiplyAndDivide : Prop :=
  (∀ (a b : Fx) (n : Int), n = (if (a.toInt < 0) = (b.toInt < 0) then ((a.toInt.natAbs * b.toInt.natAbs / 10000 : Nat) : Int)
      else -((a.toInt.natAbs * b.toInt.natAbs / 10000 : Nat) : Int)) →
    fxMul a b = if -2147483648 ≤ n ∧ n ≤ 2147483647 then .ok (BitVec.ofInt 32 n) else .overflow) ∧
  (∀ (m : Nat) (a b : Fx), b.toInt.natAbs < m → fxDiv m a b = .rejected) ∧
  (∀ (m : Nat) (a b : Fx) (n : Int), ¬ b.toInt.natAbs < m → b.toInt ≠ 0 →
    n = (if (a.toInt < 0) = (b.toInt < 0) then ((a.toInt.natAbs * 10000 / b.toInt.natAbs : Nat) : Int)
      else -((a.toInt.natAbs * 10000 / b.toInt.natAbs : Nat) : Int)) →
    fxDiv m a b = if -2147483648 ≤ n ∧ n ≤ 2147483647 then .ok (BitVec.ofInt 32 n) else .overflow)

/-! ## Unit B -/

/-- R168: the plausibility check: both samples are read first, then the baseline is checked, then the supply. -/
def Obligations.CalibrationRefusesImplausibleSamples : Prop :=
  ∀ (s : State) (b v : Sample), s.chanOk .btn → s.chanOk .vsense → s.draw = b → s.drawn.draw = v →
    b.toNat < s.par.calMin ∨ v.toNat < s.par.calMin →
    ∃ t, exec .calib s = .next t ∧ t.known = { s.known with
      fault := ⟨1, 0x20, if b.toNat < s.par.calMin then 1 else 2⟩, ana := s.ana.drop 2, upc := 0, tmr := 0,
      trace := s.trace ++ [.adc .btn b, .adc .vsense v, .rsp [0x01]] }

/-- R165, R170, R199: `CALIB` with an invalid channel raises `IOError` before the read of that channel. -/
def Obligations.CalibrationNeedsBothChannels : Prop :=
  (∀ s : State, ¬ s.chanOk .btn → ∃ t, exec .calib s = .next t ∧ t.known = { s.known with
    fault := ⟨3, 0x20, s.par.chBtn⟩, upc := 0, tmr := 0, trace := s.trace ++ [.rsp [0x03]] }) ∧
  (∀ (s : State) (b : Sample), s.chanOk .btn → ¬ s.chanOk .vsense → s.draw = b →
    ∃ t, exec .calib s = .next t ∧ t.known = { s.known with
      fault := ⟨3, 0x20, s.par.chVsense⟩, ana := s.ana.tail, upc := 0, tmr := 0,
      trace := s.trace ++ [.adc .btn b, .rsp [0x03]] })

/-- R169, R170: `CALIB` with the spec's `bvr` completes, and its table is given by exact integer arithmetic: with
`q = v * 10000 div V_NOM_TICKS`, entry `i` is `(b * q * RATIO_FX[i] div 10000) div 10000` and entry 0 is `b`. -/
def Obligations.CalibrationStoresScaledThresholds : Prop :=
  ∀ (s : State) (b v : Sample) (q : Nat) (thr : Fx → Nat), s.chanOk .btn → s.chanOk .vsense → s.draw = b → s.drawn.draw = v →
    s.par.bvr = .rescaled → s.par.calMin ≤ b.toNat → s.par.calMin ≤ v.toNat →
    q = v.toNat * 10000 / s.par.vNomTicks → b.toNat * q ≤ 2147483647 →
    (∀ r, thr r = b.toNat * q * r.toInt.toNat / 10000 / 10000) → thr s.par.ratioFx.r1 ≤ 65535 →
    (s.par.calCheckSpacing = true →
      thr s.par.ratioFx.r1 + 10 < b.toNat ∧ thr s.par.ratioFx.r2 + 10 < thr s.par.ratioFx.r1 ∧
      thr s.par.ratioFx.r3 + 10 < thr s.par.ratioFx.r2 ∧ thr s.par.ratioFx.r4 + 10 < thr s.par.ratioFx.r3 ∧
      thr s.par.ratioFx.r5 + 10 < thr s.par.ratioFx.r4) →
    ∃ t, exec .calib s = .next t ∧
      t.thr.ticks.map BitVec.toNat = [b.toNat, thr s.par.ratioFx.r1, thr s.par.ratioFx.r2, thr s.par.ratioFx.r3,
        thr s.par.ratioFx.r4, thr s.par.ratioFx.r5] ∧
      t.known = { s.known with
        thr := t.thr, clsState := .calibrated, ana := s.ana.drop 2, upc := 0, tmr := 0,
        trace := s.trace ++ [.adc .btn b, .adc .vsense v, .rsp [0x00]] }

/-- R172: at the nominal supply the thresholds are `b * RATIO_FX[i] div 10000`, and at the baseline 1023 those of indices 1 to 5
are strictly decreasing. That every instance's `RATIO_FX` has passed the check of R172 is the model's reading (log entry 23). -/
def Obligations.CalibrationAtNominalSupply : Prop :=
  ∀ (s : State) (b v : Sample), s.chanOk .btn → s.chanOk .vsense → s.draw = b → s.drawn.draw = v →
    s.par.bvr = .rescaled → s.par.calCheckSpacing = false → s.par.calMin ≤ b.toNat → v.toNat = s.par.vNomTicks →
    ∃ t, exec .calib s = .next t ∧ t.fault = s.fault ∧ t.clsState = .calibrated ∧
      t.thr.ticks.map (fun x => (x.toNat : Int)) = [(b.toNat : Int), b.toNat * s.par.ratioFx.r1.toInt / 10000,
        b.toNat * s.par.ratioFx.r2.toInt / 10000, b.toNat * s.par.ratioFx.r3.toInt / 10000,
        b.toNat * s.par.ratioFx.r4.toInt / 10000, b.toNat * s.par.ratioFx.r5.toInt / 10000] ∧
      (b.toNat = 1023 → (t.thr.ticks.drop 1).Pairwise fun x y => y.toNat < x.toNat)

/-- R171: all or nothing: a `CALIB` that faults leaves `THR` and `CLS_STATE`; one that does not ends calibrated. -/
def Obligations.CalibrationIsAllOrNothing : Prop :=
  ∀ s t : State, s.noFault → exec .calib s = .next t →
    (t.fault.kind ≠ 0 ∧ t.thr = s.thr ∧ t.clsState = s.clsState) ∨ (t.fault.kind = 0 ∧ t.clsState = .calibrated)

/-- R159: with `CAL_MIN >= 10` and the spec's `bvr`, no overflow and no rejection can happen after the plausibility check. -/
def Obligations.CalibrationNeverOverflows : Prop :=
  ∀ s t : State, s.noFault → 10 ≤ s.par.calMin → s.par.bvr = .rescaled → exec .calib s = .next t → t.fault.kind = 1 →
    t.fault.aux ≠ 3 ∧ t.fault.aux ≠ 4

/-- R174: a comparator holds exactly within nine ticks on either side. -/
def Obligations.ComparatorWindow : Prop :=
  ∀ s t : Ticks, comparator s t = true ↔ (t.toNat : Int) - 9 ≤ s.toNat ∧ (s.toNat : Int) ≤ t.toNat + 9

/-- R175, R177: `CLASSIFY` completes once calibrated, changes nothing but the record, and answers the lowest index whose
threshold is within 10 ticks of the sample, or 7 when every threshold differs by 10 or more. -/
def Obligations.ClassifyAnswersTheLowestMatch : Prop :=
  ∀ (s : State) (x : Ticks), s.clsState = .calibrated →
    ∃ r : Byte, exec (.classify x) s = .next { s with trace := s.trace ++ [.rsp [0x00, r]] } ∧
      ((r = 7 ∧ ∀ t ∈ s.thr.ticks, 10 ≤ ((x.toNat : Int) - t.toNat).natAbs) ∨
       (r.toNat < 6 ∧ ∃ t, s.thr.ticks[r.toNat]? = some t ∧ ((x.toNat : Int) - t.toNat).natAbs < 10 ∧
        ∀ u ∈ s.thr.ticks.take r.toNat, 10 ≤ ((x.toNat : Int) - u.toNat).natAbs))

/-- R179: `RDRAW` returns the raw sample as two bytes and changes no register; with its channel invalid it raises `IOError`. -/
def Obligations.ReadRawReturnsTheSample : Prop :=
  (∀ (s : State) (v : Sample), s.chanOk .btn → s.draw = v →
    ∃ t hi lo, exec .rdraw s = .next t ∧ hi.toNat * 256 + lo.toNat = v.toNat ∧ t.known = { s.known with
      ana := s.ana.tail, upc := 0, tmr := 0, trace := s.trace ++ [.adc .btn v, .rsp [0x00, hi, lo]] }) ∧
  (∀ s : State, ¬ s.chanOk .btn → ∃ t, exec .rdraw s = .next t ∧ t.known = { s.known with
    fault := ⟨3, 0x22, s.par.chBtn⟩, upc := 0, tmr := 0, trace := s.trace ++ [.rsp [0x03]] })

/-- R180, R181: `EDGE` answers 1 exactly when `PREV` was at or above `T_RELEASE` and the sample is below it, and always stores
the sample; with its channel invalid it raises `IOError` and leaves `PREV`. -/
def Obligations.EdgeDetectsThePress : Prop :=
  (∀ (s : State) (v : Sample), s.chanOk .btn → s.draw = v →
    ∃ t, exec .edge s = .next t ∧ t.prev.toNat = v.toNat ∧ t.known = { s.known with
      prev := t.prev, ana := s.ana.tail, upc := 0, tmr := 0,
      trace := s.trace ++ [.adc .btn v,
        .rsp [0x00, if s.par.tRelease ≤ s.prev.toNat ∧ v.toNat < s.par.tRelease then 0x01 else 0x00]] }) ∧
  (∀ s : State, ¬ s.chanOk .btn → ∃ t, exec .edge s = .next t ∧ t.known = { s.known with
    fault := ⟨3, 0x23, s.par.chBtn⟩, upc := 0, tmr := 0, trace := s.trace ++ [.rsp [0x03]] })

/-- R182: the source's sequence 1023, 1023, 400, 1023 gives false, false, true, false, for every admissible `T_RELEASE`. -/
def Obligations.EdgeSequenceExample : Prop :=
  ∀ (s : State) (rest : List Sample), s.chanOk .btn → s.prev = 1023 → s.ana = 1023 :: 1023 :: 400 :: 1023 :: rest →
    ∃ t1 t2 t3 t4, exec .edge s = .next t1 ∧ exec .edge t1 = .next t2 ∧ exec .edge t2 = .next t3 ∧ exec .edge t3 = .next t4 ∧
      t1.prev = 1023 ∧ t2.prev = 1023 ∧ t3.prev = 400 ∧ t4.prev = 1023 ∧
      t4.trace = s.trace ++ [.adc .btn 1023, .rsp [0x00, 0x00], .adc .btn 1023, .rsp [0x00, 0x00],
        .adc .btn 400, .rsp [0x00, 0x01], .adc .btn 1023, .rsp [0x00, 0x00]]

/-- R167, R183: `SENSE5V` answers the millivolts, truncated, so at most 1 mV below the exact value and never above it; a result
above 65535 and an invalid channel are faults. -/
def Obligations.SenseSupplyMillivolts : Prop :=
  (∀ (s : State) (v : Sample), s.chanOk .vsense → s.draw = v → v.toNat * s.par.mvPerTickFx.toInt < 655360000 →
    ∃ t hi lo, exec .sense5v s = .next t ∧
      ((hi.toNat * 256 + lo.toNat : Nat) : Int) * 10000 ≤ v.toNat * s.par.mvPerTickFx.toInt ∧
      v.toNat * s.par.mvPerTickFx.toInt < ((hi.toNat * 256 + lo.toNat : Nat) : Int) * 10000 + 10000 ∧
      t.known = { s.known with
        ana := s.ana.tail, upc := 0, tmr := 0, trace := s.trace ++ [.adc .vsense v, .rsp [0x00, hi, lo]] }) ∧
  (∀ (s : State) (v : Sample), s.chanOk .vsense → s.draw = v → 655360000 ≤ v.toNat * s.par.mvPerTickFx.toInt →
    ∃ t, exec .sense5v s = .next t ∧ t.known = { s.known with
      fault := ⟨1, 0x24, 4⟩, ana := s.ana.tail, upc := 0, tmr := 0, trace := s.trace ++ [.adc .vsense v, .rsp [0x01]] }) ∧
  (∀ s : State, ¬ s.chanOk .vsense → ∃ t, exec .sense5v s = .next t ∧ t.known = { s.known with
    fault := ⟨3, 0x24, s.par.chVsense⟩, upc := 0, tmr := 0, trace := s.trace ++ [.rsp [0x03]] })

/-! ## Unit B: calibrations that fail, and another ratio function -/

/-- R158, R170, R173: where a `CALIB` with the spec's `bvr` and plausible samples does not complete, and with which `aux`: 4 when
`b * q` exceeds 32 bits, else 5 when the first threshold, the largest, exceeds 16 bits, else 6 when the spacing is checked and
two neighbours are 10 ticks apart or less. (`UPC` and `TMR`: log entry 10.) -/
def Obligations.CalibrationRaisesAtTheFirstFailingCheck : Prop :=
  ∀ (s : State) (b v : Sample) (q : Nat) (thr : Fx → Nat) (aux : Aux), s.chanOk .btn → s.chanOk .vsense → s.draw = b →
    s.drawn.draw = v → s.par.bvr = .rescaled → s.par.calMin ≤ b.toNat → s.par.calMin ≤ v.toNat →
    q = v.toNat * 10000 / s.par.vNomTicks → (∀ r, thr r = b.toNat * q * r.toInt.toNat / 10000 / 10000) →
    (2147483647 < b.toNat * q ∧ aux = 4) ∨
    (b.toNat * q ≤ 2147483647 ∧ 65535 < thr s.par.ratioFx.r1 ∧ aux = 5) ∨
    (b.toNat * q ≤ 2147483647 ∧ thr s.par.ratioFx.r1 ≤ 65535 ∧ s.par.calCheckSpacing = true ∧
      (b.toNat ≤ thr s.par.ratioFx.r1 + 10 ∨ thr s.par.ratioFx.r1 ≤ thr s.par.ratioFx.r2 + 10 ∨
        thr s.par.ratioFx.r2 ≤ thr s.par.ratioFx.r3 + 10 ∨ thr s.par.ratioFx.r3 ≤ thr s.par.ratioFx.r4 + 10 ∨
        thr s.par.ratioFx.r4 ≤ thr s.par.ratioFx.r5 + 10) ∧ aux = 6) →
    ∃ t, exec .calib s = .next t ∧ t.known = (s.calibFaulted b v aux).known

/-- R158, R169, R170, R173: `CALIB` in an instance with another `bvr`, whatever function it is (log entry 9): a rejection is `aux` 3,
an overflow 4; from a value `w` the exact thresholds are `(w * RATIO_FX[i] div 10000) div 10000`, one outside 16 bits is `aux` 5, a
failed spacing check 6, and else all six entries are stored. (`UPC` and `TMR`: log entry 10.) -/
def Obligations.CalibrationWithAnotherRatioFunction : Prop :=
  ∀ (s : State) (b v : Sample) (bFx vFx : Fx), s.chanOk .btn → s.chanOk .vsense → s.draw = b → s.drawn.draw = v →
    s.par.bvr = .other → s.par.calMin ≤ b.toNat → s.par.calMin ≤ v.toNat →
    bFx.toInt = (b.toNat : Int) * 10000 → vFx.toInt = (v.toNat : Int) * 10000 →
    ∃ t, exec .calib s = .next t ∧
      match Config.bvrOther bFx vFx with
      | .rejected => t.known = (s.calibFaulted b v 3).known
      | .overflow => t.known = (s.calibFaulted b v 4).known
      | .ok w => ∀ tick : Fx → Int, (∀ r, tick r = ((w.toInt * r.toInt).tdiv 10000).tdiv 10000) →
        ((∃ r ∈ [s.par.ratioFx.r1, s.par.ratioFx.r2, s.par.ratioFx.r3, s.par.ratioFx.r4, s.par.ratioFx.r5],
            tick r < 0 ∨ 65535 < tick r) → t.known = (s.calibFaulted b v 5).known) ∧
        ((∀ r ∈ [s.par.ratioFx.r1, s.par.ratioFx.r2, s.par.ratioFx.r3, s.par.ratioFx.r4, s.par.ratioFx.r5],
            0 ≤ tick r ∧ tick r ≤ 65535) →
          (s.par.calCheckSpacing = true ∧
            (b.toNat ≤ tick s.par.ratioFx.r1 + 10 ∨ tick s.par.ratioFx.r1 ≤ tick s.par.ratioFx.r2 + 10 ∨
              tick s.par.ratioFx.r2 ≤ tick s.par.ratioFx.r3 + 10 ∨ tick s.par.ratioFx.r3 ≤ tick s.par.ratioFx.r4 + 10 ∨
              tick s.par.ratioFx.r4 ≤ tick s.par.ratioFx.r5 + 10) → t.known = (s.calibFaulted b v 6).known) ∧
          (s.par.calCheckSpacing = false ∨
            (tick s.par.ratioFx.r1 + 10 < b.toNat ∧ tick s.par.ratioFx.r2 + 10 < tick s.par.ratioFx.r1 ∧
              tick s.par.ratioFx.r3 + 10 < tick s.par.ratioFx.r2 ∧ tick s.par.ratioFx.r4 + 10 < tick s.par.ratioFx.r3 ∧
              tick s.par.ratioFx.r5 + 10 < tick s.par.ratioFx.r4) →
            t.known = (s.calibStored b v t.thr).known ∧
            t.thr.ticks.map (fun x => (x.toNat : Int)) = [(b.toNat : Int), tick s.par.ratioFx.r1, tick s.par.ratioFx.r2,
              tick s.par.ratioFx.r3, tick s.par.ratioFx.r4, tick s.par.ratioFx.r5]))
end

