-- ==== Sys2Proof/Laws/State.lean ====
section
/-! SUPPORT. One lemma per field per update of the state. -/

namespace Sys2Proof.Machine

variable (s : State)

section Emit
@[simp] theorem State.emit_cfg (e : Event) : (s.emit e).cfg = s.cfg := rfl
@[simp] theorem State.emit_thr (e : Event) : (s.emit e).thr = s.thr := rfl
@[simp] theorem State.emit_prev (e : Event) : (s.emit e).prev = s.prev := rfl
@[simp] theorem State.emit_lcdState (e : Event) : (s.emit e).lcdState = s.lcdState := rfl
@[simp] theorem State.emit_clsState (e : Event) : (s.emit e).clsState = s.clsState := rfl
@[simp] theorem State.emit_pinDir (e : Event) : (s.emit e).pinDir = s.pinDir := rfl
@[simp] theorem State.emit_pinLvl (e : Event) : (s.emit e).pinLvl = s.pinLvl := rfl
@[simp] theorem State.emit_fault (e : Event) : (s.emit e).fault = s.fault := rfl
@[simp] theorem State.emit_rp (e : Event) : (s.emit e).rp = s.rp := rfl
@[simp] theorem State.emit_upc (e : Event) : (s.emit e).upc = s.upc + 1 := rfl
@[simp] theorem State.emit_tmr (e : Event) : (s.emit e).tmr = s.tmr := rfl
@[simp] theorem State.emit_cmd (e : Event) : (s.emit e).cmd = s.cmd := rfl
@[simp] theorem State.emit_nib (e : Event) : (s.emit e).nib = s.nib := rfl
@[simp] theorem State.emit_idx (e : Event) : (s.emit e).idx = s.idx := rfl
@[simp] theorem State.emit_req (e : Event) : (s.emit e).req = s.req := rfl
@[simp] theorem State.emit_ana (e : Event) : (s.emit e).ana = s.ana := rfl
@[simp] theorem State.emit_rst (e : Event) : (s.emit e).rst = s.rst := rfl
@[simp] theorem State.emit_trace (e : Event) : (s.emit e).trace = s.trace ++ [e] := rfl
@[simp] theorem State.emit_fresh (e : Event) : (s.emit e).fresh = s.fresh := rfl
@[simp] theorem State.emit_par (e : Event) : (s.emit e).par = s.par := by simp only [State.par, State.emit_cfg]
@[simp] theorem State.emit_phys (e : Event) (q : Pin) : (s.emit e).phys q = s.phys q := by simp only [State.phys, State.emit_par]
@[simp] theorem State.emit_pinOk (e : Event) (q : Pin) : (s.emit e).pinOk q = s.pinOk q := by
  simp only [State.pinOk, State.emit_par, State.emit_phys]
end Emit

section Setdir
@[simp] theorem State.setDir_cfg (p : Pin) (o : Bool) : (s.setDir p o).cfg = s.cfg := rfl
@[simp] theorem State.setDir_thr (p : Pin) (o : Bool) : (s.setDir p o).thr = s.thr := rfl
@[simp] theorem State.setDir_prev (p : Pin) (o : Bool) : (s.setDir p o).prev = s.prev := rfl
@[simp] theorem State.setDir_lcdState (p : Pin) (o : Bool) : (s.setDir p o).lcdState = s.lcdState := rfl
@[simp] theorem State.setDir_clsState (p : Pin) (o : Bool) : (s.setDir p o).clsState = s.clsState := rfl
@[simp] theorem State.setDir_pinDir (p : Pin) (o : Bool) : (s.setDir p o).pinDir = s.pinDir.set p o := rfl
@[simp] theorem State.setDir_pinLvl (p : Pin) (o : Bool) : (s.setDir p o).pinLvl = s.pinLvl := rfl
@[simp] theorem State.setDir_fault (p : Pin) (o : Bool) : (s.setDir p o).fault = s.fault := rfl
@[simp] theorem State.setDir_rp (p : Pin) (o : Bool) : (s.setDir p o).rp = s.rp := rfl
@[simp] theorem State.setDir_upc (p : Pin) (o : Bool) : (s.setDir p o).upc = s.upc := rfl
@[simp] theorem State.setDir_tmr (p : Pin) (o : Bool) : (s.setDir p o).tmr = s.tmr := rfl
@[simp] theorem State.setDir_cmd (p : Pin) (o : Bool) : (s.setDir p o).cmd = s.cmd := rfl
@[simp] theorem State.setDir_nib (p : Pin) (o : Bool) : (s.setDir p o).nib = s.nib := rfl
@[simp] theorem State.setDir_idx (p : Pin) (o : Bool) : (s.setDir p o).idx = s.idx := rfl
@[simp] theorem State.setDir_req (p : Pin) (o : Bool) : (s.setDir p o).req = s.req := rfl
@[simp] theorem State.setDir_ana (p : Pin) (o : Bool) : (s.setDir p o).ana = s.ana := rfl
@[simp] theorem State.setDir_rst (p : Pin) (o : Bool) : (s.setDir p o).rst = s.rst := rfl
@[simp] theorem State.setDir_trace (p : Pin) (o : Bool) : (s.setDir p o).trace = s.trace := rfl
@[simp] theorem State.setDir_fresh (p : Pin) (o : Bool) : (s.setDir p o).fresh = s.fresh := rfl
@[simp] theorem State.setDir_par (p : Pin) (o : Bool) : (s.setDir p o).par = s.par := by simp only [State.par, State.setDir_cfg]
@[simp] theorem State.setDir_phys (p : Pin) (o : Bool) (q : Pin) : (s.setDir p o).phys q = s.phys q := by simp only [State.phys, State.setDir_par]
@[simp] theorem State.setDir_pinOk (p : Pin) (o : Bool) (q : Pin) : (s.setDir p o).pinOk q = s.pinOk q := by
  simp only [State.pinOk, State.setDir_par, State.setDir_phys]
end Setdir

section Setlvl
@[simp] theorem State.setLvl_cfg (p : Pin) (l : Bool) : (s.setLvl p l).cfg = s.cfg := rfl
@[simp] theorem State.setLvl_thr (p : Pin) (l : Bool) : (s.setLvl p l).thr = s.thr := rfl
@[simp] theorem State.setLvl_prev (p : Pin) (l : Bool) : (s.setLvl p l).prev = s.prev := rfl
@[simp] theorem State.setLvl_lcdState (p : Pin) (l : Bool) : (s.setLvl p l).lcdState = s.lcdState := rfl
@[simp] theorem State.setLvl_clsState (p : Pin) (l : Bool) : (s.setLvl p l).clsState = s.clsState := rfl
@[simp] theorem State.setLvl_pinDir (p : Pin) (l : Bool) : (s.setLvl p l).pinDir = s.pinDir := rfl
@[simp] theorem State.setLvl_pinLvl (p : Pin) (l : Bool) : (s.setLvl p l).pinLvl = s.pinLvl.set p l := rfl
@[simp] theorem State.setLvl_fault (p : Pin) (l : Bool) : (s.setLvl p l).fault = s.fault := rfl
@[simp] theorem State.setLvl_rp (p : Pin) (l : Bool) : (s.setLvl p l).rp = s.rp := rfl
@[simp] theorem State.setLvl_upc (p : Pin) (l : Bool) : (s.setLvl p l).upc = s.upc := rfl
@[simp] theorem State.setLvl_tmr (p : Pin) (l : Bool) : (s.setLvl p l).tmr = s.tmr := rfl
@[simp] theorem State.setLvl_cmd (p : Pin) (l : Bool) : (s.setLvl p l).cmd = s.cmd := rfl
@[simp] theorem State.setLvl_nib (p : Pin) (l : Bool) : (s.setLvl p l).nib = s.nib := rfl
@[simp] theorem State.setLvl_idx (p : Pin) (l : Bool) : (s.setLvl p l).idx = s.idx := rfl
@[simp] theorem State.setLvl_req (p : Pin) (l : Bool) : (s.setLvl p l).req = s.req := rfl
@[simp] theorem State.setLvl_ana (p : Pin) (l : Bool) : (s.setLvl p l).ana = s.ana := rfl
@[simp] theorem State.setLvl_rst (p : Pin) (l : Bool) : (s.setLvl p l).rst = s.rst := rfl
@[simp] theorem State.setLvl_trace (p : Pin) (l : Bool) : (s.setLvl p l).trace = s.trace := rfl
@[simp] theorem State.setLvl_fresh (p : Pin) (l : Bool) : (s.setLvl p l).fresh = s.fresh := rfl
@[simp] theorem State.setLvl_par (p : Pin) (l : Bool) : (s.setLvl p l).par = s.par := by simp only [State.par, State.setLvl_cfg]
@[simp] theorem State.setLvl_phys (p : Pin) (l : Bool) (q : Pin) : (s.setLvl p l).phys q = s.phys q := by simp only [State.phys, State.setLvl_par]
@[simp] theorem State.setLvl_pinOk (p : Pin) (l : Bool) (q : Pin) : (s.setLvl p l).pinOk q = s.pinOk q := by
  simp only [State.pinOk, State.setLvl_par, State.setLvl_phys]
end Setlvl

section Loadtimer
@[simp] theorem State.loadTimer_cfg (d : Nat) : (s.loadTimer d).cfg = s.cfg := rfl
@[simp] theorem State.loadTimer_thr (d : Nat) : (s.loadTimer d).thr = s.thr := rfl
@[simp] theorem State.loadTimer_prev (d : Nat) : (s.loadTimer d).prev = s.prev := rfl
@[simp] theorem State.loadTimer_lcdState (d : Nat) : (s.loadTimer d).lcdState = s.lcdState := rfl
@[simp] theorem State.loadTimer_clsState (d : Nat) : (s.loadTimer d).clsState = s.clsState := rfl
@[simp] theorem State.loadTimer_pinDir (d : Nat) : (s.loadTimer d).pinDir = s.pinDir := rfl
@[simp] theorem State.loadTimer_pinLvl (d : Nat) : (s.loadTimer d).pinLvl = s.pinLvl := rfl
@[simp] theorem State.loadTimer_fault (d : Nat) : (s.loadTimer d).fault = s.fault := rfl
@[simp] theorem State.loadTimer_rp (d : Nat) : (s.loadTimer d).rp = s.rp := rfl
@[simp] theorem State.loadTimer_upc (d : Nat) : (s.loadTimer d).upc = s.upc := rfl
@[simp] theorem State.loadTimer_tmr (d : Nat) : (s.loadTimer d).tmr = timerTicks s.par d := rfl
@[simp] theorem State.loadTimer_cmd (d : Nat) : (s.loadTimer d).cmd = s.cmd := rfl
@[simp] theorem State.loadTimer_nib (d : Nat) : (s.loadTimer d).nib = s.nib := rfl
@[simp] theorem State.loadTimer_idx (d : Nat) : (s.loadTimer d).idx = s.idx := rfl
@[simp] theorem State.loadTimer_req (d : Nat) : (s.loadTimer d).req = s.req := rfl
@[simp] theorem State.loadTimer_ana (d : Nat) : (s.loadTimer d).ana = s.ana := rfl
@[simp] theorem State.loadTimer_rst (d : Nat) : (s.loadTimer d).rst = s.rst := rfl
@[simp] theorem State.loadTimer_trace (d : Nat) : (s.loadTimer d).trace = s.trace := rfl
@[simp] theorem State.loadTimer_fresh (d : Nat) : (s.loadTimer d).fresh = s.fresh := rfl
@[simp] theorem State.loadTimer_par (d : Nat) : (s.loadTimer d).par = s.par := by simp only [State.par, State.loadTimer_cfg]
@[simp] theorem State.loadTimer_phys (d : Nat) (q : Pin) : (s.loadTimer d).phys q = s.phys q := by simp only [State.phys, State.loadTimer_par]
@[simp] theorem State.loadTimer_pinOk (d : Nat) (q : Pin) : (s.loadTimer d).pinOk q = s.pinOk q := by
  simp only [State.pinOk, State.loadTimer_par, State.loadTimer_phys]
end Loadtimer

section Timerexpires
@[simp] theorem State.timerExpires_cfg : s.timerExpires.cfg = s.cfg := rfl
@[simp] theorem State.timerExpires_thr : s.timerExpires.thr = s.thr := rfl
@[simp] theorem State.timerExpires_prev : s.timerExpires.prev = s.prev := rfl
@[simp] theorem State.timerExpires_lcdState : s.timerExpires.lcdState = s.lcdState := rfl
@[simp] theorem State.timerExpires_clsState : s.timerExpires.clsState = s.clsState := rfl
@[simp] theorem State.timerExpires_pinDir : s.timerExpires.pinDir = s.pinDir := rfl
@[simp] theorem State.timerExpires_pinLvl : s.timerExpires.pinLvl = s.pinLvl := rfl
@[simp] theorem State.timerExpires_fault : s.timerExpires.fault = s.fault := rfl
@[simp] theorem State.timerExpires_rp : s.timerExpires.rp = s.rp := rfl
@[simp] theorem State.timerExpires_upc : s.timerExpires.upc = s.upc := rfl
@[simp] theorem State.timerExpires_tmr : s.timerExpires.tmr = 0 := rfl
@[simp] theorem State.timerExpires_cmd : s.timerExpires.cmd = s.cmd := rfl
@[simp] theorem State.timerExpires_nib : s.timerExpires.nib = s.nib := rfl
@[simp] theorem State.timerExpires_idx : s.timerExpires.idx = s.idx := rfl
@[simp] theorem State.timerExpires_req : s.timerExpires.req = s.req := rfl
@[simp] theorem State.timerExpires_ana : s.timerExpires.ana = s.ana := rfl
@[simp] theorem State.timerExpires_rst : s.timerExpires.rst = s.rst := rfl
@[simp] theorem State.timerExpires_trace : s.timerExpires.trace = s.trace := rfl
@[simp] theorem State.timerExpires_fresh : s.timerExpires.fresh = s.fresh := rfl
@[simp] theorem State.timerExpires_par : s.timerExpires.par = s.par := by simp only [State.par, State.timerExpires_cfg]
@[simp] theorem State.timerExpires_phys (q : Pin) : s.timerExpires.phys q = s.phys q := by simp only [State.phys, State.timerExpires_par]
@[simp] theorem State.timerExpires_pinOk (q : Pin) : s.timerExpires.pinOk q = s.pinOk q := by
  simp only [State.pinOk, State.timerExpires_par, State.timerExpires_phys]
end Timerexpires

section Idle
@[simp] theorem State.idle_cfg : s.idle.cfg = s.cfg := rfl
@[simp] theorem State.idle_thr : s.idle.thr = s.thr := rfl
@[simp] theorem State.idle_prev : s.idle.prev = s.prev := rfl
@[simp] theorem State.idle_lcdState : s.idle.lcdState = s.lcdState := rfl
@[simp] theorem State.idle_clsState : s.idle.clsState = s.clsState := rfl
@[simp] theorem State.idle_pinDir : s.idle.pinDir = s.pinDir := rfl
@[simp] theorem State.idle_pinLvl : s.idle.pinLvl = s.pinLvl := rfl
@[simp] theorem State.idle_fault : s.idle.fault = s.fault := rfl
@[simp] theorem State.idle_rp : s.idle.rp = s.rp := rfl
@[simp] theorem State.idle_upc : s.idle.upc = 0 := rfl
@[simp] theorem State.idle_tmr : s.idle.tmr = 0 := rfl
@[simp] theorem State.idle_cmd : s.idle.cmd = s.cmd := rfl
@[simp] theorem State.idle_nib : s.idle.nib = s.nib := rfl
@[simp] theorem State.idle_idx : s.idle.idx = s.idx := rfl
@[simp] theorem State.idle_req : s.idle.req = s.req := rfl
@[simp] theorem State.idle_ana : s.idle.ana = s.ana := rfl
@[simp] theorem State.idle_rst : s.idle.rst = s.rst := rfl
@[simp] theorem State.idle_trace : s.idle.trace = s.trace := rfl
@[simp] theorem State.idle_fresh : s.idle.fresh = s.fresh := rfl
@[simp] theorem State.idle_par : s.idle.par = s.par := by simp only [State.par, State.idle_cfg]
@[simp] theorem State.idle_phys (q : Pin) : s.idle.phys q = s.phys q := by simp only [State.phys, State.idle_par]
@[simp] theorem State.idle_pinOk (q : Pin) : s.idle.pinOk q = s.pinOk q := by
  simp only [State.pinOk, State.idle_par, State.idle_phys]
end Idle

section Droplatches
@[simp] theorem State.dropLatches_cfg : s.dropLatches.cfg = s.cfg := rfl
@[simp] theorem State.dropLatches_thr : s.dropLatches.thr = s.thr := rfl
@[simp] theorem State.dropLatches_prev : s.dropLatches.prev = s.prev := rfl
@[simp] theorem State.dropLatches_lcdState : s.dropLatches.lcdState = s.lcdState := rfl
@[simp] theorem State.dropLatches_clsState : s.dropLatches.clsState = s.clsState := rfl
@[simp] theorem State.dropLatches_pinDir : s.dropLatches.pinDir = s.pinDir := rfl
@[simp] theorem State.dropLatches_pinLvl : s.dropLatches.pinLvl = s.pinLvl := rfl
@[simp] theorem State.dropLatches_fault : s.dropLatches.fault = s.fault := rfl
@[simp] theorem State.dropLatches_rp : s.dropLatches.rp = s.rp := rfl
@[simp] theorem State.dropLatches_upc : s.dropLatches.upc = s.upc := rfl
@[simp] theorem State.dropLatches_tmr : s.dropLatches.tmr = s.tmr := rfl
@[simp] theorem State.dropLatches_cmd : s.dropLatches.cmd = Config.freeCmd s.fresh := rfl
@[simp] theorem State.dropLatches_nib : s.dropLatches.nib = Config.freeNib s.fresh := rfl
@[simp] theorem State.dropLatches_idx : s.dropLatches.idx = Config.freeIdx s.fresh := rfl
@[simp] theorem State.dropLatches_req : s.dropLatches.req = s.req := rfl
@[simp] theorem State.dropLatches_ana : s.dropLatches.ana = s.ana := rfl
@[simp] theorem State.dropLatches_rst : s.dropLatches.rst = s.rst := rfl
@[simp] theorem State.dropLatches_trace : s.dropLatches.trace = s.trace := rfl
@[simp] theorem State.dropLatches_fresh : s.dropLatches.fresh = s.fresh + 1 := rfl
@[simp] theorem State.dropLatches_par : s.dropLatches.par = s.par := by simp only [State.par, State.dropLatches_cfg]
@[simp] theorem State.dropLatches_phys (q : Pin) : s.dropLatches.phys q = s.phys q := by simp only [State.phys, State.dropLatches_par]
@[simp] theorem State.dropLatches_pinOk (q : Pin) : s.dropLatches.pinOk q = s.pinOk q := by
  simp only [State.pinOk, State.dropLatches_par, State.dropLatches_phys]
end Droplatches

section Rsp
@[simp] theorem State.rsp_cfg (bs : List Byte) : (s.rsp bs).cfg = s.cfg := rfl
@[simp] theorem State.rsp_thr (bs : List Byte) : (s.rsp bs).thr = s.thr := rfl
@[simp] theorem State.rsp_prev (bs : List Byte) : (s.rsp bs).prev = s.prev := rfl
@[simp] theorem State.rsp_lcdState (bs : List Byte) : (s.rsp bs).lcdState = s.lcdState := rfl
@[simp] theorem State.rsp_clsState (bs : List Byte) : (s.rsp bs).clsState = s.clsState := rfl
@[simp] theorem State.rsp_pinDir (bs : List Byte) : (s.rsp bs).pinDir = s.pinDir := rfl
@[simp] theorem State.rsp_pinLvl (bs : List Byte) : (s.rsp bs).pinLvl = s.pinLvl := rfl
@[simp] theorem State.rsp_fault (bs : List Byte) : (s.rsp bs).fault = s.fault := rfl
@[simp] theorem State.rsp_rp (bs : List Byte) : (s.rsp bs).rp = s.rp := rfl
@[simp] theorem State.rsp_upc (bs : List Byte) : (s.rsp bs).upc = s.upc := rfl
@[simp] theorem State.rsp_tmr (bs : List Byte) : (s.rsp bs).tmr = s.tmr := rfl
@[simp] theorem State.rsp_cmd (bs : List Byte) : (s.rsp bs).cmd = s.cmd := rfl
@[simp] theorem State.rsp_nib (bs : List Byte) : (s.rsp bs).nib = s.nib := rfl
@[simp] theorem State.rsp_idx (bs : List Byte) : (s.rsp bs).idx = s.idx := rfl
@[simp] theorem State.rsp_req (bs : List Byte) : (s.rsp bs).req = s.req := rfl
@[simp] theorem State.rsp_ana (bs : List Byte) : (s.rsp bs).ana = s.ana := rfl
@[simp] theorem State.rsp_rst (bs : List Byte) : (s.rsp bs).rst = s.rst := rfl
@[simp] theorem State.rsp_trace (bs : List Byte) : (s.rsp bs).trace = s.trace ++ [.rsp bs] := rfl
@[simp] theorem State.rsp_fresh (bs : List Byte) : (s.rsp bs).fresh = s.fresh := rfl
@[simp] theorem State.rsp_par (bs : List Byte) : (s.rsp bs).par = s.par := by simp only [State.par, State.rsp_cfg]
@[simp] theorem State.rsp_phys (bs : List Byte) (q : Pin) : (s.rsp bs).phys q = s.phys q := by simp only [State.phys, State.rsp_par]
@[simp] theorem State.rsp_pinOk (bs : List Byte) (q : Pin) : (s.rsp bs).pinOk q = s.pinOk q := by
  simp only [State.pinOk, State.rsp_par, State.rsp_phys]
end Rsp

section Raise
@[simp] theorem State.raise_cfg (k : FaultKind) (op : Byte) (a : Aux) : (s.raise k op a).cfg = s.cfg := rfl
@[simp] theorem State.raise_thr (k : FaultKind) (op : Byte) (a : Aux) : (s.raise k op a).thr = s.thr := rfl
@[simp] theorem State.raise_prev (k : FaultKind) (op : Byte) (a : Aux) : (s.raise k op a).prev = s.prev := rfl
@[simp] theorem State.raise_lcdState (k : FaultKind) (op : Byte) (a : Aux) : (s.raise k op a).lcdState = s.lcdState := rfl
@[simp] theorem State.raise_clsState (k : FaultKind) (op : Byte) (a : Aux) : (s.raise k op a).clsState = s.clsState := rfl
@[simp] theorem State.raise_pinDir (k : FaultKind) (op : Byte) (a : Aux) : (s.raise k op a).pinDir = s.pinDir := rfl
@[simp] theorem State.raise_pinLvl (k : FaultKind) (op : Byte) (a : Aux) : (s.raise k op a).pinLvl = s.pinLvl := rfl
@[simp] theorem State.raise_fault (k : FaultKind) (op : Byte) (a : Aux) : (s.raise k op a).fault = ⟨k.code, op, a⟩ := rfl
@[simp] theorem State.raise_rp (k : FaultKind) (op : Byte) (a : Aux) : (s.raise k op a).rp = s.rp := rfl
@[simp] theorem State.raise_upc (k : FaultKind) (op : Byte) (a : Aux) : (s.raise k op a).upc = s.upc := rfl
@[simp] theorem State.raise_tmr (k : FaultKind) (op : Byte) (a : Aux) : (s.raise k op a).tmr = s.tmr := rfl
@[simp] theorem State.raise_cmd (k : FaultKind) (op : Byte) (a : Aux) : (s.raise k op a).cmd = s.cmd := rfl
@[simp] theorem State.raise_nib (k : FaultKind) (op : Byte) (a : Aux) : (s.raise k op a).nib = s.nib := rfl
@[simp] theorem State.raise_idx (k : FaultKind) (op : Byte) (a : Aux) : (s.raise k op a).idx = s.idx := rfl
@[simp] theorem State.raise_req (k : FaultKind) (op : Byte) (a : Aux) : (s.raise k op a).req = s.req := rfl
@[simp] theorem State.raise_ana (k : FaultKind) (op : Byte) (a : Aux) : (s.raise k op a).ana = s.ana := rfl
@[simp] theorem State.raise_rst (k : FaultKind) (op : Byte) (a : Aux) : (s.raise k op a).rst = s.rst := rfl
@[simp] theorem State.raise_trace (k : FaultKind) (op : Byte) (a : Aux) : (s.raise k op a).trace = s.trace ++ [.rsp [k.status]] := rfl
@[simp] theorem State.raise_fresh (k : FaultKind) (op : Byte) (a : Aux) : (s.raise k op a).fresh = s.fresh := rfl
@[simp] theorem State.raise_par (k : FaultKind) (op : Byte) (a : Aux) : (s.raise k op a).par = s.par := by simp only [State.par, State.raise_cfg]
@[simp] theorem State.raise_phys (k : FaultKind) (op : Byte) (a : Aux) (q : Pin) : (s.raise k op a).phys q = s.phys q := by simp only [State.phys, State.raise_par]
@[simp] theorem State.raise_pinOk (k : FaultKind) (op : Byte) (a : Aux) (q : Pin) : (s.raise k op a).pinOk q = s.pinOk q := by
  simp only [State.pinOk, State.raise_par, State.raise_phys]
end Raise

section Advance
@[simp] theorem State.advance_cfg (n : Nat) : (s.advance n).cfg = s.cfg := rfl
@[simp] theorem State.advance_thr (n : Nat) : (s.advance n).thr = s.thr := rfl
@[simp] theorem State.advance_prev (n : Nat) : (s.advance n).prev = s.prev := rfl
@[simp] theorem State.advance_lcdState (n : Nat) : (s.advance n).lcdState = s.lcdState := rfl
@[simp] theorem State.advance_clsState (n : Nat) : (s.advance n).clsState = s.clsState := rfl
@[simp] theorem State.advance_pinDir (n : Nat) : (s.advance n).pinDir = s.pinDir := rfl
@[simp] theorem State.advance_pinLvl (n : Nat) : (s.advance n).pinLvl = s.pinLvl := rfl
@[simp] theorem State.advance_fault (n : Nat) : (s.advance n).fault = s.fault := rfl
@[simp] theorem State.advance_rp (n : Nat) : (s.advance n).rp = s.rp + n := rfl
@[simp] theorem State.advance_upc (n : Nat) : (s.advance n).upc = s.upc := rfl
@[simp] theorem State.advance_tmr (n : Nat) : (s.advance n).tmr = s.tmr := rfl
@[simp] theorem State.advance_cmd (n : Nat) : (s.advance n).cmd = s.cmd := rfl
@[simp] theorem State.advance_nib (n : Nat) : (s.advance n).nib = s.nib := rfl
@[simp] theorem State.advance_idx (n : Nat) : (s.advance n).idx = s.idx := rfl
@[simp] theorem State.advance_req (n : Nat) : (s.advance n).req = s.req := rfl
@[simp] theorem State.advance_ana (n : Nat) : (s.advance n).ana = s.ana := rfl
@[simp] theorem State.advance_rst (n : Nat) : (s.advance n).rst = s.rst := rfl
@[simp] theorem State.advance_trace (n : Nat) : (s.advance n).trace = s.trace := rfl
@[simp] theorem State.advance_fresh (n : Nat) : (s.advance n).fresh = s.fresh := rfl
@[simp] theorem State.advance_par (n : Nat) : (s.advance n).par = s.par := by simp only [State.par, State.advance_cfg]
@[simp] theorem State.advance_phys (n : Nat) (q : Pin) : (s.advance n).phys q = s.phys q := by simp only [State.phys, State.advance_par]
@[simp] theorem State.advance_pinOk (n : Nat) (q : Pin) : (s.advance n).pinOk q = s.pinOk q := by
  simp only [State.pinOk, State.advance_par, State.advance_phys]
end Advance

section Drawn
@[simp] theorem State.drawn_cfg : s.drawn.cfg = s.cfg := by unfold State.drawn; split <;> rfl
@[simp] theorem State.drawn_thr : s.drawn.thr = s.thr := by unfold State.drawn; split <;> rfl
@[simp] theorem State.drawn_prev : s.drawn.prev = s.prev := by unfold State.drawn; split <;> rfl
@[simp] theorem State.drawn_lcdState : s.drawn.lcdState = s.lcdState := by unfold State.drawn; split <;> rfl
@[simp] theorem State.drawn_clsState : s.drawn.clsState = s.clsState := by unfold State.drawn; split <;> rfl
@[simp] theorem State.drawn_pinDir : s.drawn.pinDir = s.pinDir := by unfold State.drawn; split <;> rfl
@[simp] theorem State.drawn_pinLvl : s.drawn.pinLvl = s.pinLvl := by unfold State.drawn; split <;> rfl
@[simp] theorem State.drawn_fault : s.drawn.fault = s.fault := by unfold State.drawn; split <;> rfl
@[simp] theorem State.drawn_rp : s.drawn.rp = s.rp := by unfold State.drawn; split <;> rfl
@[simp] theorem State.drawn_upc : s.drawn.upc = s.upc := by unfold State.drawn; split <;> rfl
@[simp] theorem State.drawn_tmr : s.drawn.tmr = s.tmr := by unfold State.drawn; split <;> rfl
@[simp] theorem State.drawn_cmd : s.drawn.cmd = s.cmd := by unfold State.drawn; split <;> rfl
@[simp] theorem State.drawn_nib : s.drawn.nib = s.nib := by unfold State.drawn; split <;> rfl
@[simp] theorem State.drawn_idx : s.drawn.idx = s.idx := by unfold State.drawn; split <;> rfl
@[simp] theorem State.drawn_req : s.drawn.req = s.req := by unfold State.drawn; split <;> rfl
@[simp] theorem State.drawn_ana : s.drawn.ana = s.ana.tail := by unfold State.drawn; split <;> simp_all
@[simp] theorem State.drawn_rst : s.drawn.rst = s.rst := by unfold State.drawn; split <;> rfl
@[simp] theorem State.drawn_trace : s.drawn.trace = s.trace := by unfold State.drawn; split <;> rfl
@[simp] theorem State.drawn_fresh : s.drawn.fresh = if s.ana = [] then s.fresh + 1 else s.fresh := by
  unfold State.drawn; split <;> simp_all
@[simp] theorem State.drawn_par : s.drawn.par = s.par := by unfold State.drawn; split <;> rfl
end Drawn

section AfterReset
@[simp] theorem State.afterReset_cfg : s.afterReset.cfg = s.cfg := rfl
@[simp] theorem State.afterReset_thr : s.afterReset.thr = ⟨.zero, .zero, .zero, .zero, .zero, .zero⟩ := rfl
@[simp] theorem State.afterReset_prev : s.afterReset.prev = s.par.prevInit := rfl
@[simp] theorem State.afterReset_lcdState : s.afterReset.lcdState = .uninitialized := rfl
@[simp] theorem State.afterReset_clsState : s.afterReset.clsState = .uncalibrated := rfl
@[simp] theorem State.afterReset_pinDir : s.afterReset.pinDir = .const false := rfl
@[simp] theorem State.afterReset_pinLvl : s.afterReset.pinLvl = .const false := rfl
@[simp] theorem State.afterReset_fault : s.afterReset.fault = .none := rfl
@[simp] theorem State.afterReset_rp : s.afterReset.rp = 0 := rfl
@[simp] theorem State.afterReset_upc : s.afterReset.upc = 0 := rfl
@[simp] theorem State.afterReset_tmr : s.afterReset.tmr = 0 := rfl
@[simp] theorem State.afterReset_cmd : s.afterReset.cmd = 0 := rfl
@[simp] theorem State.afterReset_nib : s.afterReset.nib = 0 := rfl
@[simp] theorem State.afterReset_idx : s.afterReset.idx = 0 := rfl
@[simp] theorem State.afterReset_req : s.afterReset.req = s.req.rebase s.rp := rfl
@[simp] theorem State.afterReset_ana : s.afterReset.ana = s.ana := rfl
@[simp] theorem State.afterReset_rst : s.afterReset.rst = false := rfl
@[simp] theorem State.afterReset_trace : s.afterReset.trace = s.trace := rfl
@[simp] theorem State.afterReset_fresh : s.afterReset.fresh = s.fresh := rfl
end AfterReset

end Sys2Proof.Machine
end

