-- ==== Sys2Proof/Laws/Ops.lean ====
section
/-! SUPPORT. For each shared operation, once, everything it can do. -/

namespace Sys2Proof.Machine

@[simp] theorem Res.andThen_done (s : State) (f : State → Res) : (Res.done s).andThen f = f s := rfl
@[simp] theorem Res.andThen_raised (k : FaultKind) (a : Aux) (s : State) (f : State → Res) :
    (Res.raised k a s).andThen f = .raised k a s := rfl
@[simp] theorem Res.map_done (s : State) (f : State → State) : (Res.done s).map f = .done (f s) := rfl
@[simp] theorem Res.map_raised (k : FaultKind) (a : Aux) (s : State) (f : State → State) :
    (Res.raised k a s).map f = .raised k a (f s) := rfl

/-- The state a result holds, whether the operation ended or raised. -/
def Res.state (r : Res) : State :=
  match r with
  | .done s => s
  | .raised _ _ s => s

@[simp] theorem Res.state_done (s : State) : (Res.done s).state = s := rfl
@[simp] theorem Res.state_raised (k : FaultKind) (a : Aux) (s : State) : (Res.raised k a s).state = s := rfl

/-- Everything outside the pins, the sequencer and the latches is the same. -/
structure SameOutsidePins (s t : State) : Prop where
  cfg : t.cfg = s.cfg
  thr : t.thr = s.thr
  prev : t.prev = s.prev
  lcdState : t.lcdState = s.lcdState
  clsState : t.clsState = s.clsState
  fault : t.fault = s.fault
  rp : t.rp = s.rp
  req : t.req = s.req
  ana : t.ana = s.ana
  rst : t.rst = s.rst
  fresh : t.fresh = s.fresh

theorem SameOutsidePins.refl (s : State) : SameOutsidePins s s := ⟨rfl, rfl, rfl, rfl, rfl, rfl, rfl, rfl, rfl, rfl, rfl⟩

theorem SameOutsidePins.trans {s t u : State} (h : SameOutsidePins s t) (k : SameOutsidePins t u) : SameOutsidePins s u :=
  ⟨k.cfg.trans h.cfg, k.thr.trans h.thr, k.prev.trans h.prev, k.lcdState.trans h.lcdState, k.clsState.trans h.clsState,
   k.fault.trans h.fault, k.rp.trans h.rp, k.req.trans h.req, k.ana.trans h.ana, k.rst.trans h.rst, k.fresh.trans h.fresh⟩

theorem SameOutsidePins.par {s t : State} (h : SameOutsidePins s t) : t.par = s.par := by
  simp only [State.par, h.cfg]

theorem SameOutsidePins.pinOk {s t : State} (h : SameOutsidePins s t) (p : Pin) : t.pinOk p = s.pinOk p := by
  simp only [State.pinOk, State.phys, h.par]

theorem PerPin.set_get_restore {α : Type} (f : PerPin α) (p : Pin) (a : α) : (f.set p a).set p (f.get p) = f := by
  cases p <;> rfl

@[simp] theorem PerPin.get_set_self {α : Type} (f : PerPin α) (p : Pin) (a : α) : (f.set p a).get p = a := by
  cases p <;> rfl

theorem PerPin.get_set_ne {α : Type} (f : PerPin α) {p q : Pin} (a : α) (h : q ≠ p) : (f.set p a).get q = f.get q := by
  cases p <;> cases q <;> first | rfl | exact absurd rfl h

@[simp] theorem PerPin.get_const {α : Type} (a : α) (p : Pin) : (PerPin.const a).get p = a := by cases p <;> rfl

/-- The pin a micro-step needs valid, if it is a primitive. -/
def MicroOp.pin? (m : MicroOp) : Option Pin :=
  match m with
  | .dir p _ => some p
  | .write p _ => some p
  | .pulse p _ _ => some p
  | .hold _ => some .en
  | .loadCmd _ => none
  | .loadNib _ => none
  | .loadIdx _ => none

/-- The events a micro-step emits when its pin is valid. -/
def MicroOp.events (m : MicroOp) : List Event :=
  match m with
  | .dir p o => [.dir p o]
  | .write p l => [.wr p l]
  | .pulse p d l => [.pulse p d l]
  | .hold d => [.hold .en d]
  | .loadCmd _ => []
  | .loadNib _ => []
  | .loadIdx _ => []

/-- What a micro-step does to the pin levels. -/
def MicroOp.levels (f : PinBits) (m : MicroOp) : PinBits :=
  match m with
  | .dir _ _ => f
  | .write p l => f.set p l
  | .pulse _ _ _ => f
  | .hold _ => f
  | .loadCmd _ => f
  | .loadNib _ => f
  | .loadIdx _ => f

/-- What a micro-step does to the pin directions. -/
def MicroOp.dirs (f : PinBits) (m : MicroOp) : PinBits :=
  match m with
  | .dir p o => f.set p o
  | .write _ _ => f
  | .pulse _ _ _ => f
  | .hold _ => f
  | .loadCmd _ => f
  | .loadNib _ => f
  | .loadIdx _ => f

/-- One micro-step, everything it can do: with its pin valid it emits its events and moves the pins; otherwise it raises
`IOError` with the physical number and changes nothing (R105 to R108). -/
theorem MicroOp.run_cases (m : MicroOp) (s : State) :
    ((∀ p, m.pin? = some p → s.pinOk p = true) ∧
      ∃ t, m.run s = .done t ∧ SameOutsidePins s t ∧ t.trace = s.trace ++ m.events ∧
        t.pinLvl = MicroOp.levels s.pinLvl m ∧ t.pinDir = MicroOp.dirs s.pinDir m) ∨
    (∃ p, m.pin? = some p ∧ s.pinOk p = false ∧ m.run s = .raised .io (s.phys p) s) := by
  cases m with
  | dir p o =>
    cases h : s.pinOk p with
    | true =>
      refine .inl ⟨fun q hq => ?_, _, if_pos h, ?_, rfl, rfl, rfl⟩
      · cases hq; exact h
      · exact ⟨rfl, rfl, rfl, rfl, rfl, rfl, rfl, rfl, rfl, rfl, rfl⟩
    | false => exact .inr ⟨p, rfl, h, if_neg (by simp [h])⟩
  | write p l =>
    cases h : s.pinOk p with
    | true =>
      refine .inl ⟨fun q hq => ?_, _, if_pos h, ?_, rfl, rfl, rfl⟩
      · cases hq; exact h
      · exact ⟨rfl, rfl, rfl, rfl, rfl, rfl, rfl, rfl, rfl, rfl, rfl⟩
    | false => exact .inr ⟨p, rfl, h, if_neg (by simp [h])⟩
  | pulse p d l =>
    cases h : s.pinOk p with
    | true =>
      refine .inl ⟨fun q hq => ?_, _, if_pos h, ?_, rfl,
        PerPin.set_get_restore _ _ _, rfl⟩
      · cases hq; exact h
      · exact ⟨rfl, rfl, rfl, rfl, rfl, rfl, rfl, rfl, rfl, rfl, rfl⟩
    | false => exact .inr ⟨p, rfl, h, if_neg (by simp [h])⟩
  | hold d =>
    cases h : s.pinOk .en with
    | true =>
      refine .inl ⟨fun q hq => ?_, _, if_pos h, ?_, rfl, rfl, rfl⟩
      · cases hq; exact h
      · exact ⟨rfl, rfl, rfl, rfl, rfl, rfl, rfl, rfl, rfl, rfl, rfl⟩
    | false => exact .inr ⟨.en, rfl, h, if_neg (by simp [h])⟩
  | loadCmd b => exact .inl ⟨by simp [MicroOp.pin?], _, rfl, ⟨rfl, rfl, rfl, rfl, rfl, rfl, rfl, rfl, rfl, rfl, rfl⟩, by simp [MicroOp.events], rfl, rfl⟩
  | loadNib n => exact .inl ⟨by simp [MicroOp.pin?], _, rfl, ⟨rfl, rfl, rfl, rfl, rfl, rfl, rfl, rfl, rfl, rfl, rfl⟩, by simp [MicroOp.events], rfl, rfl⟩
  | loadIdx i => exact .inl ⟨by simp [MicroOp.pin?], _, rfl, ⟨rfl, rfl, rfl, rfl, rfl, rfl, rfl, rfl, rfl, rfl, rfl⟩, by simp [MicroOp.events], rfl, rfl⟩

theorem runMicro_append (xs ys : List MicroOp) (s : State) :
    runMicro (xs ++ ys) s = (runMicro xs s).andThen (runMicro ys) := by
  induction xs generalizing s with
  | nil => rfl
  | cons x xs ih =>
    simp only [List.cons_append, runMicro]
    cases x.run s with
    | done t => exact ih t
    | raised k a t => rfl

/-- Micro-steps, everything they can do: all of them run, or the first with an invalid pin raises `IOError` and those
before it have run (R15, R196). -/
theorem runMicro_cases (ms : List MicroOp) (s : State) :
    ∃ done rest, ms = done ++ rest ∧ (∀ m ∈ done, ∀ p, m.pin? = some p → s.pinOk p = true) ∧
      ∃ t, SameOutsidePins s t ∧ t.trace = s.trace ++ done.flatMap MicroOp.events ∧
        t.pinLvl = done.foldl MicroOp.levels s.pinLvl ∧ t.pinDir = done.foldl MicroOp.dirs s.pinDir ∧
        ((rest = [] ∧ runMicro ms s = .done t) ∨
         ∃ m tail p, rest = m :: tail ∧ m.pin? = some p ∧ s.pinOk p = false ∧
           runMicro ms s = .raised .io (s.phys p) t) := by
  induction ms generalizing s with
  | nil => exact ⟨[], [], rfl, by simp, s, .refl s, by simp, rfl, rfl, .inl ⟨rfl, rfl⟩⟩
  | cons m ms ih =>
    rcases m.run_cases s with ⟨hp, t, hrun, hsame, htr, hlvl, hdir⟩ | ⟨p, hp, hbad, hrun⟩
    · obtain ⟨done, rest, rfl, hok, u, husame, hutr, hulvl, hudir, hend⟩ := ih t
      refine ⟨m :: done, rest, rfl, ?_, u, hsame.trans husame, ?_, ?_, ?_, ?_⟩
      · intro x hx q hq
        rcases List.mem_cons.mp hx with rfl | hx
        · exact hp q hq
        · rw [← hsame.pinOk]; exact hok x hx q hq
      · simp [hutr, htr]
      · rw [hulvl, hlvl, List.foldl_cons]
      · rw [hudir, hdir, List.foldl_cons]
      · rcases hend with ⟨hr, hdone⟩ | ⟨x, tail, q, hr, hq, hbad, hraised⟩
        · exact .inl ⟨hr, by simp only [runMicro, hrun, Res.andThen_done]; exact hdone⟩
        · refine .inr ⟨x, tail, q, hr, hq, by rw [← hsame.pinOk]; exact hbad, ?_⟩
          simp only [runMicro, hrun, Res.andThen_done]
          rw [hraised]
          simp only [State.phys, hsame.par]
    · exact ⟨[], m :: ms, rfl, by simp, s, .refl s, by simp, rfl, rfl,
        .inr ⟨m, ms, p, rfl, hp, hbad, by simp only [runMicro, hrun, Res.andThen_raised]⟩⟩

/-- With all pins valid every micro-step runs. -/
theorem runMicro_of_pinsOk (ms : List MicroOp) (s : State) (h : s.pinsOk) :
    ∃ t, runMicro ms s = .done t ∧ SameOutsidePins s t ∧ t.trace = s.trace ++ ms.flatMap MicroOp.events ∧
      t.pinLvl = ms.foldl MicroOp.levels s.pinLvl ∧ t.pinDir = ms.foldl MicroOp.dirs s.pinDir := by
  obtain ⟨done, rest, rfl, -, t, hsame, htr, hlvl, hdir, hend⟩ := runMicro_cases ms s
  rcases hend with ⟨rfl, hdone⟩ | ⟨m, tail, p, -, -, hbad, -⟩
  · rw [List.append_nil] at hdone ⊢
    exact ⟨t, hdone, hsame, htr, hlvl, hdir⟩
  · rw [h p] at hbad
    cases hbad

/-- The pin part of a Unit L operation with all pins valid. -/
theorem unitL_of_pinsOk (ms : List MicroOp) (s : State) (h : s.pinsOk) :
    ∃ t, unitL ms s = .done t ∧
      t.known = { s.known with
        pinLvl := ms.foldl MicroOp.levels s.pinLvl, pinDir := ms.foldl MicroOp.dirs s.pinDir,
        trace := s.trace ++ ms.flatMap MicroOp.events, upc := 0, tmr := 0 } := by
  obtain ⟨t, hrun, hsame, htr, hlvl, hdir⟩ := runMicro_of_pinsOk ms s h
  refine ⟨t.idle.dropLatches, by simp [unitL, hrun], ?_⟩
  obtain ⟨h1, h2, h3, h4, h5, h6, h7, h8, h9, h10, h11⟩ := hsame
  simp [State.known, h1, h2, h3, h4, h5, h6, h7, h8, h9, h10, htr, hlvl, hdir]

/-- One analog read, everything it can do (R165). -/
theorem adcRead_cases (c : Chan) (s : State) :
    (s.chanOk c ∧ adcRead c s = .done (s.drawn.emit (.adc c s.draw))) ∨
    (¬ s.chanOk c ∧ adcRead c s = .raised .io (physChannel s.par c) s) := by
  by_cases h : s.par.chanValid.holds (physChannel s.par c) = true
  · exact .inl ⟨h, by simp [adcRead, h]⟩
  · exact .inr ⟨h, by simp [adcRead, h]⟩

/-- The state gate of Unit L, everything it can do (R200). -/
theorem needLcd_cases (st : LcdState) (s : State) :
    (s.lcdState = st ∧ needLcd st s = .done s) ∨
    (s.lcdState ≠ st ∧ needLcd st s = .raised .protocolMisuse (s.lcdState.code.setWidth 16) s) := by
  by_cases h : s.lcdState = st
  · exact .inl ⟨h, by simp [needLcd, h]⟩
  · exact .inr ⟨h, by simp [needLcd, h]⟩

/-- The fault entry as the claims write it (R196). -/
theorem State.raise_eq_faulted (s : State) (k : FaultKind) (op : Byte) (a : Aux) : s.raise k op a = s.faulted k.code op a := rfl

@[simp] theorem request_done {o : Opcode} {body : State → Res} {s t : State} (h : body s = .done t) : request o body s = t := by
  simp [request, h]

theorem request_raised {o : Opcode} {body : State → Res} {s t : State} {k : FaultKind} {a : Aux} (h : body s = .raised k a t) :
    request o body s = t.raise k o.code a := by
  simp [request, h]

end Sys2Proof.Machine
end

