-- ==== Sys2Proof/Laws/Requests.lean ====
section
/-! SUPPORT. What a request can do, once: the outcomes of a Unit L request, and of each Unit B request. -/

namespace Sys2Proof.Machine

/-- The micro-steps of a Unit L request whose argument is legal. -/
def scriptOf (i : Instr) (p : Params) : Option (List MicroOp) :=
  match i with
  | .cfgpins => some (configurePins p)
  | .initdisp => some (bringUp p 0 p.initSeq)
  | .sendcmd b => some (sendCommand p b)
  | .wrnib n => some (writeNibble p n)
  | .wrline row text => (rowAddr row).map fun a => lineSteps p a text
  | .clear => some (sendCommand p p.cmdClear)
  | .calib => none
  | .classify _ => none
  | .rdraw => none
  | .edge => none
  | .sense5v => none

/-- `LCD_STATE` after a completed request (R136). -/
def lcdAfter (i : Instr) (l : LcdState) : LcdState :=
  match i with
  | .cfgpins => .pinsConfigured
  | .initdisp => .displayReady
  | .sendcmd _ => l
  | .wrnib _ => l
  | .wrline _ _ => l
  | .clear => l
  | .calib => l
  | .classify _ => l
  | .rdraw => l
  | .edge => l
  | .sense5v => l

/-- The end of a completed Unit L request, from the state after its last micro-step. -/
def completeL (i : Instr) (u : State) : State :=
  ({ u.idle.dropLatches with lcdState := lcdAfter i u.lcdState } : State).rsp [0x00]

/-- The outcomes of a Unit L request. -/
inductive UnitLOutcome (i : Instr) (s : State) : State → Prop where
  | misuse (st : LcdState) (hn : needsLcdState i = some st) (hs : s.lcdState ≠ st) :
      UnitLOutcome i s (s.raise .protocolMisuse i.opcode.code (s.lcdState.code.setWidth 16))
  | argument (row : Byte) (text : List Byte) (hi : i = .wrline row text) (hs : s.lcdState = .displayReady)
      (hr : rowAddr row = none) : UnitLOutcome i s (s.raise .argument i.opcode.code (row.setWidth 16))
  | ioError (ms : List MicroOp) (p : Pin) (u : State) (hm : scriptOf i s.par = some ms) (hn : needsLcdState i = some s.lcdState)
      (hp : s.pinOk p = false) (hu : runMicro ms s = .raised .io (s.phys p) u) :
      UnitLOutcome i s (u.idle.dropLatches.raise .io i.opcode.code (s.phys p))
  | completes (ms : List MicroOp) (u : State) (hm : scriptOf i s.par = some ms) (hn : needsLcdState i = some s.lcdState)
      (hu : runMicro ms s = .done u) : UnitLOutcome i s (completeL i u)

/-- Micro-steps end, or raise `IOError` at an invalid pin. -/
theorem runMicro_ends (ms : List MicroOp) (s : State) :
    (∃ u, runMicro ms s = .done u) ∨ ∃ p u, s.pinOk p = false ∧ runMicro ms s = .raised .io (s.phys p) u := by
  obtain ⟨_, _, -, -, t, -, -, -, -, ⟨-, h⟩ | ⟨_, _, p, -, -, hp, h⟩⟩ := runMicro_cases ms s
  · exact .inl ⟨t, h⟩
  · exact .inr ⟨p, t, hp, h⟩

/-- The state after micro-steps that ended. -/
theorem runMicro_done {ms : List MicroOp} {s u : State} (h : runMicro ms s = .done u) :
    SameOutsidePins s u ∧ u.trace = s.trace ++ ms.flatMap MicroOp.events ∧
      u.pinLvl = ms.foldl MicroOp.levels s.pinLvl ∧ u.pinDir = ms.foldl MicroOp.dirs s.pinDir ∧
      ∀ m ∈ ms, ∀ p, m.pin? = some p → s.pinOk p = true := by
  obtain ⟨done, rest, rfl, hok, t, hsame, htr, hlvl, hdir, ⟨rfl, h'⟩ | ⟨_, _, p, -, -, hp, h'⟩⟩ := runMicro_cases ms s
  · rw [h] at h'
    obtain rfl := Res.done.inj h'
    simp only [List.append_nil]
    exact ⟨hsame, htr, hlvl, hdir, hok⟩
  · rw [h] at h'
    cases h'

/-- The state after micro-steps that raised: a proper beginning of them has run. -/
theorem runMicro_raised {ms : List MicroOp} {s u : State} {k : FaultKind} {a : Aux} (h : runMicro ms s = .raised k a u) :
    ∃ done m tail p, ms = done ++ m :: tail ∧ m.pin? = some p ∧ s.pinOk p = false ∧ k = .io ∧ a = s.phys p ∧
      (∀ m ∈ done, ∀ p, m.pin? = some p → s.pinOk p = true) ∧
      SameOutsidePins s u ∧ u.trace = s.trace ++ done.flatMap MicroOp.events ∧
      u.pinLvl = done.foldl MicroOp.levels s.pinLvl ∧ u.pinDir = done.foldl MicroOp.dirs s.pinDir := by
  obtain ⟨done, rest, rfl, hok, t, hsame, htr, hlvl, hdir, ⟨rfl, h'⟩ | ⟨m, tail, p, rfl, hm, hp, h'⟩⟩ := runMicro_cases ms s
  · rw [h] at h'
    cases h'
  · rw [h] at h'
    obtain ⟨rfl, rfl, rfl⟩ := Res.raised.inj h'
    exact ⟨done, m, tail, p, rfl, hm, hp, rfl, rfl, hok, hsame, htr, hlvl, hdir⟩

/-- The common shape of a Unit L request after its gate. -/
theorem unitL_outcome {i : Instr} {s : State} {ms : List MicroOp} {body : State → Res}
    (hm : scriptOf i s.par = some ms) (hn : needsLcdState i = some s.lcdState)
    (hb : body s = (unitL ms s).andThen fun u => .done (({ u with lcdState := lcdAfter i u.lcdState } : State).rsp [0x00])) :
    UnitLOutcome i s (request i.opcode body s) := by
  rcases runMicro_ends ms s with ⟨u, hu⟩ | ⟨p, u, hp, hu⟩
  · rw [request_done (t := completeL i u) (by rw [hb]; simp only [unitL, hu]; rfl)]
    exact .completes ms u hm hn hu
  · rw [request_raised (t := u.idle.dropLatches) (k := .io) (a := s.phys p) (by rw [hb]; simp only [unitL, hu]; rfl)]
    exact .ioError ms p u hm hn hp hu

/-- A gate that does not admit the request. -/
theorem gate_outcome {i : Instr} {s : State} {st : LcdState} {rest : State → Res} (hn : needsLcdState i = some st)
    (hs : s.lcdState ≠ st) : UnitLOutcome i s (request i.opcode (fun s => (needLcd st s).andThen rest) s) := by
  rw [request_raised (t := s) (k := .protocolMisuse) (a := s.lcdState.code.setWidth 16) (by simp [needLcd, hs])]
  exact .misuse st hn hs

/-- Everything a Unit L request can do. -/
theorem exec_unitL {i : Instr} (hi : isUnitL i = true) (s : State) : ∃ t, exec i s = .next t ∧ UnitLOutcome i s t := by
  cases i with
  | cfgpins =>
    refine ⟨_, rfl, ?_⟩
    by_cases h : s.lcdState = .uninitialized
    · exact unitL_outcome (i := .cfgpins) rfl (by rw [h]; rfl) (by simp only [needLcd, h, if_true, Res.andThen_done]; rfl)
    · exact gate_outcome (i := .cfgpins) rfl h
  | initdisp =>
    refine ⟨_, rfl, ?_⟩
    by_cases h : s.lcdState = .pinsConfigured
    · exact unitL_outcome (i := .initdisp) rfl (by rw [h]; rfl) (by simp only [needLcd, h, if_true, Res.andThen_done]; rfl)
    · exact gate_outcome (i := .initdisp) rfl h
  | sendcmd b =>
    refine ⟨_, rfl, ?_⟩
    by_cases h : s.lcdState = .displayReady
    · exact unitL_outcome (i := .sendcmd b) rfl (by rw [h]; rfl) (by simp only [needLcd, h, if_true, Res.andThen_done]; rfl)
    · exact gate_outcome (i := .sendcmd b) rfl h
  | wrnib n =>
    refine ⟨_, rfl, ?_⟩
    by_cases h : s.lcdState = .displayReady
    · exact unitL_outcome (i := .wrnib n) rfl (by rw [h]; rfl) (by simp only [needLcd, h, if_true, Res.andThen_done]; rfl)
    · exact gate_outcome (i := .wrnib n) rfl h
  | wrline row text =>
    refine ⟨_, rfl, ?_⟩
    by_cases h : s.lcdState = .displayReady
    · cases hr : rowAddr row with
      | none =>
        rw [request_raised (t := s) (k := .argument) (a := row.setWidth 16) (by simp [needLcd, h, writeLine, hr])]
        exact .argument row text rfl h hr
      | some a =>
        exact unitL_outcome (i := .wrline row text) (ms := lineSteps s.par a text) (by simp [scriptOf, hr]) (by rw [h]; rfl)
          (by simp only [needLcd, h, if_true, Res.andThen_done, writeLine, hr]; rfl)
    · exact gate_outcome (i := .wrline row text) rfl h
  | clear =>
    refine ⟨_, rfl, ?_⟩
    by_cases h : s.lcdState = .displayReady
    · exact unitL_outcome (i := .clear) rfl (by rw [h]; rfl) (by simp only [needLcd, h, if_true, Res.andThen_done]; rfl)
    · exact gate_outcome (i := .clear) rfl h
  | calib | classify | rdraw | edge | sense5v => cases hi

/-- The outcome of a Unit L request from its answer. -/
theorem unitL_of_exec {i : Instr} (hi : isUnitL i = true) {s t : State} (h : exec i s = .next t) : UnitLOutcome i s t := by
  obtain ⟨t', h', ho⟩ := exec_unitL hi s
  rw [h] at h'
  obtain rfl := Host.Outcome.next.inj h'
  exact ho

/-- Everything `CALIB` can do (R170): an invalid channel, a failing check, or the new table. -/
theorem execCalib_cases (s : State) :
    (¬ s.chanOk .btn ∧ exec .calib s = .next (s.idle.raise .io 0x20 s.par.chBtn)) ∨
    (s.chanOk .btn ∧ ¬ s.chanOk .vsense ∧
      exec .calib s = .next ((s.drawn.emit (.adc .btn s.draw)).idle.raise .io 0x20 s.par.chVsense)) ∨
    (s.chanOk .btn ∧ s.chanOk .vsense ∧
      ((∃ a, calibTable s.par s.draw s.drawn.draw = .error a ∧
        exec .calib s = .next
          (((s.drawn.emit (.adc .btn s.draw)).drawn.emit (.adc .vsense s.drawn.draw)).idle.raise .calibration 0x20 a)) ∨
       (∃ f, calibTable s.par s.draw s.drawn.draw = .ok f ∧
        exec .calib s = .next
          (({ (s.drawn.emit (.adc .btn s.draw)).drawn.emit (.adc .vsense s.drawn.draw) with
              thr := f, clsState := .calibrated } : State).idle.rsp [0x00])))) := by
  have hd : (s.drawn.emit (.adc .btn s.draw)).draw = s.drawn.draw := by simp [State.draw]
  rcases adcRead_cases .btn s with ⟨h1, e1⟩ | ⟨h1, e1⟩
  · have hv : (s.drawn.emit (.adc .btn s.draw)).chanOk .vsense ↔ s.chanOk .vsense := by simp [State.chanOk]
    rcases adcRead_cases .vsense (s.drawn.emit (.adc .btn s.draw)) with ⟨h2, e2⟩ | ⟨h2, e2⟩
    · refine .inr (.inr ⟨h1, hv.mp h2, ?_⟩)
      have hbody : calibrate s = commitTable (calibTable s.par s.draw s.drawn.draw)
          ((s.drawn.emit (.adc .btn s.draw)).drawn.emit (.adc .vsense s.drawn.draw)) := by
        simp only [calibrate, e1, e2, Res.andThen_done, hd, State.emit_par, State.drawn_par]
      cases hc : calibTable s.par s.draw s.drawn.draw with
      | error a =>
        refine .inl ⟨a, rfl, congrArg Host.Outcome.next (request_raised ?_)⟩
        simp only [unitB, hbody, hc, commitTable, Res.map_raised, Res.andThen_raised]
      | ok f =>
        refine .inr ⟨f, rfl, congrArg Host.Outcome.next (request_done ?_)⟩
        simp only [unitB, hbody, hc, commitTable, Res.map_done, Res.andThen_done]
        rfl
    · refine .inr (.inl ⟨h1, fun h => h2 (hv.mpr h), congrArg Host.Outcome.next (request_raised ?_)⟩)
      simp only [unitB, calibrate, e1, e2, Res.andThen_done, Res.andThen_raised, Res.map_raised, State.emit_par, State.drawn_par,
        physChannel]
  · refine .inl ⟨h1, congrArg Host.Outcome.next (request_raised ?_)⟩
    simp only [unitB, calibrate, e1, Res.andThen_raised, Res.map_raised, physChannel]

/-- Everything `CLASSIFY` can do (R175, R200). -/
theorem execClassify_cases (x : Ticks) (s : State) :
    (s.clsState = .calibrated ∧ exec (.classify x) s = .next (s.rsp [0x00, pick x 0 s.thr.ticks])) ∨
    (s.clsState = .uncalibrated ∧ exec (.classify x) s = .next (s.raise .protocolMisuse 0x21 0)) := by
  cases h : s.clsState with
  | calibrated =>
    exact .inl ⟨rfl, congrArg Host.Outcome.next (request_done (by simp [needCalibrated, h, respond]))⟩
  | uncalibrated =>
    exact .inr ⟨rfl, congrArg Host.Outcome.next (request_raised (by simp [needCalibrated, h, ClsState.code]))⟩

/-- Everything `RDRAW` can do (R179). -/
theorem execRdraw_cases (s : State) :
    (s.chanOk .btn ∧ exec .rdraw s = .next
      ((s.drawn.emit (.adc .btn s.draw)).idle.rsp (0x00 :: ticksBytes (s.draw.setWidth 16)))) ∨
    (¬ s.chanOk .btn ∧ exec .rdraw s = .next (s.idle.raise .io 0x22 s.par.chBtn)) := by
  rcases adcRead_cases .btn s with ⟨h, e⟩ | ⟨h, e⟩
  · exact .inl ⟨h, congrArg Host.Outcome.next (request_done (by simp [unitB, e, respond]))⟩
  · exact .inr ⟨h, congrArg Host.Outcome.next (request_raised (by simp [unitB, e, physChannel]))⟩

/-- Everything `EDGE` can do (R181). -/
theorem execEdge_cases (s : State) :
    (s.chanOk .btn ∧ exec .edge s = .next
      (({ s.drawn.emit (.adc .btn s.draw) with prev := s.draw.setWidth 16 } : State).idle.rsp
        [0x00, if edgeBit s.par s.prev (s.draw.setWidth 16) then 1 else 0])) ∨
    (¬ s.chanOk .btn ∧ exec .edge s = .next (s.idle.raise .io 0x23 s.par.chBtn)) := by
  rcases adcRead_cases .btn s with ⟨h, e⟩ | ⟨h, e⟩
  · exact .inl ⟨h, congrArg Host.Outcome.next (request_done (by simp [unitB, e, respond]))⟩
  · exact .inr ⟨h, congrArg Host.Outcome.next (request_raised (by simp [unitB, e, physChannel]))⟩

/-- Everything `SENSE5V` can do (R183). -/
theorem execSense5v_cases (s : State) :
    (s.chanOk .vsense ∧
      ((∃ m, senseTicks s.par s.draw = .ok m ∧ exec .sense5v s = .next
        ((s.drawn.emit (.adc .vsense s.draw)).idle.rsp (0x00 :: ticksBytes m))) ∨
       (∃ a, senseTicks s.par s.draw = .error a ∧ exec .sense5v s = .next
        ((s.drawn.emit (.adc .vsense s.draw)).idle.raise .calibration 0x24 a)))) ∨
    (¬ s.chanOk .vsense ∧ exec .sense5v s = .next (s.idle.raise .io 0x24 s.par.chVsense)) := by
  rcases adcRead_cases .vsense s with ⟨h, e⟩ | ⟨h, e⟩
  · refine .inl ⟨h, ?_⟩
    cases hm : senseTicks s.par s.draw with
    | ok m => exact .inl ⟨m, rfl, congrArg Host.Outcome.next (request_done (by simp [unitB, e, hm, answerMv, respond]))⟩
    | error a => exact .inr ⟨a, rfl, congrArg Host.Outcome.next (request_raised (by simp [unitB, e, hm, answerMv]))⟩
  · exact .inr ⟨h, congrArg Host.Outcome.next (request_raised (by simp [unitB, e, physChannel]))⟩

end Sys2Proof.Machine
end

