-- ==== Sys2Proof/Laws/Calibration.lean ====
section
/-! SUPPORT. The fixed-point functions and the table of `CALIB`, once: what each can answer. -/

namespace Sys2Proof.Machine

/-- Narrowing answers the exact integer or an overflow, never a rejection (R158). -/
theorem fxNarrow_cases (n : Int) :
    (-2147483648 ≤ n ∧ n ≤ 2147483647 ∧ ∃ f, fxNarrow n = .ok f ∧ f.toInt = n) ∨
    (¬ (-2147483648 ≤ n ∧ n ≤ 2147483647) ∧ fxNarrow n = .overflow) := by
  unfold fxNarrow
  by_cases h : -2147483648 ≤ n ∧ n ≤ 2147483647
  · refine .inl ⟨h.1, h.2, _, by rw [if_pos h], ?_⟩
    rw [BitVec.toInt_ofInt]
    have h1 := h.1
    have h2 := h.2
    simp only [Int.bmod]
    split <;> omega
  · exact .inr ⟨h, by rw [if_neg h]⟩

theorem fxNarrow_of_le {n : Int} (h0 : 0 ≤ n) (h : n ≤ 2147483647) : ∃ f, fxNarrow n = .ok f ∧ f.toInt = n := by
  rcases fxNarrow_cases n with ⟨-, -, hf⟩ | ⟨hn, -⟩
  · exact hf
  · omega

theorem fxOrAux_error {α : Type} {r : FxResult α} {a : Aux} (h : fxOrAux r = .error a) :
    (a = 3 ∧ r = .rejected) ∨ (a = 4 ∧ r = .overflow) := by
  cases r <;> simp_all [fxOrAux]

/-- The value of a sense result: `m` millivolts truncated, or `aux` 4 (R167, R183). -/
theorem senseMv_cases (m : Fx) (v : Sample) :
    (∃ f g, toFx v.toNat = .ok f ∧ f.toInt = v.toNat * 10000 ∧ fxMul f m = .ok g ∧ senseMv m v.toNat = .ok (fromFx g) ∧
      g.toInt = (v.toNat * 10000 * m.toInt).tdiv 10000) ∨
    (senseMv m v.toNat = .overflow ∧
      ¬ (-2147483648 ≤ (v.toNat * 10000 * m.toInt).tdiv 10000 ∧ (v.toNat * 10000 * m.toInt).tdiv 10000 ≤ 2147483647)) := by
  have hv := v.isLt
  obtain ⟨f, hf, hfi⟩ := fxNarrow_of_le (n := v.toNat * fxScale) (by unfold fxScale; omega) (by unfold fxScale; omega)
  have hf' : toFx v.toNat = .ok f := hf
  rcases fxNarrow_cases ((f.toInt * m.toInt).tdiv fxScale) with ⟨-, -, g, hg, hgi⟩ | ⟨hn, hg⟩
  · have hg' : fxMul f m = .ok g := hg
    exact .inl ⟨f, g, hf', hfi, hg', by simp only [senseMv, hf', FxResult.bind, hg'], by rw [hgi, hfi]; rfl⟩
  · have hg' : fxMul f m = .overflow := hg
    exact .inr ⟨by simp only [senseMv, hf', FxResult.bind, hg'], by rw [hfi] at hn; exact hn⟩

/-- A threshold is the truncated product, or one of its three failures (R170). -/
theorem threshold_cases (b r : Fx) :
    (∃ t, fxMul b r = .ok t ∧ 0 ≤ fromFx t ∧ fromFx t ≤ 65535 ∧ threshold b r = .ok (BitVec.ofInt 16 (fromFx t))) ∨
    (∃ t, fxMul b r = .ok t ∧ (65535 < fromFx t ∨ fromFx t < 0) ∧ threshold b r = .error 5) ∨
    (fxMul b r = .overflow ∧ threshold b r = .error 4) := by
  rcases fxNarrow_cases ((b.toInt * r.toInt).tdiv fxScale) with ⟨-, -, t, ht, -⟩ | ⟨-, ht⟩
  · have ht' : fxMul b r = .ok t := ht
    by_cases h : fromFx t > 65535 ∨ fromFx t < 0
    · exact .inr (.inl ⟨t, ht', h, by simp only [threshold, ht', fxOrAux, if_pos h]⟩)
    · exact .inl ⟨t, ht', by omega, by omega, by simp only [threshold, ht', fxOrAux, if_neg h]⟩
  · have ht' : fxMul b r = .overflow := ht
    exact .inr (.inr ⟨ht', by simp only [threshold, ht', fxOrAux]⟩)

/-- An error of a sequence of checks is an error of the first, or of the rest. -/
theorem except_bind_error {α β : Type} {x : Except Aux α} {f : α → Except Aux β} {a : Aux} (h : (x >>= f) = .error a) :
    x = .error a ∨ ∃ y, x = .ok y ∧ f y = .error a := by
  cases x with
  | error e => exact .inl (by cases h; rfl)
  | ok y => exact .inr ⟨y, rfl, h⟩

/-- A success of a sequence of checks is a success of the first and of the rest. -/
theorem except_bind_ok {α β : Type} {x : Except Aux α} {f : α → Except Aux β} {b : β} (h : (x >>= f) = .ok b) :
    ∃ y, x = .ok y ∧ f y = .ok b := by
  cases x with
  | error e => cases h
  | ok y => exact ⟨y, rfl, h⟩

theorem refuseIf_error {c : Bool} {a e : Aux} (h : refuseIf c a = .error e) : c = true ∧ e = a := by
  cases c <;> simp_all [refuseIf]

theorem refuseIf_ok {c : Bool} {a : Aux} {u : Unit} (h : refuseIf c a = .ok u) : c = false := by
  cases c <;> simp_all [refuseIf]

/-- A sample always has a fixed-point form (R152, R168). -/
theorem toFx_sample (v : Sample) : ∃ f, toFx v.toNat = .ok f ∧ f.toInt = v.toNat * 10000 := by
  have hv := v.isLt
  obtain ⟨f, hf, hfi⟩ := fxNarrow_of_le (n := v.toNat * fxScale) (by unfold fxScale; omega) (by unfold fxScale; omega)
  exact ⟨f, hf, hfi⟩

/-- The failures of `CALIB`, each with the check it comes from (R168, R170, R191). -/
theorem calibTable_error {p : Params} {b v : Sample} {a : Aux} (h : calibTable p b v = .error a) :
    (a = 1 ∧ implausible p b = true) ∨ (a = 2 ∧ implausible p b = false ∧ implausible p v = true) ∨
    (implausible p b = false ∧ implausible p v = false ∧
      ∃ bFx vFx, toFx b.toNat = .ok bFx ∧ toFx v.toNat = .ok vFx ∧
        (fxOrAux (bvr p bFx vFx) = .error a ∨
         (∃ f, bvr p bFx vFx = .ok f ∧ ∃ r ∈ [p.ratioFx.r1, p.ratioFx.r2, p.ratioFx.r3, p.ratioFx.r4, p.ratioFx.r5],
           threshold f r = .error a) ∨
         (a = 6 ∧ p.calCheckSpacing = true ∧ ∃ f t1 t2 t3 t4 t5, bvr p bFx vFx = .ok f ∧
           threshold f p.ratioFx.r1 = .ok t1 ∧ threshold f p.ratioFx.r2 = .ok t2 ∧ threshold f p.ratioFx.r3 = .ok t3 ∧
           threshold f p.ratioFx.r4 = .ok t4 ∧ threshold f p.ratioFx.r5 = .ok t5 ∧
           (spaced (b.setWidth 16) t1 && spaced t1 t2 && spaced t2 t3 && spaced t3 t4 && spaced t4 t5) = false))) := by
  obtain ⟨bFx, hb, -⟩ := toFx_sample b
  obtain ⟨vFx, hv, -⟩ := toFx_sample v
  have fx_ok : ∀ {α : Type} {r : FxResult α} {x : α}, fxOrAux r = .ok x → r = .ok x := by
    intro α r x h
    cases r <;> simp_all [fxOrAux]
  unfold calibTable at h
  rcases except_bind_error h with h | ⟨_, h1, h⟩
  · exact .inl ⟨(refuseIf_error h).2, (refuseIf_error h).1⟩
  rcases except_bind_error h with h | ⟨_, h2, h⟩
  · exact .inr (.inl ⟨(refuseIf_error h).2, refuseIf_ok h1, (refuseIf_error h).1⟩)
  refine .inr (.inr ⟨refuseIf_ok h1, refuseIf_ok h2, bFx, vFx, hb, hv, ?_⟩)
  rw [hb, hv] at h
  rcases except_bind_error h with h | ⟨x, hx, h⟩
  · cases h
  obtain rfl := Except.ok.inj hx
  rcases except_bind_error h with h | ⟨y, hy, h⟩
  · cases h
  obtain rfl := Except.ok.inj hy
  rcases except_bind_error h with h | ⟨f, hf, h⟩
  · exact .inl h
  rcases except_bind_error h with h | ⟨t1, ht1, h⟩
  · exact .inr (.inl ⟨f, fx_ok hf, _, by simp, h⟩)
  rcases except_bind_error h with h | ⟨t2, ht2, h⟩
  · exact .inr (.inl ⟨f, fx_ok hf, _, by simp, h⟩)
  rcases except_bind_error h with h | ⟨t3, ht3, h⟩
  · exact .inr (.inl ⟨f, fx_ok hf, _, by simp, h⟩)
  rcases except_bind_error h with h | ⟨t4, ht4, h⟩
  · exact .inr (.inl ⟨f, fx_ok hf, _, by simp, h⟩)
  rcases except_bind_error h with h | ⟨t5, ht5, h⟩
  · exact .inr (.inl ⟨f, fx_ok hf, _, by simp, h⟩)
  rcases except_bind_error h with h | ⟨_, -, h⟩
  · obtain ⟨hc, ha⟩ := refuseIf_error h
    rw [Bool.and_eq_true, Bool.not_eq_true'] at hc
    exact .inr (.inr ⟨ha, hc.1, f, t1, t2, t3, t4, t5, fx_ok hf, ht1, ht2, ht3, ht4, ht5, hc.2⟩)
  cases h

/-- The table of a `CALIB` that passed its checks (R170): entry 0 is the raw baseline, the others come from `threshold`. -/
theorem calibTable_ok {p : Params} {b v : Sample} {t : ThrFile} (h : calibTable p b v = .ok t) :
    implausible p b = false ∧ implausible p v = false ∧ t.e0 = .ofTicks (b.setWidth 16) ∧
    ∃ bFx vFx f t1 t2 t3 t4 t5, toFx b.toNat = .ok bFx ∧ toFx v.toNat = .ok vFx ∧ bvr p bFx vFx = .ok f ∧
      threshold f p.ratioFx.r1 = .ok t1 ∧ threshold f p.ratioFx.r2 = .ok t2 ∧ threshold f p.ratioFx.r3 = .ok t3 ∧
      threshold f p.ratioFx.r4 = .ok t4 ∧ threshold f p.ratioFx.r5 = .ok t5 ∧
      t = ⟨.ofTicks (b.setWidth 16), .ofTicks t1, .ofTicks t2, .ofTicks t3, .ofTicks t4, .ofTicks t5⟩ := by
  have fx_ok : ∀ {α : Type} {r : FxResult α} {x : α}, fxOrAux r = .ok x → r = .ok x := by
    intro α r x h
    cases r <;> simp_all [fxOrAux]
  unfold calibTable at h
  obtain ⟨_, h1, h⟩ := except_bind_ok h
  obtain ⟨_, h2, h⟩ := except_bind_ok h
  obtain ⟨bFx, hb, h⟩ := except_bind_ok h
  obtain ⟨vFx, hv, h⟩ := except_bind_ok h
  obtain ⟨f, hf, h⟩ := except_bind_ok h
  obtain ⟨t1, ht1, h⟩ := except_bind_ok h
  obtain ⟨t2, ht2, h⟩ := except_bind_ok h
  obtain ⟨t3, ht3, h⟩ := except_bind_ok h
  obtain ⟨t4, ht4, h⟩ := except_bind_ok h
  obtain ⟨t5, ht5, h⟩ := except_bind_ok h
  obtain ⟨_, -, h⟩ := except_bind_ok h
  obtain rfl := Except.ok.inj h
  exact ⟨refuseIf_ok h1, refuseIf_ok h2, rfl, bFx, vFx, f, t1, t2, t3, t4, t5, fx_ok hb, fx_ok hv, fx_ok hf, ht1, ht2, ht3, ht4,
    ht5, rfl⟩

/-- A division truncated toward zero, on magnitudes and signs (R8 `div`, R157). -/
theorem tdiv_magnitudes (x y : Int) (hy : y ≠ 0) : x.tdiv y =
    if (x < 0) = (y < 0) then ((x.natAbs / y.natAbs : Nat) : Int) else -((x.natAbs / y.natAbs : Nat) : Int) := by
  rcases x with x | x <;> rcases y with y | y
  · have h1 : ¬ (Int.ofNat x < 0) := by simp
    have h2 : ¬ (Int.ofNat y < 0) := by simp
    simp only [h1, h2, if_true]
    rfl
  · have h1 : ¬ (Int.ofNat x < 0) := by simp
    have h2 : Int.negSucc y < 0 := Int.negSucc_lt_zero y
    simp only [h1, h2, eq_iff_iff, iff_true, if_false]
    rfl
  · have h1 : ¬ (Int.ofNat y < 0) := by simp
    have h2 : Int.negSucc x < 0 := Int.negSucc_lt_zero x
    simp only [h1, h2, eq_iff_iff, iff_false, not_true, if_false]
    rfl
  · have h1 : Int.negSucc y < 0 := Int.negSucc_lt_zero y
    have h2 : Int.negSucc x < 0 := Int.negSucc_lt_zero x
    simp only [h1, h2, if_true]
    rfl

/-- The spec's `bvr` of two samples is an exact integer, narrowed (R169): the divisor is never rejected. -/
theorem bvr_rescaled_eq {p : Params} (hp : p.Ok) (hr : p.bvr = .rescaled) {bFx vFx : Fx} {b v : Nat}
    (hb : bFx.toInt = (b : Int) * 10000) (hv : vFx.toInt = (v : Int) * 10000) (hv1 : v ≤ 1023) :
    bvr p bFx vFx = fxNarrow ((b * (v * 10000 / p.vNomTicks) : Nat) : Int) := by
  have hn1 := hp.calMin_pos
  have hn2 := hp.vNom_min
  have hn3 := hp.vNom_max
  have hd := hp.divMin_max
  obtain ⟨nom, hnom, hni⟩ := fxNarrow_of_le (n := (p.vNomTicks : Int) * fxScale) (by unfold fxScale; omega) (by unfold fxScale; omega)
  have hnom' : toFx p.vNomTicks = .ok nom := hnom
  have hdiv : (vFx.toInt * fxScale).tdiv nom.toInt = ((v * 10000 / p.vNomTicks : Nat) : Int) := by
    rw [hv, hni, Int.tdiv_eq_ediv_of_nonneg (by unfold fxScale; omega), Int.mul_ediv_mul_of_pos_left _ _ (by decide)]
    rfl
  have hq0 : v * 10000 / p.vNomTicks ≤ v * 10000 := Nat.div_le_self _ _
  obtain ⟨g, hg, hgi⟩ := fxNarrow_of_le (n := ((v * 10000 / p.vNomTicks : Nat) : Int)) (Int.natCast_nonneg _) (by omega)
  have hg' : fxDiv p.fxDivMin vFx nom = .ok g := by
    have : ¬ nom.toInt.natAbs < p.fxDivMin := by rw [hni]; unfold fxScale; omega
    simp only [fxDiv, if_neg this, hdiv, hg]
  have hmul : (bFx.toInt * g.toInt).tdiv fxScale = ((b * (v * 10000 / p.vNomTicks) : Nat) : Int) := by
    rw [hb, hgi, show (b : Int) * 10000 * ((v * 10000 / p.vNomTicks : Nat) : Int) =
      ((b * (v * 10000 / p.vNomTicks) : Nat) : Int) * 10000 by push_cast; ring]
    exact Int.mul_tdiv_cancel _ (by decide)
  simp only [bvr, hr, hnom', FxResult.bind, hg', fxMul, hmul]

/-- It is that integer while it fits 32 bits. -/
theorem bvr_rescaled {p : Params} (hp : p.Ok) (hr : p.bvr = .rescaled) {bFx vFx : Fx} {b v : Nat}
    (hb : bFx.toInt = (b : Int) * 10000) (hv : vFx.toInt = (v : Int) * 10000) (hv1 : v ≤ 1023)
    (hq : b * (v * 10000 / p.vNomTicks) ≤ 2147483647) :
    ∃ f, bvr p bFx vFx = .ok f ∧ f.toInt = ((b * (v * 10000 / p.vNomTicks) : Nat) : Int) := by
  rw [bvr_rescaled_eq hp hr hb hv hv1]
  exact fxNarrow_of_le (Int.natCast_nonneg _) (by omega)

/-- It overflows when it does not (R158). -/
theorem bvr_rescaled_overflow {p : Params} (hp : p.Ok) (hr : p.bvr = .rescaled) {bFx vFx : Fx} {b v : Nat}
    (hb : bFx.toInt = (b : Int) * 10000) (hv : vFx.toInt = (v : Int) * 10000) (hv1 : v ≤ 1023)
    (hq : 2147483647 < b * (v * 10000 / p.vNomTicks)) : bvr p bFx vFx = .overflow := by
  rw [bvr_rescaled_eq hp hr hb hv hv1]
  rcases fxNarrow_cases ((b * (v * 10000 / p.vNomTicks) : Nat) : Int) with ⟨-, h, -⟩ | ⟨-, h⟩
  · omega
  · exact h

/-- A threshold from a ratio below 1 (R170): the product truncated twice, or `aux` 5 outside 16 bits; never an overflow. -/
theorem threshold_tick (f r : Fx) (h0 : 0 ≤ r.toInt) (h1 : r.toInt < 10000) {k : Int}
    (hk : k = ((f.toInt * r.toInt).tdiv 10000).tdiv 10000) :
    threshold f r = if k < 0 ∨ 65535 < k then .error 5 else .ok (BitVec.ofInt 16 k) := by
  have hf1 := BitVec.toInt_lt (x := f)
  have hf2 := BitVec.le_toInt (x := f)
  have hb : (f.toInt * r.toInt).natAbs ≤ f.toInt.natAbs * 9999 := by
    rw [Int.natAbs_mul]
    exact Nat.mul_le_mul_left _ (by omega)
  have ht := tdiv_magnitudes (f.toInt * r.toInt) 10000 (by decide)
  rcases fxNarrow_cases ((f.toInt * r.toInt).tdiv fxScale) with ⟨-, -, g, hg, hgi⟩ | ⟨hn, -⟩
  · have hfrom : fromFx g = k := by rw [fromFx, hgi, hk, fxScale]
    simp only [threshold, fxMul, hg, fxOrAux, hfrom, gt_iff_lt, or_comm]
  · exfalso
    rw [fxScale, ht, show (10000 : Int).natAbs = 10000 from rfl] at hn
    split at hn <;> omega

/-- A threshold from a nonnegative `bvr` and a ratio below 1 (R170), on natural numbers. -/
theorem threshold_ratio {f r : Fx} {n : Nat} (hf : f.toInt = (n : Int)) (h0 : 0 ≤ r.toInt) (h1 : r.toInt < 10000) :
    (n * r.toInt.toNat / 10000 / 10000 ≤ 65535 ∧ ∃ t, threshold f r = .ok t ∧ t.toNat = n * r.toInt.toNat / 10000 / 10000) ∨
    (65535 < n * r.toInt.toNat / 10000 / 10000 ∧ threshold f r = .error 5) := by
  have hk : ((n * r.toInt.toNat / 10000 / 10000 : Nat) : Int) = ((f.toInt * r.toInt).tdiv 10000).tdiv 10000 := by
    have hx : 0 ≤ (n : Int) * r.toInt := Int.mul_nonneg (Int.natCast_nonneg n) h0
    rw [hf, Int.tdiv_eq_ediv_of_nonneg hx, Int.tdiv_eq_ediv_of_nonneg (Int.ediv_nonneg hx (by decide))]
    push_cast
    rw [Int.toNat_of_nonneg h0]
  rw [threshold_tick f r h0 h1 hk]
  by_cases h : 65535 < n * r.toInt.toNat / 10000 / 10000
  · exact .inr ⟨h, if_pos (.inr (by omega))⟩
  · refine .inl ⟨by omega, _, if_neg (by omega), ?_⟩
    simp only [BitVec.ofInt_natCast, BitVec.toNat_ofNat]
    omega

/-- The ratios lie in `[0, 10000)` and the first is the largest (R9). -/
theorem ratios_bounds {p : Params} (hp : p.Ok) :
    ∀ r ∈ [p.ratioFx.r1, p.ratioFx.r2, p.ratioFx.r3, p.ratioFx.r4, p.ratioFx.r5],
      0 ≤ r.toInt ∧ r.toInt < 10000 ∧ r.toInt ≤ p.ratioFx.r1.toInt := by
  obtain ⟨a, b, c, d⟩ := hp.ratio_decreasing
  have := hp.ratio_last
  have := hp.ratio_first
  simp only [List.mem_cons, List.not_mem_nil, or_false, forall_eq_or_imp, forall_eq]
  omega

/-- A check that does not fail leaves the rest. -/
theorem refuseIf_bind {α : Type} (c : Bool) (a : Aux) (f : Unit → Except Aux α) :
    (refuseIf c a >>= f) = if c then .error a else f () := by
  cases c <;> rfl

/-- A sample is a 16-bit number of the same value. -/
theorem sample_ticks (b : Sample) : (b.setWidth 16 : Ticks).toNat = b.toNat := by
  have := b.isLt
  simp only [BitVec.toNat_setWidth]
  omega

/-- The spacing of two thresholds, as the inequality of rule R173. -/
theorem spaced_iff (a b : Ticks) : spaced a b = true ↔ b.toNat + 10 < a.toNat := by
  unfold spaced tolerance
  rw [decide_eq_true_eq]
  omega

/-- A tick value in range is kept by its 16 bits. -/
theorem ticks_ofInt {k : Int} (h0 : 0 ≤ k) (h1 : k ≤ 65535) : ((BitVec.ofInt 16 k : Ticks).toNat : Int) = k := by
  rw [BitVec.toNat_ofInt]
  omega

/-- What the table is after the plausibility check when `bvr` gives no value (R158, R169). -/
theorem calibTable_of_no_bvr {p : Params} {b v : Sample} {bFx vFx : Fx} {a : Aux} (hb : implausible p b = false)
    (hv : implausible p v = false) (hbF : toFx b.toNat = .ok bFx) (hvF : toFx v.toNat = .ok vFx)
    (h : fxOrAux (bvr p bFx vFx) = .error a) : calibTable p b v = .error a := by
  simp only [calibTable, refuseIf_bind, hb, hv, Bool.false_eq_true, if_false, hbF, hvF]
  change (fxOrAux (bvr p bFx vFx) >>= _) = _
  rw [h]
  rfl

/-- What the table is after `bvr` gave the value `f`, with `tick r` the exact threshold of ratio `r` (R170, R173): a threshold
outside 16 bits, then the spacing check, else the six entries. -/
theorem calibTable_of_bvr {p : Params} (hp : p.Ok) {b v : Sample} {bFx vFx f : Fx} (hb : implausible p b = false)
    (hv : implausible p v = false) (hbF : toFx b.toNat = .ok bFx) (hvF : toFx v.toNat = .ok vFx) (hf : bvr p bFx vFx = .ok f)
    {tick : Fx → Int} (ht : ∀ r, tick r = ((f.toInt * r.toInt).tdiv 10000).tdiv 10000) :
    calibTable p b v =
      if ∃ r ∈ [p.ratioFx.r1, p.ratioFx.r2, p.ratioFx.r3, p.ratioFx.r4, p.ratioFx.r5], tick r < 0 ∨ 65535 < tick r then .error 5
      else if p.calCheckSpacing = true ∧ ¬ (tick p.ratioFx.r1 + 10 < b.toNat ∧ tick p.ratioFx.r2 + 10 < tick p.ratioFx.r1 ∧
        tick p.ratioFx.r3 + 10 < tick p.ratioFx.r2 ∧ tick p.ratioFx.r4 + 10 < tick p.ratioFx.r3 ∧
        tick p.ratioFx.r5 + 10 < tick p.ratioFx.r4) then .error 6
      else .ok ⟨.ofTicks (b.setWidth 16), .ofTicks (.ofInt 16 (tick p.ratioFx.r1)), .ofTicks (.ofInt 16 (tick p.ratioFx.r2)),
        .ofTicks (.ofInt 16 (tick p.ratioFx.r3)), .ofTicks (.ofInt 16 (tick p.ratioFx.r4)),
        .ofTicks (.ofInt 16 (tick p.ratioFx.r5))⟩ := by
  have hth := fun r hr => threshold_tick f r (ratios_bounds hp r hr).1 (ratios_bounds hp r hr).2.1 (ht r)
  simp only [List.mem_cons, List.not_mem_nil, or_false, forall_eq_or_imp, forall_eq] at hth
  obtain ⟨h1, h2, h3, h4, h5⟩ := hth
  simp only [calibTable, refuseIf_bind, hb, hv, Bool.false_eq_true, if_false, hbF, hvF]
  change (fxOrAux (bvr p bFx vFx) >>= _) = _
  rw [hf]
  change (threshold f p.ratioFx.r1 >>= _) = _
  simp only [h1, h2, h3, h4, h5]
  by_cases hout : ∃ r ∈ [p.ratioFx.r1, p.ratioFx.r2, p.ratioFx.r3, p.ratioFx.r4, p.ratioFx.r5], tick r < 0 ∨ 65535 < tick r
  · rw [if_pos hout]
    simp only [List.mem_cons, List.not_mem_nil, or_false, exists_eq_or_imp, exists_eq_left] at hout
    by_cases k1 : tick p.ratioFx.r1 < 0 ∨ 65535 < tick p.ratioFx.r1
    · rw [if_pos k1]; rfl
    rw [if_neg k1]
    by_cases k2 : tick p.ratioFx.r2 < 0 ∨ 65535 < tick p.ratioFx.r2
    · rw [if_pos k2]; rfl
    rw [if_neg k2]
    by_cases k3 : tick p.ratioFx.r3 < 0 ∨ 65535 < tick p.ratioFx.r3
    · rw [if_pos k3]; rfl
    rw [if_neg k3]
    by_cases k4 : tick p.ratioFx.r4 < 0 ∨ 65535 < tick p.ratioFx.r4
    · rw [if_pos k4]; rfl
    rw [if_neg k4, if_pos (by tauto)]
    rfl
  · rw [if_neg hout]
    simp only [List.mem_cons, List.not_mem_nil, or_false, exists_eq_or_imp, exists_eq_left, not_or] at hout
    rw [if_neg (by omega), if_neg (by omega), if_neg (by omega), if_neg (by omega), if_neg (by omega)]
    have e1 := ticks_ofInt (k := tick p.ratioFx.r1) (by omega) (by omega)
    have e2 := ticks_ofInt (k := tick p.ratioFx.r2) (by omega) (by omega)
    have e3 := ticks_ofInt (k := tick p.ratioFx.r3) (by omega) (by omega)
    have e4 := ticks_ofInt (k := tick p.ratioFx.r4) (by omega) (by omega)
    have e5 := ticks_ofInt (k := tick p.ratioFx.r5) (by omega) (by omega)
    have hb16 := sample_ticks b
    change (if _ then _ else Except.ok _) = _
    refine if_congr ?_ rfl rfl
    rw [Bool.and_eq_true, Bool.not_eq_true', ← Bool.not_eq_true]
    refine and_congr_right fun _ => not_congr ?_
    simp only [Bool.and_eq_true, spaced_iff]
    omega

/-- Everything `CALIB` can do once both channels are valid, from the table its samples give (R170, R171). -/
theorem execCalib_of_table {s : State} {b v : Sample} (c1 : s.chanOk .btn) (c2 : s.chanOk .vsense) (hb : s.draw = b)
    (hv : s.drawn.draw = v) :
    ∃ t, exec .calib s = .next t ∧
      match calibTable s.par b v with
      | .error a => t.known = (s.calibFaulted b v a).known
      | .ok f => t.known = (s.calibStored b v f).known := by
  subst hb hv
  rcases execCalib_cases s with ⟨h, -⟩ | ⟨-, h, -⟩ | ⟨-, -, ⟨a, ha, e⟩ | ⟨f, hf, e⟩⟩
  · exact absurd c1 h
  · exact absurd c2 h
  · rw [ha]
    exact ⟨_, e, by simp [State.known, State.calibFaulted, FaultKind.code, FaultKind.status, ← List.drop_one, List.drop_drop]⟩
  · rw [hf]
    exact ⟨_, e, by simp [State.known, State.calibStored, ← List.drop_one, List.drop_drop]⟩

/-- The failures of `SENSE5V` (R183, R191). -/
theorem senseTicks_error {p : Params} {v : Sample} {a : Aux} (h : senseTicks p v = .error a) : a = 4 := by
  unfold senseTicks at h
  rcases senseMv_cases p.mvPerTickFx v with ⟨_, g, -, -, -, hm, -⟩ | ⟨hm, -⟩
  · rw [hm] at h
    simp only [fxOrAux] at h
    split at h
    · exact (Except.error.inj h).symm
    · cases h
  · rw [hm] at h
    exact (Except.error.inj h).symm

end Sys2Proof.Machine
end

