-- ==== Sys2Proof/Laws/Memory.lean ====
section
/-! SUPPORT. The laws of the request space: its operations keep the canonical form, a store is read back, every other
address is left alone. -/

namespace Sys2Proof.Machine

theorem Memory.block_bounds {a : Nat} {bytes : List Byte} {c : Host.Cell} (h : c ∈ Memory.block a bytes) :
    a ≤ c.1 ∧ c.1 < a + bytes.length := by
  induction bytes generalizing a with
  | nil => simp [Memory.block] at h
  | cons b rest ih =>
    simp only [Memory.block, List.mem_cons] at h
    rcases h with rfl | h
    · simp
    · have := ih h
      simp only [List.length_cons]
      omega

theorem Memory.block_wf (a : Nat) (bytes : List Byte) : (Memory.block a bytes).wf := by
  induction bytes generalizing a with
  | nil => simp [Memory.block]
  | cons b rest ih =>
    refine List.pairwise_cons.mpr ⟨fun c hc => ?_, ih _⟩
    have := Memory.block_bounds hc
    simp only
    omega

/-- Placing bytes keeps the canonical form. -/
theorem Memory.store_wf {m : Memory} (h : m.wf) (a : Nat) (bytes : List Byte) : (m.store a bytes).wf := by
  unfold Memory.store Memory.wf
  rw [List.append_assoc, List.pairwise_append, List.pairwise_append]
  refine ⟨h.filter _, ⟨Memory.block_wf a bytes, h.filter _, fun x hx y hy => ?_⟩, fun x hx y hy => ?_⟩
  · have := Memory.block_bounds hx
    simp only [List.mem_filter, decide_eq_true_eq] at hy
    omega
  · simp only [List.mem_filter, decide_eq_true_eq] at hx
    rcases List.mem_append.mp hy with hy | hy
    · have := Memory.block_bounds hy
      omega
    · simp only [List.mem_filter, decide_eq_true_eq] at hy
      omega

/-- Counting offsets anew keeps the canonical form. -/
theorem Memory.rebase_wf {m : Memory} (h : m.wf) (r : Nat) : (m.rebase r).wf := by
  unfold Memory.rebase Memory.wf
  rw [List.pairwise_filterMap]
  refine List.Pairwise.imp ?_ h
  intro x y hxy x' hx y' hy
  by_cases h1 : r ≤ x.1 <;> by_cases h2 : r ≤ y.1 <;> simp [h1, h2] at hx hy
  subst hx
  subst hy
  simp only
  omega

theorem Memory.read_append (m m' : Memory) (a : Nat) : Memory.read (m ++ m') a = (m.read a).or (m'.read a) := by
  induction m with
  | nil => simp [Memory.read, Memory.unlisted]
  | cons c rest ih =>
    obtain ⟨k, b⟩ := c
    simp only [List.cons_append, Memory.read]
    split
    · simp
    · exact ih

theorem Memory.read_filter (m : Memory) (p : Nat → Bool) (a : Nat) :
    Memory.read (m.filter (fun c => p c.1)) a = if p a then m.read a else none := by
  induction m with
  | nil => simp [Memory.read, Memory.unlisted]
  | cons c rest ih =>
    obtain ⟨k, b⟩ := c
    by_cases hk : p k = true
    · rw [List.filter_cons_of_pos (by simpa using hk)]
      simp only [Memory.read]
      by_cases hka : k = a
      · subst hka
        simp [hk]
      · simp only [hka, if_false]
        exact ih
    · rw [List.filter_cons_of_neg (by simpa using hk)]
      rw [ih]
      by_cases hka : k = a
      · subst hka
        simp [hk]
      · simp [Memory.read, hka]

theorem Memory.read_block (a : Nat) (bytes : List Byte) (x : Nat) :
    (Memory.block a bytes).read x = if a ≤ x then bytes[x - a]? else none := by
  induction bytes generalizing a with
  | nil => simp [Memory.block, Memory.read, Memory.unlisted]
  | cons b rest ih =>
    simp only [Memory.block, Memory.read]
    by_cases hax : a = x
    · subst hax
      simp
    · rw [if_neg hax, ih]
      by_cases h : a + 1 ≤ x
      · have h2 : a ≤ x := by omega
        have h3 : x - a = (x - (a + 1)) + 1 := by omega
        rw [if_pos h, if_pos h2, h3, List.getElem?_cons_succ]
      · have h2 : ¬ a ≤ x := by omega
        rw [if_neg h, if_neg h2]

/-- What a store can do to a read: inside the block the byte stored, elsewhere what was there. -/
theorem Memory.read_store (m : Memory) (a : Nat) (bytes : List Byte) (x : Nat) :
    (m.store a bytes).read x = if a ≤ x ∧ x < a + bytes.length then bytes[x - a]? else m.read x := by
  unfold Memory.store
  rw [Memory.read_append, Memory.read_append, Memory.read_filter m (fun k => decide (k < a)),
    Memory.read_filter m (fun k => decide (a + bytes.length ≤ k)), Memory.read_block]
  by_cases h1 : x < a
  · have h2 : ¬ a ≤ x := by omega
    have h3 : ¬ a + bytes.length ≤ x := by omega
    simp [h1, h2, h3]
  · have h2 : a ≤ x := by omega
    by_cases h3 : x < a + bytes.length
    · have h4 : ¬ a + bytes.length ≤ x := by omega
      simp [h1, h2, h3, h4]
    · have h4 : a + bytes.length ≤ x := by omega
      have h5 : bytes.length ≤ x - a := by omega
      simp [h1, h2, h3, h4, List.getElem?_eq_none h5]

/-- A fetch begins with the byte at its address. -/
theorem Memory.fetch_cons {m : Memory} {a n : Nat} {b : Byte} (h : m.read a = some b) (hn : 0 < n) :
    m.fetch a n = b :: m.fetch (a + 1) (n - 1) := by
  cases n with
  | zero => omega
  | succ k => simp [Memory.fetch, h]

/-- Where the bytes of `bytes` stand from `a` on, a fetch of at least that many begins with them. -/
theorem Memory.fetch_prefix (m : Memory) (bytes : List Byte) (a n : Nat) (hn : bytes.length ≤ n)
    (h : ∀ k, k < bytes.length → m.read (a + k) = bytes[k]?) : ∃ rest, m.fetch a n = bytes ++ rest := by
  induction bytes generalizing a n with
  | nil => exact ⟨m.fetch a n, rfl⟩
  | cons b tail ih =>
    cases n with
    | zero => simp at hn
    | succ k =>
      have h0 : m.read a = some b := by simpa using h 0 (by simp)
      obtain ⟨rest, hr⟩ := ih (a + 1) k (by simpa using hn) (fun j hj => by
        have := h (j + 1) (by simpa using hj)
        rw [show a + 1 + j = a + (j + 1) by omega, this, List.getElem?_cons_succ])
      exact ⟨rest, by simp [Memory.fetch, h0, hr]⟩

/-- Right after a store, a fetch at the same address begins with the stored bytes. -/
theorem Memory.fetch_store (m : Memory) (a n : Nat) (bytes : List Byte) (hn : bytes.length ≤ n) :
    ∃ rest, (m.store a bytes).fetch a n = bytes ++ rest :=
  Memory.fetch_prefix _ _ _ _ hn fun k hk => by
    rw [Memory.read_store, if_pos (by omega), Nat.add_sub_cancel_left]

end Sys2Proof.Machine
end

