-- ==== Sys2Proof/Laws/Scripts.lean ====
section
/-! SUPPORT. The micro-step lists of Unit L, once: the events each emits and what it does to the pins. -/

namespace Sys2Proof.Machine

/-- The last nibble stays. -/
theorem PinBits.withNibble_withNibble (f : PinBits) (n m : Nibble) : (f.withNibble n).withNibble m = f.withNibble m := rfl


/-- The levels after a nibble (R111). -/
theorem writeNibble_levels (p : Params) (n : Nibble) (f : PinBits) :
    (writeNibble p n).foldl MicroOp.levels f = f.withNibble n := by
  simp [writeNibble, MicroOp.levels, PerPin.set, PinBits.withNibble, lineLevel]

/-- A nibble moves no direction. -/
theorem writeNibble_dirs (p : Params) (n : Nibble) (f : PinBits) : (writeNibble p n).foldl MicroOp.dirs f = f := by
  simp [writeNibble, MicroOp.dirs]

/-- The events of a nibble (R111). -/
theorem writeNibble_events (p : Params) (n : Nibble) : (writeNibble p n).flatMap MicroOp.events = nibbleEvents p n := by
  simp [writeNibble, MicroOp.events, nibbleEvents, lineLevel]

/-- The pin levels after `writeByte`. -/
theorem writeByte_levels (p : Params) (b : Byte) (f : PinBits) :
    (writeByte p b).foldl MicroOp.levels f = f.withNibble (b.extractLsb' 0 4) := by
  simp only [writeByte, List.foldl_append, writeNibble_levels]; rfl

/-- `writeByte` moves no direction. -/
theorem writeByte_dirs (p : Params) (b : Byte) (f : PinBits) : (writeByte p b).foldl MicroOp.dirs f = f := by
  simp only [writeByte, List.foldl_append, writeNibble_dirs]

/-- The events of `writeByte`. -/
theorem writeByte_events (p : Params) (b : Byte) : (writeByte p b).flatMap MicroOp.events = byteEvents p b := by
  simp only [writeByte, List.flatMap_append, writeNibble_events]; rfl

/-- The pin levels after `settle`. -/
theorem settle_levels (p : Params) (b : Byte) (f : PinBits) : (settle p b).foldl MicroOp.levels f = f := by
  unfold settle; split <;> rfl

/-- `settle` moves no direction. -/
theorem settle_dirs (p : Params) (b : Byte) (f : PinBits) : (settle p b).foldl MicroOp.dirs f = f := by
  unfold settle; split <;> rfl

/-- The events of `settle`. -/
theorem settle_events (p : Params) (b : Byte) :
    (settle p b).flatMap MicroOp.events = (if b ∈ p.longCmds then [.hold .en p.tClearSettleUs] else []) := by
  unfold settle; simp only [List.contains_iff_mem]; split <;> rfl

/-- The pin levels after `sendCommand`. -/
theorem sendCommand_levels (p : Params) (b : Byte) (f : PinBits) :
    (sendCommand p b).foldl MicroOp.levels f = { (f.withNibble (b.extractLsb' 0 4)) with rs := false } := by
  simp only [sendCommand, List.foldl_append, writeByte_levels, settle_levels]; rfl

/-- `sendCommand` moves no direction. -/
theorem sendCommand_dirs (p : Params) (b : Byte) (f : PinBits) : (sendCommand p b).foldl MicroOp.dirs f = f := by
  simp only [sendCommand, List.foldl_append, writeByte_dirs, settle_dirs]; rfl

/-- The events of `sendCommand`. -/
theorem sendCommand_events (p : Params) (b : Byte) : (sendCommand p b).flatMap MicroOp.events = commandEvents p b := by
  simp only [sendCommand, List.flatMap_append, writeByte_events, settle_events]; rfl

/-- `bringUp` moves no direction. -/
theorem bringUp_dirs (p : Params) (bs : List Byte) : ∀ i (f : PinBits), (bringUp p i bs).foldl MicroOp.dirs f = f := by
  induction bs with
  | nil => intro i f; rfl
  | cons b bs ih =>
    intro i f
    simp only [bringUp, List.cons_append, List.foldl_cons, List.foldl_append, sendCommand_dirs, ih]
    rfl

/-- The events of `bringUp`. -/
theorem bringUp_events (p : Params) (bs : List Byte) :
    ∀ i, (bringUp p i bs).flatMap MicroOp.events = bs.flatMap (commandEvents p) := by
  induction bs with
  | nil => intro i; rfl
  | cons b bs ih =>
    intro i
    simp only [bringUp, List.cons_append, List.flatMap_cons, List.flatMap_append, sendCommand_events, ih]
    rfl

/-- The pin levels after `bringUp`. -/
theorem bringUp_levels (p : Params) (bs : List Byte) :
    ∀ i (f : PinBits) (b : Byte), (bringUp p i (bs ++ [b])).foldl MicroOp.levels f =
    { (f.withNibble (b.extractLsb' 0 4)) with rs := false } := by
  induction bs with
  | nil => intro i f b; simp only [bringUp, List.nil_append, List.foldl_cons, List.foldl_append, List.foldl_nil,
      sendCommand_levels]; rfl
  | cons c bs ih =>
    intro i f b
    simp only [bringUp, List.cons_append, List.foldl_cons, List.foldl_append, sendCommand_levels, ih]
    rfl

/-- The pin levels after `charGap`. -/
theorem charGap_levels (p : Params) (f : PinBits) : (charGap p).foldl MicroOp.levels f = f := by unfold charGap; split <;> rfl

/-- `charGap` moves no direction. -/
theorem charGap_dirs (p : Params) (f : PinBits) : (charGap p).foldl MicroOp.dirs f = f := by unfold charGap; split <;> rfl

/-- The events of `charGap`. -/
theorem charGap_events (p : Params) :
    (charGap p).flatMap MicroOp.events = (if p.tCharGapUs = 0 then [] else [.hold .en p.tCharGapUs]) := by
  unfold charGap
  by_cases h : p.tCharGapUs = 0
  · simp [h]
  · rw [if_pos (by omega), if_neg h]; rfl

/-- `streamText` moves no direction. -/
theorem streamText_dirs (p : Params) (bs : List Byte) : ∀ i (f : PinBits), (streamText p i bs).foldl MicroOp.dirs f = f := by
  induction bs with
  | nil => intro i f; rfl
  | cons b bs ih =>
    intro i f
    simp only [streamText, List.cons_append, List.foldl_cons, List.foldl_append, writeByte_dirs, charGap_dirs, ih,
      List.nil_append]
    rfl

/-- The events of `streamText`. -/
theorem streamText_events (p : Params) (bs : List Byte) :
    ∀ i, (streamText p i bs).flatMap MicroOp.events = bs.flatMap (charEvents p) := by
  induction bs with
  | nil => intro i; rfl
  | cons b bs ih =>
    intro i
    simp only [streamText, List.cons_append, List.flatMap_cons, List.flatMap_append, writeByte_events, charGap_events,
      ih, List.nil_append, MicroOp.events, charEvents]

/-- The pin levels after `streamText`. -/
theorem streamText_levels (p : Params) (bs : List Byte) :
    ∀ i (f : PinBits) (n : Byte), (streamText p i bs).foldl MicroOp.levels (f.withNibble (n.extractLsb' 0 4)) =
    f.withNibble ((bs.getLast?.getD n).extractLsb' 0 4) := by
  induction bs with
  | nil => intro i f n; rfl
  | cons b bs ih =>
    intro i f n
    simp only [streamText, List.cons_append, List.foldl_cons, List.foldl_append, writeByte_levels, charGap_levels,
      List.nil_append, MicroOp.levels]
    rw [PinBits.withNibble_withNibble, ih]
    cases bs with
    | nil => rfl
    | cons c bs => simp [List.getLast?_cons]

/-- `lineSteps` moves no direction. -/
theorem lineSteps_dirs (p : Params) (a : Byte) (t : List Byte) (f : PinBits) : (lineSteps p a t).foldl MicroOp.dirs f = f := by
  simp only [lineSteps, List.foldl_append, sendCommand_dirs, streamText_dirs]; rfl

/-- The events of `lineSteps`. -/
theorem lineSteps_events (p : Params) (a : Byte) (t : List Byte) :
    (lineSteps p a t).flatMap MicroOp.events = lineEvents p a t := by
  simp only [lineSteps, List.flatMap_append, sendCommand_events, streamText_events]; rfl

/-- The pin levels after `lineSteps`. -/
theorem lineSteps_levels (p : Params) (a : Byte) (t : List Byte) (f : PinBits) : (lineSteps p a t).foldl MicroOp.levels f =
    { (f.withNibble ((t.getLast?.getD a).extractLsb' 0 4)) with rs := true } := by
  simp only [lineSteps, List.foldl_append, sendCommand_levels]
  exact streamText_levels p t 0 { f with rs := true } a

/-- A Unit L request in its state with all pins valid completes: its whole effect, in terms of its micro-steps. -/
theorem exec_unitL_completes {i : Instr} {s : State} {ms : List MicroOp} (hp : s.pinsOk) (hm : scriptOf i s.par = some ms)
    (hn : needsLcdState i = some s.lcdState) :
    ∃ u, runMicro ms s = .done u ∧ exec i s = .next (completeL i u) := by
  have hi : isUnitL i = true := by
    cases i <;> first | rfl | cases hn
  obtain ⟨t, h, ho⟩ := exec_unitL hi s
  cases ho with
  | misuse st hn' hs =>
    rw [hn] at hn'
    exact absurd (Option.some.inj hn') hs
  | argument row text hi hd hr =>
    subst hi
    simp [scriptOf, hr] at hm
  | ioError ms p u hm' hn' hbad =>
    rw [hp p] at hbad
    cases hbad
  | completes ms' u hm' hn' hu =>
    rw [hm] at hm'
    obtain rfl := Option.some.inj hm'
    exact ⟨u, hu, h⟩

/-- What is known of the state after a completed Unit L request. -/
theorem exec_unitL_known {i : Instr} {s : State} {ms : List MicroOp} (hp : s.pinsOk) (hm : scriptOf i s.par = some ms)
    (hn : needsLcdState i = some s.lcdState) :
    ∃ t, exec i s = .next t ∧ t.known = { s.known with
      pinLvl := ms.foldl MicroOp.levels s.pinLvl, pinDir := ms.foldl MicroOp.dirs s.pinDir,
      lcdState := lcdAfter i s.lcdState, upc := 0, tmr := 0,
      trace := s.trace ++ ms.flatMap MicroOp.events ++ [.rsp [0x00]] } := by
  obtain ⟨u, hu, h⟩ := exec_unitL_completes hp hm hn
  refine ⟨_, h, ?_⟩
  obtain ⟨hs, htr, hl, hd, -⟩ := runMicro_done hu
  obtain ⟨h1, h2, h3, h4, h5, h6, h7, h8, h9, h10, h11⟩ := hs
  simp [completeL, State.known, h1, h2, h3, h4, h5, h6, h7, h8, h9, h10, htr, hl, hd]

end Sys2Proof.Machine
end

