-- ==== Sys2Proof/Laws/Observe.lean ====
section
/-! SUPPORT. What an observer latches and counts, over the event lists of the operations, once. -/

namespace Sys2Proof.Machine

/-- The pin levels after a list of events. -/
def levelsAfter (es : List Event) (lvl : PinBits) : PinBits := es.foldl (fun l e => e.after l) lvl

theorem levelsAfter_append (xs ys : List Event) (lvl : PinBits) :
    levelsAfter (xs ++ ys) lvl = levelsAfter ys (levelsAfter xs lvl) := List.foldl_append

/-- What a list of events latches: what its beginning does, then its rest from the levels reached. -/
theorem latched_append (xs ys : List Event) (lvl : PinBits) :
    latched lvl (xs ++ ys) = latched lvl xs ++ latched (levelsAfter xs lvl) ys := by
  induction xs generalizing lvl with
  | nil => rfl
  | cons e xs ih =>
    simp only [List.cons_append, latched, levelsAfter, List.foldl_cons]
    split
    · rw [ih]
      rfl
    · exact ih _

/-- A nibble is latched once, with register select as it was (R112). -/
theorem latched_nibble {p : Params} (h : 0 < p.tEnUs) (n : Nibble) (lvl : PinBits) :
    latched lvl (nibbleEvents p n) = [(lvl.rs, n)] ∧ levelsAfter (nibbleEvents p n) lvl = lvl.withNibble n := by
  have hn : BitVec.ofBool (n.getLsbD 3) ++ BitVec.ofBool (n.getLsbD 2) ++ BitVec.ofBool (n.getLsbD 1) ++
      BitVec.ofBool (n.getLsbD 0) = n := by
    revert n
    decide
  constructor
  · simp only [latched, nibbleEvents, Event.isStrobe, Event.after, PerPin.set, PinBits.nibble, hn, beq_self_eq_true,
      Int.natCast_pos, h, decide_true, Bool.and_self, if_true, Bool.false_eq_true, if_false]
  · rfl

/-- A byte is latched as its high and its low nibble (R54, R112). -/
theorem latched_byte {p : Params} (h : 0 < p.tEnUs) (b : Byte) (lvl : PinBits) :
    latched lvl (byteEvents p b) = bytePairs lvl.rs b ∧
      levelsAfter (byteEvents p b) lvl = lvl.withNibble (b.extractLsb' 0 4) := by
  simp only [byteEvents, latched_append, levelsAfter_append, (latched_nibble h _ _).1, (latched_nibble h _ _).2]
  exact ⟨rfl, rfl⟩

/-- A hold latches nothing and moves no pin. -/
theorem latched_hold (d : Nat) (lvl : PinBits) :
    latched lvl [.hold .en d] = [] ∧ levelsAfter [.hold .en d] lvl = lvl := by
  refine ⟨?_, rfl⟩
  simp [latched, Event.isStrobe]

/-- A command is latched with register select low (R129, R130). -/
theorem latched_command {p : Params} (h : 0 < p.tEnUs) (b : Byte) (lvl : PinBits) :
    latched lvl (commandEvents p b) = bytePairs false b ∧
      levelsAfter (commandEvents p b) lvl = { (lvl.withNibble (b.extractLsb' 0 4)) with rs := false } := by
  have h1 : latched lvl [.wr .rs false, .hold .en p.tPreUs] = [] ∧
      levelsAfter [.wr .rs false, .hold .en p.tPreUs] lvl = { lvl with rs := false } :=
    ⟨by simp [latched, Event.isStrobe], rfl⟩
  have h2 : ∀ l : PinBits, latched l (if b ∈ p.longCmds then [.hold .en p.tClearSettleUs] else []) = [] ∧
      levelsAfter (if b ∈ p.longCmds then [.hold .en p.tClearSettleUs] else []) l = l := by
    intro l
    split
    · exact latched_hold _ _
    · exact ⟨rfl, rfl⟩
  simp only [commandEvents, latched_append, levelsAfter_append, h1.1, h1.2, (h2 _).1, (h2 _).2, (latched_byte h _ _).1,
    (latched_byte h _ _).2, List.nil_append, List.append_nil]
  exact ⟨trivial, rfl⟩

/-- Commands in a row are latched in a row. -/
theorem latched_commands {p : Params} (h : 0 < p.tEnUs) (bs : List Byte) (lvl : PinBits) :
    latched lvl (bs.flatMap (commandEvents p)) = bs.flatMap (bytePairs false) := by
  induction bs generalizing lvl with
  | nil => rfl
  | cons b bs ih => simp only [List.flatMap_cons, latched_append, (latched_command h _ _).1, ih]

/-- Characters are latched in a row, with register select as it was (R131). -/
theorem latched_chars {p : Params} (h : 0 < p.tEnUs) (bs : List Byte) (lvl : PinBits) :
    latched lvl (bs.flatMap (charEvents p)) = bs.flatMap (bytePairs lvl.rs) := by
  have hg : ∀ l : PinBits, latched l (if p.tCharGapUs = 0 then [] else [.hold .en p.tCharGapUs]) = [] ∧
      levelsAfter (if p.tCharGapUs = 0 then [] else [.hold .en p.tCharGapUs]) l = l := by
    intro l
    split
    · exact ⟨rfl, rfl⟩
    · exact latched_hold _ _
  induction bs generalizing lvl with
  | nil => rfl
  | cons b bs ih =>
    simp only [List.flatMap_cons, charEvents, latched_append, levelsAfter_append, (latched_byte h _ _).1, (latched_byte h _ _).2,
      (hg _).1, (hg _).2, ih, List.append_nil]
    rfl

/-- A line is latched as its row command and its characters (R131). -/
theorem latched_line {p : Params} (h : 0 < p.tEnUs) (a : Byte) (text : List Byte) (lvl : PinBits) :
    latched lvl (lineEvents p a text) = bytePairs false a ++ text.flatMap (bytePairs true) := by
  have h1 : ∀ l : PinBits, latched l [.wr .rs true] = [] ∧ levelsAfter [.wr .rs true] l = { l with rs := true } :=
    fun l => ⟨rfl, rfl⟩
  simp only [lineEvents, latched_append, levelsAfter_append, (latched_command h _ _).1, (latched_command h _ _).2, (h1 _).1,
    (h1 _).2, latched_chars h, List.append_nil]

/-- A response latches nothing. -/
theorem latched_rsp (bs : List Byte) (lvl : PinBits) : latched lvl [.rsp bs] = [] := rfl

/-- The two halves of a byte joined are the byte. -/
theorem halves_append (b : Byte) : b.extractLsb' 4 4 ++ b.extractLsb' 0 4 = b := by
  revert b
  decide

/-- The bytes read off pairs that come from bytes are those bytes. -/
theorem busBytes_pairs (rs : Bool) (bs : List Byte) (rest : List (Bool × Nibble)) :
    busBytes (bs.flatMap (bytePairs rs) ++ rest) = (busBytes rest).map (fun r => bs.map (fun b => (rs, b)) ++ r) := by
  induction bs with
  | nil => simp
  | cons b bs ih =>
    simp only [List.flatMap_cons, bytePairs, List.cons_append, List.nil_append, busBytes, if_true, ih,
      halves_append, Option.map_map, List.map_cons]
    rfl

/-- What was emitted is what stands behind the record of before. -/
theorem emitted_of_trace {s t : State} {es : List Event} (h : t.trace = s.trace ++ es) : emitted s t = es := by
  simp [emitted, h]

end Sys2Proof.Machine
end

