-- ==== Sys2Proof/Laws/PerInstr.lean ====
section
/-! SUPPORT. Per instruction: the length of each request's encoding (R90). -/

namespace Sys2Proof.Laws.Length

/-- The bytes of a request begin with its opcode, are as many as its format and byte 2 say, and fit the fetch. -/
def Statement (i : Instr) : Prop :=
  i.WellFormed → (encode i).head? = some i.opcode.code ∧
    (encode i).length = i.opcode.format.length ((encode i).getD 2 0) ∧ (encode i).length ≤ maxRequest

theorem cfgpins : Statement .cfgpins := fun _ => ⟨rfl, rfl, by decide⟩
theorem initdisp : Statement .initdisp := fun _ => ⟨rfl, rfl, by decide⟩
theorem sendcmd (b : Byte) : Statement (.sendcmd b) := fun _ => ⟨rfl, rfl, Nat.le_of_ble_eq_true rfl⟩
theorem wrnib (n : Nibble) : Statement (.wrnib n) := fun _ => ⟨rfl, rfl, Nat.le_of_ble_eq_true rfl⟩

theorem wrline (row : Byte) (text : List Byte) : Statement (.wrline row text) := by
  intro h
  have h255 : text.length ≤ 255 := by simpa [Instr.WellFormed, Instr.wf] using h
  refine ⟨rfl, ?_, ?_⟩
  · simp only [encode, Instr.operandBytes, Instr.opcode, Opcode.format, Format.length, List.length_cons, List.getD_cons_succ,
      List.getD_cons_zero, BitVec.toNat_ofNat]
    omega
  · simp only [encode, Instr.operandBytes, List.length_cons, maxRequest]
    omega

theorem clear : Statement .clear := fun _ => ⟨rfl, rfl, by decide⟩
theorem calib : Statement .calib := fun _ => ⟨rfl, rfl, by decide⟩
theorem classify (s : Ticks) : Statement (.classify s) := fun _ => ⟨rfl, rfl, Nat.le_of_ble_eq_true rfl⟩
theorem rdraw : Statement .rdraw := fun _ => ⟨rfl, rfl, by decide⟩
theorem edge : Statement .edge := fun _ => ⟨rfl, rfl, by decide⟩
theorem sense5v : Statement .sense5v := fun _ => ⟨rfl, rfl, by decide⟩

end Sys2Proof.Laws.Length
end

