-- ==== Sys2Proof/Tests/Slice0.lean ====
section
/-! SUPPORT. Tests. Expected values are those of spec/95_test_vectors.md and of the tables of spec/30_encoding.md, and every
statement with hypotheses has here a state and operands that meet them together. -/

namespace Sys2Proof.Tests

open Sys2Proof.Machine

/-! ## Well-formedness -/

theorem test_wf_refuses_long_text : ¬ (Instr.wrline 1 (List.replicate 256 0x41)).WellFormed := by decide +kernel
theorem test_wf_accepts_longest_text : (Instr.wrline 1 (List.replicate 255 0x41)).WellFormed := by decide +kernel
theorem test_wf_accepts_any_operand :
    (Instr.wrline 255 []).WellFormed ∧ (Instr.sendcmd 0xFF).WellFormed ∧ (Instr.wrnib 0xF).WellFormed ∧
    (Instr.classify 0xFFFF).WellFormed := by decide

/-! ## Decoding: the words of 2.8, written out bit by bit -/

theorem test_decode_cfgpins : decode [0b00010000] = .request .cfgpins 1 := by decide
theorem test_decode_initdisp : decode [0b00010001] = .request .initdisp 1 := by decide
theorem test_decode_sendcmd : decode [0b00010010, 0b10000000] = .request (.sendcmd 0x80) 2 := by decide
theorem test_decode_wrnib : decode [0b00010011, 0b00000101] = .request (.wrnib 0x5) 2 := by decide
theorem test_decode_wrnib_reserved : decode [0b00010011, 0b00010101] = .reservedOperand 0x13 0x15 := by decide
theorem test_decode_wrline :
    decode [0b00010100, 0b00000010, 0b00000011, 0x41, 0x42, 0x43, 0xFF] = .request (.wrline 2 [0x41, 0x42, 0x43]) 6 := by decide
theorem test_decode_wrline_empty : decode [0x14, 0x01, 0x00] = .request (.wrline 1 []) 3 := by decide
theorem test_decode_clear : decode [0b00010101] = .request .clear 1 := by decide
theorem test_decode_calib : decode [0b00100000] = .request .calib 1 := by decide
theorem test_decode_classify : decode [0b00100001, 0b00000010, 0b11001100] = .request (.classify 716) 3 := by decide
theorem test_decode_rdraw : decode [0b00100010] = .request .rdraw 1 := by decide
theorem test_decode_edge : decode [0b00100011] = .request .edge 1 := by decide
theorem test_decode_sense5v : decode [0b00100100] = .request .sense5v 1 := by decide
theorem test_decode_illegal :
    [0x00, 0x0F, 0x16, 0x1F, 0x25, 0x80, 0xFF].map (fun b => decode [b]) =
      [0x00, 0x0F, 0x16, 0x1F, 0x25, 0x80, 0xFF].map Decoded.illegalOpcode := by decide
theorem test_decode_waits : decode [0x14, 0x01, 0x02, 0x48] = .incomplete ∧ decode [0x21, 0x02] = .incomplete := by decide

/-- The table reads a row with byte 0 most significant. -/
theorem test_table_words :
    decodeTableWord 8 0x10 = some .cfgpins ∧ decodeTableWord 8 0x11 = some .initdisp ∧
    decodeTableWord 16 0x1228 = some (.sendcmd 0x28) ∧ decodeTableWord 16 0x1303 = some (.wrnib 3) ∧
    decodeTableWord 24 0x140102 = some (.wrline 1 [0, 0]) ∧ decodeTableWord 8 0x15 = some .clear ∧
    decodeTableWord 8 0x20 = some .calib ∧ decodeTableWord 24 0x2102CC = some (.classify 716) ∧
    decodeTableWord 8 0x22 = some .rdraw ∧ decodeTableWord 8 0x23 = some .edge ∧ decodeTableWord 8 0x24 = some .sense5v ∧
    decodeTableWord 16 0x1310 = none := by decide +kernel

/-! ## Instances and states -/

/-- Right after reset, with the parameters `EX1` of rule R10. -/
def ex1 : State := State.resetOf Config.ex1

/-- `ex1` with the display in state `l`. -/
def lcd (l : LcdState) : State := { ex1 with lcdState := l }

/-- `ex1` with these values at the analog input. -/
def fed (vs : List Sample) : State := { ex1 with ana := vs }

/-- `ex1` with these request bytes sent. -/
def sent (bs : List Byte) : State := { ex1 with req := Memory.block 0 bs }

/-- The table of vector 2.4, row 1. -/
def tableRow1 : ThrFile := ⟨⟨0x03, 0xFF⟩, ⟨0x02, 0xCC⟩, ⟨0x01, 0xFF⟩, ⟨0x01, 0x32⟩, ⟨0x00, 0x99⟩, ⟨0x00, 0x33⟩⟩

/-- `ex1` calibrated with that table. -/
def calibrated : State := { ex1 with clsState := .calibrated, thr := tableRow1 }

/-- The state an answer holds. -/
def answer (o : Host.Outcome State Fault Refusal) : State :=
  match o with
  | .next t => t
  | .fault f => nomatch f
  | .refused _ => ex1

/-- `EX1` with the backlight pin invalid. -/
def noBacklight : Params := { OpenParams.ex1.withDefaults with pinValid := .only [0, 1, 2, 3, 4, 5] }
/-- `EX1` with every pin and every channel invalid. -/
def nothingValid : Params := { OpenParams.ex1.withDefaults with pinValid := .only [], chanValid := .only [] }
/-- `EX1` with the enable pin invalid. -/
def noEnable : Params := { OpenParams.ex1.withDefaults with pinValid := .only [0, 1, 2, 3, 4, 6] }
/-- `EX1` with the supply channel invalid. -/
def noSupply : Params := { OpenParams.ex1.withDefaults with chanValid := .only [0] }
/-- `EX1` with the spacing check. -/
def withSpacing : Params := { OpenParams.ex1.withDefaults with calCheckSpacing := true }
/-- `EX1` with a character gap of 40 microseconds. -/
def withGap : Params := { OpenParams.ex1.withDefaults with tCharGapUs := 40 }
/-- `EX1` with a nominal reading and a least sample of 4 ticks, so small that a `CALIB` can overflow. -/
def tinyNominal : Params := { OpenParams.ex1.withDefaults with calMin := 4, vNomTicks := 4, mvPerTickFx := 12500000 }
/-- `EX1` with another `bvr`, and the spacing check or not. -/
def otherBvr (check : Bool) : Params := { OpenParams.ex1.withDefaults with bvr := .other, calCheckSpacing := check }
/-- `EX1` with a nominal reading of 10 ticks. -/
def lowNominal : Params := { OpenParams.ex1.withDefaults with vNomTicks := 10, mvPerTickFx := 5000000 }

theorem noBacklight_ok : noBacklight.Ok := { OpenParams.ex1_ok with calMin_pos := by decide }
theorem nothingValid_ok : nothingValid.Ok := { OpenParams.ex1_ok with calMin_pos := by decide }
theorem noEnable_ok : noEnable.Ok := { OpenParams.ex1_ok with calMin_pos := by decide }
theorem noSupply_ok : noSupply.Ok := { OpenParams.ex1_ok with calMin_pos := by decide }
theorem withSpacing_ok : withSpacing.Ok := { OpenParams.ex1_ok with calMin_pos := by decide }
theorem withGap_ok : withGap.Ok := { OpenParams.ex1_ok with tGap_fits := by decide }
theorem tinyNominal_ok : tinyNominal.Ok :=
  { OpenParams.ex1_ok with
    calMin_pos := by decide, vNom_min := by decide, vNom_max := by decide, divMin_max := by decide
    mv_nominal := ⟨5000, by decide, by decide, by decide⟩ }
theorem otherBvr_ok (check : Bool) : (otherBvr check).Ok :=
  { OpenParams.ex1_ok with calMin_pos := OpenParams.ex1_ok.calMin_pos }
theorem lowNominal_ok : lowNominal.Ok :=
  { OpenParams.ex1_ok with
    vNom_min := by decide, vNom_max := by decide, mv_nominal := ⟨5000, by decide, by decide, by decide⟩ }

/-- Right after reset, with parameters `p`. -/
def withParams (p : Params) (h : p.Ok) : State := State.resetOf ⟨p, h⟩

theorem pinsOk_of_ex1 {s : State} (h : s.cfg = Config.ex1) : s.pinsOk := by
  intro p
  simp only [State.pinOk, State.phys, State.par, h]
  rfl

/-! ## One step each, from the vectors -/

theorem test_cfgpins :
    (answer (exec .cfgpins ex1)).trace =
      [.dir .dl0 true, .dir .dl1 true, .dir .dl2 true, .dir .dl3 true, .dir .rs true, .dir .en true, .dir .bl true,
       .wr .bl true, .wr .rs true, .wr .en false, .wr .dl0 false, .wr .dl1 false, .wr .dl2 false, .wr .dl3 false, .rsp [0x00]] ∧
    (answer (exec .cfgpins ex1)).pinDir.word = 0b1111111 ∧ (answer (exec .cfgpins ex1)).pinLvl.word = 0b1010000 ∧
    (answer (exec .cfgpins ex1)).lcdState = .pinsConfigured := by decide +kernel

theorem test_cfgpins_invalid_backlight :
    (answer (exec .cfgpins (withParams noBacklight noBacklight_ok))).trace =
      [.dir .dl0 true, .dir .dl1 true, .dir .dl2 true, .dir .dl3 true, .dir .rs true, .dir .en true, .rsp [0x03]] ∧
    (answer (exec .cfgpins (withParams noBacklight noBacklight_ok))).fault = ⟨3, 0x10, 6⟩ := by decide +kernel

theorem test_initdisp :
    (answer (exec .initdisp (lcd .pinsConfigured))).trace.length = 86 ∧
    minUs (answer (exec .initdisp (lcd .pinsConfigured))).trace = 2364 ∧
    latched (.const false) (answer (exec .initdisp (lcd .pinsConfigured))).trace =
      [(false, 3), (false, 3), (false, 3), (false, 2), (false, 2), (false, 8), (false, 0), (false, 0xC), (false, 0), (false, 1),
       (false, 0), (false, 6), (false, 0), (false, 2)] := by decide +kernel

theorem test_sendcmd :
    (answer (exec (.sendcmd 0x28) (lcd .displayReady))).trace =
      [.wr .rs false, .pulse .en (-50) false, .wr .dl0 false, .wr .dl1 true, .wr .dl2 false, .wr .dl3 false, .pulse .en 1 true,
       .wr .dl0 false, .wr .dl1 false, .wr .dl2 false, .wr .dl3 true, .pulse .en 1 true, .rsp [0x00]] := by decide +kernel

theorem test_wrnib :
    (answer (exec (.wrnib 0xA) (lcd .displayReady))).trace =
      [.wr .dl0 false, .wr .dl1 true, .wr .dl2 false, .wr .dl3 true, .pulse .en 1 true, .rsp [0x00]] := by decide +kernel

theorem test_wrnib_too_early :
    (answer (exec (.wrnib 0xA) (lcd .pinsConfigured))).trace = [.rsp [0x02]] ∧
    (answer (exec (.wrnib 0xA) (lcd .pinsConfigured))).fault = ⟨2, 0x13, 1⟩ := by decide +kernel

theorem test_wrline :
    latched (.const false) (answer (exec (.wrline 2 [0x4F, 0x4B]) (lcd .displayReady))).trace =
      [(false, 0xC), (false, 0), (true, 4), (true, 0xF), (true, 4), (true, 0xB)] ∧
    (answer (exec (.wrline 2 [0x4F, 0x4B]) (lcd .displayReady))).trace.length = 34 := by decide +kernel

theorem test_wrline_row3 :
    (answer (exec (.wrline 3 [0x58]) (lcd .displayReady))).trace = [.rsp [0x04]] ∧
    (answer (exec (.wrline 3 [0x58]) (lcd .displayReady))).fault = ⟨4, 0x14, 3⟩ ∧
    (answer (exec (.wrline 3 [0x58]) ex1)).fault = ⟨2, 0x14, 0⟩ := by decide +kernel

theorem test_clear :
    (answer (exec .clear (lcd .displayReady))).trace =
      [.wr .rs false, .pulse .en (-50) false, .wr .dl0 false, .wr .dl1 false, .wr .dl2 false, .wr .dl3 false, .pulse .en 1 true,
       .wr .dl0 true, .wr .dl1 false, .wr .dl2 false, .wr .dl3 false, .pulse .en 1 true, .pulse .en (-2000) false,
       .rsp [0x00]] := by decide +kernel

theorem test_calib :
    (answer (exec .calib (fed [1023, 777]))).thr.ticks = [1023, 695, 496, 298, 149, 49] ∧
    (answer (exec .calib (fed [1023, 777]))).clsState = .calibrated ∧
    (answer (exec .calib (fed [1023, 777]))).trace = [.adc .btn 1023, .adc .vsense 777, .rsp [0x00]] := by decide +kernel

theorem test_calib_faults :
    (answer (exec .calib (fed [1023, 9]))).fault = ⟨1, 0x20, 2⟩ ∧
    (answer (exec .calib { withParams withSpacing withSpacing_ok with ana := [10, 10] })).fault = ⟨1, 0x20, 6⟩ ∧
    (answer (exec .calib { withParams lowNominal lowNominal_ok with ana := [1023, 1023] })).fault = ⟨1, 0x20, 5⟩ := by
  decide +kernel

theorem test_classify :
    (answer (exec (.classify 725) calibrated)).trace = [.rsp [0x00, 0x01]] ∧
    (answer (exec (.classify 726) calibrated)).trace = [.rsp [0x00, 0x07]] := by decide +kernel

theorem test_classify_lowest_wins :
    (answer (exec (.classify 5) { calibrated with thr := ⟨⟨0, 10⟩, ⟨0, 0⟩, ⟨0, 0⟩, ⟨0, 0⟩, ⟨0, 0⟩, ⟨0, 0⟩⟩ })).trace =
      [.rsp [0x00, 0x00]] ∧
    (answer (exec (.classify 0) { calibrated with thr := ⟨⟨0, 10⟩, ⟨0, 0⟩, ⟨0, 0⟩, ⟨0, 0⟩, ⟨0, 0⟩, ⟨0, 0⟩⟩ })).trace =
      [.rsp [0x00, 0x01]] := by decide +kernel

theorem test_rdraw : (answer (exec .rdraw (fed [716]))).trace = [.adc .btn 716, .rsp [0x00, 0x02, 0xCC]] := by decide +kernel

theorem test_edge :
    (answer (exec .edge (fed [899]))).trace = [.adc .btn 899, .rsp [0x00, 0x01]] ∧
    (answer (exec .edge (fed [900]))).trace = [.adc .btn 900, .rsp [0x00, 0x00]] := by decide +kernel

theorem test_sense5v :
    (answer (exec .sense5v (fed [777]))).trace = [.adc .vsense 777, .rsp [0x00, 0x12, 0xF8]] := by decide +kernel

theorem test_sense5v_too_high :
    (answer (exec .sense5v { withParams lowNominal lowNominal_ok with ana := [132] })).fault = ⟨1, 0x24, 4⟩ := by decide +kernel

/-- Vector 2.1. -/
theorem test_fixed_point :
    toFx 1023 = .ok 10230000 ∧ toFx 214749 = .overflow ∧ fromFx (-19999) = -1 ∧ fxMul 9935376 7000 = .ok 6954763 ∧
    fxMul (-9) 1000 = .ok 0 ∧ fxMul 2147483647 10001 = .overflow ∧ fxDiv 10000 7770000 8000000 = .ok 9712 ∧
    fxDiv 10000 (-15000) 20000 = .ok (-7500) ∧ fxDiv 10000 5 (-9999) = .rejected := by decide +kernel

/-- A step fetches, advances `RP` and runs; an illegal request is reported whatever the state (2.8). -/
theorem test_step :
    (answer (step (sent [0x21, 0x00, 0x00]))).rp = 3 ∧ (answer (step (sent [0x21, 0x00, 0x00]))).fault = ⟨2, 0x21, 0⟩ ∧
    (answer (step (sent [0x13, 0x15]))).fault = ⟨5, 0x13, 0x0015⟩ ∧ (answer (step (sent [0xFF]))).fault.word = 0x5FF00FF := by
  decide +kernel

/-- Right after reset with one request placed, a step runs it: `CALIB` answers, whatever the open parameters are. -/
theorem test_first_request :
    step (State.reset.withFetchWord 8 0x20) = exec .calib { State.reset.withFetchWord 8 0x20 with rp := 1 } := by
  rfl

/-! ## Witnesses: for each statement with hypotheses, a state and operands that meet them -/

/-- Every answer is the next state it holds. -/
theorem answers (i : Instr) (s : State) : exec i s = .next (answer (exec i s)) := by cases i <;> rfl

theorem witness_DecodeOfEncodeIsTheRequest :
    (Instr.wrline 1 (List.replicate 255 0x41)).WellFormed ∧ (Instr.wrline 255 []).WellFormed ∧ (Instr.wrnib 0xF).WellFormed := by
  decide +kernel

theorem witness_DecodedBytesAreTheEncoding : decode [0x14, 0x02, 0x01, 0x41, 0x00] = .request (.wrline 2 [0x41]) 4 := by decide

theorem witness_RequestLengthFollowsFromItsFirstBytes :
    decode [0x10] = .request .cfgpins 1 ∧ decode [0x12, 0xFF] = .request (.sendcmd 0xFF) 2 ∧
    decode [0x21, 0xFF, 0xFF] = .request (.classify 0xFFFF) 3 ∧ decode [0x14, 0xFF, 0x00] = .request (.wrline 255 []) 3 ∧
    decode (0x14 :: 0x01 :: 0xFF :: List.replicate 255 0x41) = .request (.wrline 1 (List.replicate 255 0x41)) 258 ∧
    (sent [0x00]).rst = false ∧ (sent [0x00]).noFault ∧ (sent [0x00]).req.read (sent [0x00]).rp = some 0x00 ∧
    Opcode.ofByte? 0x00 = none :=
  ⟨by decide, by decide, by decide, by decide, by decide +kernel, rfl, rfl, rfl, by decide⟩

theorem witness_StepRunsTheDecodedRequest :
    (sent [0x12, 0x28]).rst = false ∧ (sent [0x12, 0x28]).noFault ∧
    decode (sent [0x12, 0x28]).fetchBytes = .request (.sendcmd 0x28) 2 := ⟨rfl, rfl, by decide +kernel⟩

theorem witness_StepRunsTheEncodedRequest :
    (sent [0x13, 0x03]).rst = false ∧ (sent [0x13, 0x03]).noFault ∧ (Instr.wrnib 3).WellFormed ∧
    ∀ k, k < (encode (.wrnib 3)).length → (sent [0x13, 0x03]).req.read ((sent [0x13, 0x03]).rp + k) = (encode (.wrnib 3))[k]? :=
  ⟨rfl, rfl, rfl, by decide⟩

theorem witness_StepWaitsForTheRequest :
    (ex1.rst = false ∧ ex1.noFault ∧ decode ex1.fetchBytes = .incomplete) ∧
    (sent [0x14, 0x01, 0x01]).rst = false ∧ (sent [0x14, 0x01, 0x01]).noFault ∧
    decode (sent [0x14, 0x01, 0x01]).fetchBytes = .incomplete :=
  ⟨⟨rfl, rfl, by decide +kernel⟩, rfl, rfl, by decide +kernel⟩

/-- At each end of each range of illegal opcodes; and each end of the two ranges of the map. -/
theorem witness_IllegalOpcodeRaises :
    (∀ op ∈ [0x00#8, 0x0F#8, 0x16#8, 0x1F#8, 0x25#8, 0xFF#8],
      (sent [op]).rst = false ∧ (sent [op]).fault.kind = 0 ∧ (sent [op]).req.read (sent [op]).rp = some op ∧
      (op.toNat ≤ 0x0F ∨ (0x16 ≤ op.toNat ∧ op.toNat ≤ 0x1F) ∨ 0x25 ≤ op.toNat)) ∧
    (∀ op ∈ [0x10#8, 0x15#8, 0x20#8, 0x24#8],
      ¬ (op.toNat ≤ 0x0F ∨ (0x16 ≤ op.toNat ∧ op.toNat ≤ 0x1F) ∨ 0x25 ≤ op.toNat)) := by decide

theorem witness_ReservedNibbleOperandRaises :
    ∀ imm ∈ [0x10#8, 0x1F#8, 0xF0#8, 0xFF#8],
      (sent [0x13, imm]).rst = false ∧ (sent [0x13, imm]).fault.kind = 0 ∧
      (sent [0x13, imm]).req.read (sent [0x13, imm]).rp = some 0x13 ∧
      (sent [0x13, imm]).req.read ((sent [0x13, imm]).rp + 1) = some imm ∧ imm.extractLsb' 4 4 ≠ 0#4 := by decide

/-- A halted block, and one whose reset line is up. -/
theorem witness_HaltedUntilReset :
    ¬ State.noFault { ex1 with fault := ⟨5, 0xFF, 0xFF⟩ } ∧ State.rst { ex1 with fault := ⟨5, 0xFF, 0xFF⟩ } = false ∧
    State.rst { ex1 with rst := true } = true := ⟨(by intro h; cases h), rfl, rfl⟩

theorem witness_ResetInputGivesResetValues :
    State.rst { calibrated with rst := true, rp := 7, fault := ⟨1, 0x20, 2⟩, lcdState := .displayReady } = true := rfl

/-- A block in the middle of its work: configured, calibrated, with a request waiting. -/
def working : State :=
  { answer (exec .cfgpins { calibrated with prev := 400 }) with req := Memory.block 0 [0x11], trace := [] }

/-- A step that records a fault. -/
theorem witness_EveryStepAnswers :
    step (sent [0x00]) = .next (answer (step (sent [0x00]))) ∧ (sent [0x00]).rst = false ∧
    (answer (step (sent [0x00]))).fault ≠ (sent [0x00]).fault :=
  ⟨rfl, rfl, by decide +kernel⟩

theorem witness_StepKeepsTheInvariant : working.Inv ∧ step working = .next (answer (step working)) :=
  ⟨⟨rfl, rfl, by decide +kernel, by decide +kernel,
    fun _ => ⟨pinsOk_of_ex1 rfl, rfl, rfl, rfl⟩, fun _ => ⟨rfl, rfl, by decide +kernel, by decide +kernel⟩,
    .inr (by decide +kernel)⟩, rfl⟩

theorem witness_OperationsLeaveTheSequencer : exec .calib (fed [1023, 800]) = .next (answer (exec .calib (fed [1023, 800]))) :=
  answers _ _

/-- A completed request, and one whose fault stands alone. -/
theorem witness_ExactlyOneResponse :
    (fed [716]).noFault ∧ exec .rdraw (fed [716]) = .next (answer (exec .rdraw (fed [716]))) ∧
    ex1.noFault ∧ exec .initdisp ex1 = .next (answer (exec .initdisp ex1)) ∧ (answer (exec .initdisp ex1)).fault.kind ≠ 0 :=
  ⟨rfl, answers _ _, rfl, answers _ _, by decide +kernel⟩

theorem witness_StateGateRaises :
    (needsLcdState .cfgpins = some .uninitialized ∧ (lcd .displayReady).lcdState ≠ .uninitialized) ∧
    (needsLcdState .initdisp = some .pinsConfigured ∧ ex1.lcdState ≠ .pinsConfigured) ∧
    (needsLcdState .clear = some .displayReady ∧ (lcd .pinsConfigured).lcdState ≠ .displayReady) ∧
    ex1.clsState = .uncalibrated ∧
    (needsLcdState .cfgpins = some ex1.lcdState ∧ ex1.noFault ∧ exec .cfgpins ex1 = .next (answer (exec .cfgpins ex1))) ∧
    (calibrated.clsState = .calibrated ∧ calibrated.noFault ∧
      exec (.classify 716) calibrated = .next (answer (exec (.classify 716) calibrated))) ∧
    (ex1.noFault ∧ exec .edge ex1 = .next (answer (exec .edge ex1))) :=
  ⟨by decide, by decide, by decide, rfl, ⟨rfl, rfl, answers _ _⟩, ⟨rfl, rfl, answers _ _⟩, rfl, answers _ _⟩

theorem witness_LcdStateTransitions :
    (ex1.pinsOk ∧ ex1.lcdState = .uninitialized) ∧
    ((lcd .pinsConfigured).pinsOk ∧ (lcd .pinsConfigured).lcdState = .pinsConfigured) ∧
    (exec .initdisp (lcd .pinsConfigured) = .next (answer (exec .initdisp (lcd .pinsConfigured))) ∧
      (answer (exec .initdisp (lcd .pinsConfigured))).lcdState ≠ (lcd .pinsConfigured).lcdState) ∧
    (needsLcdState (.wrnib 0) = some .displayReady ∧ ex1.lcdState ≠ .displayReady) :=
  ⟨⟨pinsOk_of_ex1 rfl, rfl⟩, ⟨pinsOk_of_ex1 rfl, rfl⟩, ⟨answers _ _, by decide +kernel⟩, by decide⟩

/-- Right after reset, with no pin and no channel valid. -/
def broken : State := withParams nothingValid nothingValid_ok

/-- Right after reset, with the supply channel invalid, and this at the analog input. -/
def brokenSupply : State := { withParams noSupply noSupply_ok with ana := [1023] }

theorem witness_IoErrorNamesAnInvalidPinOrChannel :
    (broken.noFault ∧ exec .cfgpins broken = .next (answer (exec .cfgpins broken)) ∧
      (answer (exec .cfgpins broken)).fault.kind = 3) ∧
    (brokenSupply.noFault ∧ exec .calib brokenSupply = .next (answer (exec .calib brokenSupply)) ∧
      (answer (exec .calib brokenSupply)).fault.kind = 3) :=
  ⟨⟨rfl, answers _ _, by decide +kernel⟩, rfl, answers _ _, by decide +kernel⟩

/-- Right after reset with a nominal reading of 10 ticks, and these at the analog input. -/
def lowFed (vs : List Sample) : State := { withParams lowNominal lowNominal_ok with ana := vs }

/-- One fault of each kind that a request raises, and both requests that raise kind 1. -/
theorem witness_FaultsArePrecise :
    (lowFed [132]).noFault ∧ exec .sense5v (lowFed [132]) = .next (answer (exec .sense5v (lowFed [132]))) ∧
    (answer (exec .sense5v (lowFed [132]))).fault.kind = 1 ∧
    (ex1.noFault ∧ exec .clear ex1 = .next (answer (exec .clear ex1)) ∧ (answer (exec .clear ex1)).fault.kind = 2) ∧
    ((lcd .displayReady).noFault ∧ (answer (exec (.wrline 0 []) (lcd .displayReady))).fault.kind = 4 ∧
      exec (.wrline 0 []) (lcd .displayReady) = .next (answer (exec (.wrline 0 []) (lcd .displayReady)))) ∧
    ((fed [9, 800]).noFault ∧ exec .calib (fed [9, 800]) = .next (answer (exec .calib (fed [9, 800]))) ∧
      (answer (exec .calib (fed [9, 800]))).fault.kind = 1) ∧
    (broken.noFault ∧ exec .rdraw broken = .next (answer (exec .rdraw broken)) ∧ (answer (exec .rdraw broken)).fault.kind = 3) :=
  ⟨rfl, answers _ _, by decide +kernel, ⟨rfl, answers _ _, by decide +kernel⟩, ⟨rfl, by decide +kernel, answers _ _⟩,
    ⟨rfl, answers _ _, by decide +kernel⟩, rfl, answers _ _, by decide +kernel⟩

theorem witness_CalibrationErrorCauses :
    ((fed [1023, 9]).noFault ∧ exec .calib (fed [1023, 9]) = .next (answer (exec .calib (fed [1023, 9]))) ∧
      (answer (exec .calib (fed [1023, 9]))).fault.kind = 1) ∧
    ((lowFed [1023]).noFault ∧ exec .sense5v (lowFed [1023]) = .next (answer (exec .sense5v (lowFed [1023]))) ∧
      (answer (exec .sense5v (lowFed [1023]))).fault.kind = 1) :=
  ⟨⟨rfl, answers _ _, by decide +kernel⟩, rfl, answers _ _, by decide +kernel⟩

theorem witness_UnitsAreSeparate :
    (isUnitL .cfgpins = true ∧ exec .cfgpins ex1 = .next (answer (exec .cfgpins ex1))) ∧
    (isUnitL .edge = false ∧ exec .edge (fed [400]) = .next (answer (exec .edge (fed [400])))) ∧
    ¬ State.noFault { ex1 with fault := ⟨3, 0x10, 6⟩ } ∧ State.rst { ex1 with fault := ⟨3, 0x10, 6⟩ } = false :=
  ⟨⟨rfl, answers _ _⟩, ⟨rfl, answers _ _⟩, (by intro h; cases h), rfl⟩

/-- Two states that differ in the display side only. -/
theorem witness_UnitBIsBlindToUnitL :
    isUnitL .calib = false ∧ (fed [1023, 800]).cfg = State.cfg { fed [1023, 800] with lcdState := .displayReady } ∧
    (fed [1023, 800]).lcdState ≠ State.lcdState { fed [1023, 800] with lcdState := .displayReady } ∧
    (fed [1023, 800]).ana = State.ana { fed [1023, 800] with lcdState := .displayReady } ∧
    (fed [1023, 800]).thr = State.thr { fed [1023, 800] with lcdState := .displayReady } ∧
    (fed [1023, 800]).prev = State.prev { fed [1023, 800] with lcdState := .displayReady } ∧
    (fed [1023, 800]).clsState = State.clsState { fed [1023, 800] with lcdState := .displayReady } ∧
    (fed [1023, 800]).fresh = State.fresh { fed [1023, 800] with lcdState := .displayReady } ∧
    exec .calib (fed [1023, 800]) = .next (answer (exec .calib (fed [1023, 800]))) ∧
    exec .calib { fed [1023, 800] with lcdState := .displayReady } =
      .next (answer (exec .calib { fed [1023, 800] with lcdState := .displayReady })) :=
  ⟨rfl, rfl, by decide, rfl, rfl, rfl, rfl, rfl, answers _ _, answers _ _⟩

/-- Two states that differ in the button side only. -/
theorem witness_UnitLIsBlindToUnitB :
    isUnitL .cfgpins = true ∧ ex1.cfg = calibrated.cfg ∧ ex1.thr ≠ calibrated.thr ∧ ex1.lcdState = calibrated.lcdState ∧
    ex1.pinDir = calibrated.pinDir ∧ ex1.pinLvl = calibrated.pinLvl ∧
    exec .cfgpins ex1 = .next (answer (exec .cfgpins ex1)) ∧ exec .cfgpins calibrated = .next (answer (exec .cfgpins calibrated)) :=
  ⟨rfl, rfl, by decide, rfl, rfl, rfl, answers _ _, answers _ _⟩

/-- A `CALIB` request that writes the table, and a halted block. -/
theorem witness_OnlyTheirRequestsWriteTheRegisters :
    (State.rst { sent [0x20] with ana := [1023, 800] } = false ∧
      step { sent [0x20] with ana := [1023, 800] } = .next (answer (step { sent [0x20] with ana := [1023, 800] })) ∧
      (answer (step { sent [0x20] with ana := [1023, 800] })).thr ≠ State.thr { sent [0x20] with ana := [1023, 800] }) ∧
    (State.rst { ex1 with fault := ⟨5, 0xFF, 0xFF⟩ } = false ∧
      step { ex1 with fault := ⟨5, 0xFF, 0xFF⟩ } = .next { ex1 with fault := ⟨5, 0xFF, 0xFF⟩ } ∧
      ¬ State.noFault { ex1 with fault := ⟨5, 0xFF, 0xFF⟩ }) :=
  ⟨⟨rfl, rfl, by decide +kernel⟩, rfl, rfl, by intro h; cases h⟩

theorem witness_DigitalIoPrimitives :
    0 < 1 ∧ broken.pinOk .dl0 = false ∧ broken.pinOk .en = false ∧ ex1.pinOk .bl = true ∧ ex1.pinOk .en = true := by decide

theorem witness_ConfigurePins :
    (ex1.lcdState = .uninitialized ∧ ex1.pinsOk) ∧
    ((withParams noBacklight noBacklight_ok).lcdState = .uninitialized ∧
      (withParams noBacklight noBacklight_ok).pinOk .bl = false ∧
      ∀ q : Pin, q.index < Pin.index .bl → (withParams noBacklight noBacklight_ok).pinOk q = true) ∧
    (broken.lcdState = .uninitialized ∧ broken.pinOk .dl0 = false ∧
      ∀ q : Pin, q.index < Pin.index .dl0 → broken.pinOk q = true) ∧
    (lcd .pinsConfigured).lcdState ≠ .uninitialized :=
  ⟨⟨rfl, pinsOk_of_ex1 rfl⟩, ⟨rfl, by decide, by intro q; cases q <;> decide⟩, ⟨rfl, by decide, by intro q; cases q <;> decide⟩,
    by decide⟩

theorem witness_InitializeDisplay : (lcd .pinsConfigured).lcdState = .pinsConfigured ∧ (lcd .pinsConfigured).pinsOk :=
  ⟨rfl, pinsOk_of_ex1 rfl⟩

theorem witness_InitializeDisplayLatches :
    (lcd .pinsConfigured).lcdState = .pinsConfigured ∧ (lcd .pinsConfigured).pinsOk ∧
    exec .initdisp (lcd .pinsConfigured) = .next (answer (exec .initdisp (lcd .pinsConfigured))) ∧
    (lcd .pinsConfigured).par.initSeq = [0x33, 0x32, 0x28, 0x0C, 0x01, 0x06, 0x02] ∧
    (lcd .pinsConfigured).par.longCmds = [0x01] := ⟨rfl, pinsOk_of_ex1 rfl, answers _ _, rfl, rfl⟩

theorem witness_SendCommandCompletes : (lcd .displayReady).lcdState = .displayReady ∧ (lcd .displayReady).pinsOk :=
  ⟨rfl, pinsOk_of_ex1 rfl⟩

theorem witness_SendCommandLatchesTwoNibbles :
    (lcd .displayReady).lcdState = .displayReady ∧ (lcd .displayReady).pinsOk ∧
    exec (.sendcmd 0x01) (lcd .displayReady) = .next (answer (exec (.sendcmd 0x01) (lcd .displayReady))) :=
  ⟨rfl, pinsOk_of_ex1 rfl, answers _ _⟩

/-- `DisplayReady` with no pin valid: a state no run reaches. -/
def brokenReady : State := { broken with lcdState := .displayReady }

/-- The hypothesis of `WriteNibble`, and both ends of the order of its pins. -/
theorem witness_WriteNibble :
    ((lcd .displayReady).lcdState = .displayReady ∧
      ∀ p ∈ [Pin.dl0, .dl1, .dl2, .dl3, .en], (lcd .displayReady).pinOk p = true) ∧
    (brokenReady.lcdState = .displayReady ∧ [Pin.dl0, .dl1, .dl2, .dl3, .en] = [] ++ Pin.dl0 :: [.dl1, .dl2, .dl3, .en] ∧
      (∀ q ∈ ([] : List Pin), brokenReady.pinOk q = true) ∧ brokenReady.pinOk .dl0 = false) ∧
    (State.lcdState { withParams noEnable noEnable_ok with lcdState := .displayReady } = .displayReady ∧
      [Pin.dl0, .dl1, .dl2, .dl3, .en] = [.dl0, .dl1, .dl2, .dl3] ++ Pin.en :: [] ∧
      (∀ q ∈ [Pin.dl0, .dl1, .dl2, .dl3],
        State.pinOk { withParams noEnable noEnable_ok with lcdState := .displayReady } q = true) ∧
      State.pinOk { withParams noEnable noEnable_ok with lcdState := .displayReady } .en = false) := by decide

theorem witness_WriteLineCompletes :
    (lcd .displayReady).lcdState = .displayReady ∧ (lcd .displayReady).pinsOk ∧
    (((1 : Byte) = 1 ∧ (0x80 : Byte) = 0x80) ∨ ((1 : Byte) = 2 ∧ (0x80 : Byte) = 0xC0)) ∧
    (((2 : Byte) = 1 ∧ (0xC0 : Byte) = 0x80) ∨ ((2 : Byte) = 2 ∧ (0xC0 : Byte) = 0xC0)) :=
  ⟨rfl, pinsOk_of_ex1 rfl, .inl ⟨rfl, rfl⟩, .inr ⟨rfl, rfl⟩⟩

theorem witness_WriteLineSendsExactlyTheText :
    (lcd .displayReady).lcdState = .displayReady ∧ (lcd .displayReady).pinsOk ∧
    (((1 : Byte) = 1 ∧ (0x80 : Byte) = 0x80) ∨ ((1 : Byte) = 2 ∧ (0x80 : Byte) = 0xC0)) ∧
    exec (.wrline 1 [0x00, 0xFF]) (lcd .displayReady) = .next (answer (exec (.wrline 1 [0x00, 0xFF]) (lcd .displayReady))) :=
  ⟨rfl, pinsOk_of_ex1 rfl, .inl ⟨rfl, rfl⟩, answers _ _⟩

theorem witness_WriteLineHiExample :
    (lcd .displayReady).lcdState = .displayReady ∧ (lcd .displayReady).pinsOk ∧
    exec (.wrline 1 [0x48, 0x49]) (lcd .displayReady) = .next (answer (exec (.wrline 1 [0x48, 0x49]) (lcd .displayReady))) :=
  ⟨rfl, pinsOk_of_ex1 rfl, answers _ _⟩

/-- The rows next to the two legal ones, in the state that admits a line and in one that does not. -/
theorem witness_WriteLineRefusesOtherRows :
    (∀ row ∈ [0x00#8, 0x03#8, 0xFF#8], row ≠ 1 ∧ row ≠ 2) ∧ (lcd .displayReady).lcdState = .displayReady ∧
    ex1.lcdState ≠ .displayReady := by decide

theorem witness_ClearDisplay : (lcd .displayReady).lcdState = .displayReady ∧ (lcd .displayReady).pinsOk :=
  ⟨rfl, pinsOk_of_ex1 rfl⟩

theorem witness_OnlyEnableIsPulsed :
    exec .clear (lcd .displayReady) = .next (answer (exec .clear (lcd .displayReady))) ∧
    Event.pulse .en 1 true ∈ emitted (lcd .displayReady) (answer (exec .clear (lcd .displayReady))) ∧
    exec .cfgpins ex1 = .next (answer (exec .cfgpins ex1)) ∧
    Event.wr .en false ∈ emitted ex1 (answer (exec .cfgpins ex1)) :=
  ⟨answers _ _, by decide +kernel, answers _ _, by decide +kernel⟩

theorem witness_StrobesComeInPairs :
    (lcd .displayReady).pinsOk ∧ (∀ n, (Instr.wrline 1 [0x41]) ≠ .wrnib n) ∧
    exec (.wrline 1 [0x41]) (lcd .displayReady) = .next (answer (exec (.wrline 1 [0x41]) (lcd .displayReady))) :=
  ⟨pinsOk_of_ex1 rfl, (by intro n h; cases h), answers _ _⟩

/-- One witness for each row of the table, and for a line with a gap. -/
theorem witness_EventStrobeAndTimeTable :
    ex1.pinsOk ∧ ex1.lcdState = .uninitialized ∧ exec .cfgpins ex1 = .next (answer (exec .cfgpins ex1)) ∧
    (lcd .displayReady).pinsOk ∧ (lcd .displayReady).lcdState = .displayReady ∧
    exec (.wrnib 5) (lcd .displayReady) = .next (answer (exec (.wrnib 5) (lcd .displayReady))) ∧
    0x28#8 ∉ (lcd .displayReady).par.longCmds ∧ 0x01#8 ∈ (lcd .displayReady).par.longCmds ∧
    (lcd .pinsConfigured).pinsOk ∧ (lcd .pinsConfigured).lcdState = .pinsConfigured ∧
    0x80#8 ∉ (lcd .displayReady).par.longCmds ∧ 0xC0#8 ∉ (lcd .displayReady).par.longCmds ∧
    (0 : Nat) = (if 0 < (lcd .displayReady).par.tCharGapUs then 1 else 0) ∧
    (1 : Nat) = (if 0 < (withParams withGap withGap_ok).par.tCharGapUs then 1 else 0) ∧
    0x80#8 ∉ (withParams withGap withGap_ok).par.longCmds ∧ 0xC0#8 ∉ (withParams withGap withGap_ok).par.longCmds :=
  ⟨pinsOk_of_ex1 rfl, rfl, answers _ _, pinsOk_of_ex1 rfl, rfl, answers _ _, by decide, by decide, pinsOk_of_ex1 rfl, rfl,
    by decide, by decide, rfl, rfl, by decide, by decide⟩

/-- Both ends of the range, and the integers next to it. -/
theorem witness_FixedPointConversion :
    ((-214748 : Int) ≤ 214748 ∧ (214748 : Int) ≤ 214748) ∧ ((-214749 : Int) < -214748 ∨ (214748 : Int) < -214749) ∧
    ((214749 : Int) < -214748 ∨ (214748 : Int) < 214749) ∧ 0 ≤ (9999 : Fx).toInt ∧ (-1 : Fx).toInt < 0 := by decide

theorem witness_FixedPointMultiplyAndDivide :
    (0 : Fx).toInt.natAbs < 1 ∧ (-9999 : Fx).toInt.natAbs < 10000 ∧ ¬ (10000 : Fx).toInt.natAbs < 10000 ∧
    (10000 : Fx).toInt ≠ 0 ∧ (20000 : Fx).toInt ≠ 0 ∧
    (-7500 : Int) = (if ((-15000 : Fx).toInt < 0) = ((20000 : Fx).toInt < 0) then
      (((-15000 : Fx).toInt.natAbs * 10000 / (20000 : Fx).toInt.natAbs : Nat) : Int)
      else -(((-15000 : Fx).toInt.natAbs * 10000 / (20000 : Fx).toInt.natAbs : Nat) : Int)) ∧
    (0 : Int) = (if ((-9 : Fx).toInt < 0) = ((1000 : Fx).toInt < 0) then
      (((-9 : Fx).toInt.natAbs * (1000 : Fx).toInt.natAbs / 10000 : Nat) : Int)
      else -(((-9 : Fx).toInt.natAbs * (1000 : Fx).toInt.natAbs / 10000 : Nat) : Int)) := by decide +kernel

/-- One below `CAL_MIN`, on either side. -/
theorem witness_CalibrationRefusesImplausibleSamples :
    ((fed [9, 800]).chanOk .btn ∧ (fed [9, 800]).chanOk .vsense ∧ (fed [9, 800]).draw = 9 ∧ (fed [9, 800]).drawn.draw = 800 ∧
      ((9 : Sample).toNat < (fed [9, 800]).par.calMin ∨ (800 : Sample).toNat < (fed [9, 800]).par.calMin)) ∧
    ((fed [10, 9]).chanOk .btn ∧ (fed [10, 9]).chanOk .vsense ∧ (fed [10, 9]).draw = 10 ∧ (fed [10, 9]).drawn.draw = 9 ∧
      ((10 : Sample).toNat < (fed [10, 9]).par.calMin ∨ (9 : Sample).toNat < (fed [10, 9]).par.calMin)) :=
  ⟨⟨rfl, rfl, rfl, rfl, by decide⟩, rfl, rfl, rfl, rfl, by decide⟩

theorem witness_CalibrationNeedsBothChannels :
    ¬ broken.chanOk .btn ∧ brokenSupply.chanOk .btn ∧ ¬ brokenSupply.chanOk .vsense ∧ brokenSupply.draw = 1023 :=
  ⟨(by intro h; cases h), rfl, (by intro h; cases h), rfl⟩

/-- Right after reset with the spacing check, and these at the analog input. -/
def spacingFed (vs : List Sample) : State := { withParams withSpacing withSpacing_ok with ana := vs }

/-- The threshold of ratio `r` for baseline `b` and quotient `q`. -/
def entry (b q : Nat) (r : Fx) : Nat := b * q * r.toInt.toNat / 10000 / 10000

/-- The least plausible samples without the spacing check, and a table that passes it. -/
theorem witness_CalibrationStoresScaledThresholds :
    ((fed [10, 10]).chanOk .btn ∧ (fed [10, 10]).chanOk .vsense ∧ (fed [10, 10]).draw = 10 ∧ (fed [10, 10]).drawn.draw = 10 ∧
      (fed [10, 10]).par.bvr = .rescaled ∧ (fed [10, 10]).par.calMin ≤ (10 : Sample).toNat ∧
      125 = (10 : Sample).toNat * 10000 / (fed [10, 10]).par.vNomTicks ∧ (10 : Sample).toNat * 125 ≤ 2147483647 ∧
      (∀ r, entry 10 125 r = (10 : Sample).toNat * 125 * r.toInt.toNat / 10000 / 10000) ∧
      entry 10 125 (fed [10, 10]).par.ratioFx.r1 ≤ 65535 ∧ (fed [10, 10]).par.calCheckSpacing = false) ∧
    ((spacingFed [1023, 800]).chanOk .btn ∧ (spacingFed [1023, 800]).chanOk .vsense ∧ (spacingFed [1023, 800]).draw = 1023 ∧
      (spacingFed [1023, 800]).drawn.draw = 800 ∧ (spacingFed [1023, 800]).par.bvr = .rescaled ∧
      (spacingFed [1023, 800]).par.calMin ≤ (800 : Sample).toNat ∧
      10000 = (800 : Sample).toNat * 10000 / (spacingFed [1023, 800]).par.vNomTicks ∧
      (∀ r, entry 1023 10000 r = (1023 : Sample).toNat * 10000 * r.toInt.toNat / 10000 / 10000) ∧
      (spacingFed [1023, 800]).par.calCheckSpacing = true ∧
      entry 1023 10000 (spacingFed [1023, 800]).par.ratioFx.r1 + 10 < (1023 : Sample).toNat ∧
      entry 1023 10000 (spacingFed [1023, 800]).par.ratioFx.r2 + 10 < entry 1023 10000 (spacingFed [1023, 800]).par.ratioFx.r1 ∧
      entry 1023 10000 (spacingFed [1023, 800]).par.ratioFx.r3 + 10 < entry 1023 10000 (spacingFed [1023, 800]).par.ratioFx.r2 ∧
      entry 1023 10000 (spacingFed [1023, 800]).par.ratioFx.r4 + 10 < entry 1023 10000 (spacingFed [1023, 800]).par.ratioFx.r3 ∧
      entry 1023 10000 (spacingFed [1023, 800]).par.ratioFx.r5 + 10 <
        entry 1023 10000 (spacingFed [1023, 800]).par.ratioFx.r4) :=
  ⟨⟨rfl, rfl, rfl, rfl, rfl, by decide, by decide, by decide, fun _ => rfl, by decide +kernel, rfl⟩,
    rfl, rfl, rfl, rfl, rfl, by decide, by decide, fun _ => rfl, rfl, by decide +kernel, by decide +kernel, by decide +kernel,
    by decide +kernel, by decide +kernel⟩

/-- Right after reset with a nominal reading of 4 ticks, and these at the analog input. -/
def tinyFed (vs : List Sample) : State := { withParams tinyNominal tinyNominal_ok with ana := vs }

/-- One instance for each `aux`; the last one's neighbours are exactly 10 ticks apart at indices 4 and 5, where the larger gaps
pass. -/
theorem witness_CalibrationRaisesAtTheFirstFailingCheck :
    ((tinyFed [1023, 1023]).chanOk .btn ∧ (tinyFed [1023, 1023]).chanOk .vsense ∧ (tinyFed [1023, 1023]).draw = 1023 ∧
      (tinyFed [1023, 1023]).drawn.draw = 1023 ∧ (tinyFed [1023, 1023]).par.bvr = .rescaled ∧
      (tinyFed [1023, 1023]).par.calMin ≤ (1023 : Sample).toNat ∧
      2557500 = (1023 : Sample).toNat * 10000 / (tinyFed [1023, 1023]).par.vNomTicks ∧
      2147483647 < (1023 : Sample).toNat * 2557500) ∧
    ((lowFed [1023, 1023]).chanOk .btn ∧ (lowFed [1023, 1023]).chanOk .vsense ∧ (lowFed [1023, 1023]).draw = 1023 ∧
      (lowFed [1023, 1023]).drawn.draw = 1023 ∧ (lowFed [1023, 1023]).par.bvr = .rescaled ∧
      (lowFed [1023, 1023]).par.calMin ≤ (1023 : Sample).toNat ∧
      1023000 = (1023 : Sample).toNat * 10000 / (lowFed [1023, 1023]).par.vNomTicks ∧
      (1023 : Sample).toNat * 1023000 ≤ 2147483647 ∧ 65535 < entry 1023 1023000 (lowFed [1023, 1023]).par.ratioFx.r1) ∧
    ((spacingFed [100, 800]).chanOk .btn ∧ (spacingFed [100, 800]).chanOk .vsense ∧ (spacingFed [100, 800]).draw = 100 ∧
      (spacingFed [100, 800]).drawn.draw = 800 ∧ (spacingFed [100, 800]).par.bvr = .rescaled ∧
      (spacingFed [100, 800]).par.calMin ≤ (100 : Sample).toNat ∧ (spacingFed [100, 800]).par.calMin ≤ (800 : Sample).toNat ∧
      10000 = (800 : Sample).toNat * 10000 / (spacingFed [100, 800]).par.vNomTicks ∧
      (100 : Sample).toNat * 10000 ≤ 2147483647 ∧ entry 100 10000 (spacingFed [100, 800]).par.ratioFx.r1 ≤ 65535 ∧
      (spacingFed [100, 800]).par.calCheckSpacing = true ∧
      ¬ entry 100 10000 (spacingFed [100, 800]).par.ratioFx.r3 ≤ entry 100 10000 (spacingFed [100, 800]).par.ratioFx.r4 + 10 ∧
      entry 100 10000 (spacingFed [100, 800]).par.ratioFx.r4 = entry 100 10000 (spacingFed [100, 800]).par.ratioFx.r5 + 10) :=
  ⟨⟨rfl, rfl, rfl, rfl, rfl, by decide +kernel, by decide +kernel, by decide +kernel⟩,
    ⟨rfl, rfl, rfl, rfl, rfl, by decide +kernel, by decide +kernel, by decide +kernel, by decide +kernel⟩,
    rfl, rfl, rfl, rfl, rfl, by decide +kernel, by decide +kernel, by decide +kernel, by decide +kernel, by decide +kernel, rfl, by decide +kernel, by decide +kernel⟩

/-- Right after reset with another `bvr`, and these at the analog input. -/
def otherFed (check : Bool) (vs : List Sample) : State := { withParams (otherBvr check) (otherBvr_ok check) with ana := vs }

/-- The exact threshold of ratio `r` from the value `w`. -/
def tickOf (w r : Fx) : Int := ((w.toInt * r.toInt).tdiv 10000).tdiv 10000

/-- The premises, with and without the spacing check. What `bvr` answers there is free; each clause on a value `w` is met by one:
too large, negative, zero with the check (all gaps 0) and without, and the baseline itself with it. -/
theorem witness_CalibrationWithAnotherRatioFunction :
    (∀ c, (otherFed c [1023, 10]).chanOk .btn ∧ (otherFed c [1023, 10]).chanOk .vsense ∧ (otherFed c [1023, 10]).draw = 1023 ∧
      (otherFed c [1023, 10]).drawn.draw = 10 ∧ (otherFed c [1023, 10]).par.bvr = .other ∧
      (otherFed c [1023, 10]).par.calMin ≤ (10 : Sample).toNat ∧ (otherFed c [1023, 10]).par.calCheckSpacing = c) ∧
    (10230000 : Fx).toInt = ((1023 : Sample).toNat : Int) * 10000 ∧ (100000 : Fx).toInt = ((10 : Sample).toNat : Int) * 10000 ∧
    65535 < tickOf 2147483647 7000 ∧ tickOf (-20000) 7000 < 0 ∧
    (∀ r, tickOf 0 r = 0) ∧ tickOf 10230000 7000 ≤ 65535 ∧ 0 ≤ tickOf 10230000 500 ∧
    tickOf 10230000 7000 + 10 < 1023 ∧ tickOf 10230000 5000 + 10 < tickOf 10230000 7000 ∧
    tickOf 10230000 3000 + 10 < tickOf 10230000 5000 ∧ tickOf 10230000 1500 + 10 < tickOf 10230000 3000 ∧
    tickOf 10230000 500 + 10 < tickOf 10230000 1500 :=
  ⟨(by intro c; cases c <;> exact ⟨rfl, rfl, rfl, rfl, rfl, by decide +kernel, rfl⟩),
    by decide, by decide, by decide +kernel, by decide +kernel, (by intro r; simp [tickOf]), by decide +kernel⟩

/-- Ratios that pass the check of rule R172, and decreasing ones that do not. -/
theorem test_ratios_checked : Ratios.Checked ⟨7000, 5000, 3000, 1500, 500⟩ ∧ ¬ Ratios.Checked ⟨5, 4, 3, 2, 1⟩ := by decide

theorem witness_CalibrationAtNominalSupply :
    (fed [1023, 800]).chanOk .btn ∧ (fed [1023, 800]).chanOk .vsense ∧ (fed [1023, 800]).draw = 1023 ∧
    (fed [1023, 800]).drawn.draw = 800 ∧ (fed [1023, 800]).par.bvr = .rescaled ∧ (fed [1023, 800]).par.calCheckSpacing = false ∧
    (fed [1023, 800]).par.calMin ≤ (1023 : Sample).toNat ∧ (800 : Sample).toNat = (fed [1023, 800]).par.vNomTicks :=
  ⟨rfl, rfl, rfl, rfl, rfl, rfl, by decide, rfl⟩

/-- A calibration that completes, and one that faults. -/
theorem witness_CalibrationIsAllOrNothing :
    ((fed [1023, 640]).noFault ∧ exec .calib (fed [1023, 640]) = .next (answer (exec .calib (fed [1023, 640]))) ∧
      (answer (exec .calib (fed [1023, 640]))).fault.kind = 0) ∧
    ((fed [0, 0]).noFault ∧ exec .calib (fed [0, 0]) = .next (answer (exec .calib (fed [0, 0]))) ∧
      (answer (exec .calib (fed [0, 0]))).fault.kind ≠ 0) :=
  ⟨⟨rfl, answers _ _, by decide +kernel⟩, rfl, answers _ _, by decide +kernel⟩

theorem witness_CalibrationNeverOverflows :
    (lowFed [1023, 1023]).noFault ∧ 10 ≤ (lowFed [1023, 1023]).par.calMin ∧ (lowFed [1023, 1023]).par.bvr = .rescaled ∧
    exec .calib (lowFed [1023, 1023]) = .next (answer (exec .calib (lowFed [1023, 1023]))) ∧
    (answer (exec .calib (lowFed [1023, 1023]))).fault.kind = 1 :=
  ⟨rfl, by decide, rfl, answers _ _, by decide +kernel⟩

theorem witness_ClassifyAnswersTheLowestMatch : calibrated.clsState = .calibrated := rfl

theorem witness_ReadRawReturnsTheSample : (fed [1023]).chanOk .btn ∧ (fed [1023]).draw = 1023 ∧ ¬ broken.chanOk .btn :=
  ⟨rfl, rfl, by intro h; cases h⟩

/-- A press, a sample at the release threshold, and an invalid channel. -/
theorem witness_EdgeDetectsThePress :
    ((fed [899]).chanOk .btn ∧ (fed [899]).draw = 899 ∧ (fed [899]).par.tRelease ≤ (fed [899]).prev.toNat ∧
      (899 : Sample).toNat < (fed [899]).par.tRelease) ∧
    ((fed [900]).chanOk .btn ∧ (fed [900]).draw = 900 ∧ ¬ (900 : Sample).toNat < (fed [900]).par.tRelease) ∧
    ¬ broken.chanOk .btn :=
  ⟨⟨rfl, rfl, by decide, by decide⟩, ⟨rfl, rfl, by decide⟩, by intro h; cases h⟩

theorem witness_EdgeSequenceExample :
    (fed [1023, 1023, 400, 1023]).chanOk .btn ∧ (fed [1023, 1023, 400, 1023]).prev = 1023 ∧
    (fed [1023, 1023, 400, 1023]).ana = 1023 :: 1023 :: 400 :: 1023 :: [] := ⟨rfl, rfl, rfl⟩

/-- The largest sample of `EX1`, the two samples around the limit where 5 V is 10 ticks, and an invalid channel. -/
theorem witness_SenseSupplyMillivolts :
    ((fed [1023]).chanOk .vsense ∧ (fed [1023]).draw = 1023 ∧
      ((1023 : Sample).toNat : Int) * (fed [1023]).par.mvPerTickFx.toInt < 655360000) ∧
    ((lowFed [131]).chanOk .vsense ∧ (lowFed [131]).draw = 131 ∧
      ((131 : Sample).toNat : Int) * (lowFed [131]).par.mvPerTickFx.toInt < 655360000) ∧
    ((lowFed [132]).chanOk .vsense ∧ (lowFed [132]).draw = 132 ∧
      655360000 ≤ ((132 : Sample).toNat : Int) * (lowFed [132]).par.mvPerTickFx.toInt) ∧
    ¬ brokenSupply.chanOk .vsense :=
  ⟨⟨rfl, rfl, by decide⟩, ⟨rfl, rfl, by decide⟩, ⟨rfl, rfl, by decide⟩, by intro h; cases h⟩

end Sys2Proof.Tests
end

/-! # What each request and each step leaves unchanged

The frames of the two units and the case analysis of `step`, then the statements about the registers and about reset. -/

namespace Sys2Proof.Machine

/-! ## The pins a script may move -/

/-- A micro-step that moves no direction and neither `EN` nor `BL`: outside `CFGPINS` there are no others (R113, R114). -/
def MicroOp.leavesSetup (m : MicroOp) : Bool :=
  match m with
  | .dir _ _ => false
  | .write p _ => p != .en && p != .bl
  | .pulse _ _ _ => true
  | .hold _ => true
  | .loadCmd _ => true
  | .loadNib _ => true
  | .loadIdx _ => true

theorem writeByte_leavesSetup (p : Params) (b : Byte) : (writeByte p b).all MicroOp.leavesSetup = true := rfl

theorem sendCommand_leavesSetup (p : Params) (b : Byte) : (sendCommand p b).all MicroOp.leavesSetup = true := by
  have hsettle : (settle p b).all MicroOp.leavesSetup = true := by unfold settle; split <;> rfl
  simp only [sendCommand, List.all_append, writeByte_leavesSetup, hsettle]
  rfl

theorem bringUp_leavesSetup (p : Params) (bytes : List Byte) (i : Byte) :
    (bringUp p i bytes).all MicroOp.leavesSetup = true := by
  induction bytes generalizing i with
  | nil => rfl
  | cons b rest ih =>
    simp only [bringUp, List.all_append, List.all_cons, sendCommand_leavesSetup, ih]
    rfl

theorem streamText_leavesSetup (p : Params) (text : List Byte) (j : Byte) :
    (streamText p j text).all MicroOp.leavesSetup = true := by
  induction text generalizing j with
  | nil => rfl
  | cons c rest ih =>
    have hgap : (charGap p).all MicroOp.leavesSetup = true := by unfold charGap; split <;> rfl
    simp only [streamText, List.all_append, writeByte_leavesSetup, hgap, ih]
    rfl

theorem lineSteps_leavesSetup (p : Params) (a : Byte) (text : List Byte) :
    (lineSteps p a text).all MicroOp.leavesSetup = true := by
  simp only [lineSteps, List.all_append, sendCommand_leavesSetup, streamText_leavesSetup]
  rfl

/-- Only `CFGPINS` has micro-steps that set a direction or write `EN` or `BL`. -/
theorem scriptOf_leavesSetup {i : Instr} {p : Params} {ms : List MicroOp} (hi : i ≠ .cfgpins)
    (hm : scriptOf i p = some ms) : ms.all MicroOp.leavesSetup = true := by
  cases i with
  | cfgpins => exact absurd rfl hi
  | initdisp => obtain rfl := Option.some.inj hm; exact bringUp_leavesSetup p _ 0
  | sendcmd b => obtain rfl := Option.some.inj hm; exact sendCommand_leavesSetup p b
  | wrnib n => obtain rfl := Option.some.inj hm; rfl
  | wrline row text => obtain ⟨a, -, rfl⟩ := Option.map_eq_some_iff.mp hm; exact lineSteps_leavesSetup p a text
  | clear => obtain rfl := Option.some.inj hm; exact sendCommand_leavesSetup p _
  | calib | classify | rdraw | edge | sense5v => cases hm

/-- The directions and the levels of `EN` and `BL` are the same (R113). -/
structure SameSetup (s t : State) : Prop where
  pinDir : t.pinDir = s.pinDir
  en : t.pinLvl.en = s.pinLvl.en
  bl : t.pinLvl.bl = s.pinLvl.bl

theorem MicroOp.levels_of_leavesSetup {m : MicroOp} (h : m.leavesSetup = true) (f : PinBits) :
    (MicroOp.levels f m).en = f.en ∧ (MicroOp.levels f m).bl = f.bl := by
  cases m with
  | write p l =>
    cases p with
    | dl0 | dl1 | dl2 | dl3 | rs => exact ⟨rfl, rfl⟩
    | en | bl => cases h
  | dir | pulse | hold | loadCmd | loadNib | loadIdx => exact ⟨rfl, rfl⟩

theorem MicroOp.dirs_of_leavesSetup {m : MicroOp} (h : m.leavesSetup = true) (f : PinBits) : MicroOp.dirs f m = f := by
  cases m with
  | dir p o => cases h
  | write | pulse | hold | loadCmd | loadNib | loadIdx => rfl

theorem foldl_levels_of_leavesSetup {ms : List MicroOp} (h : ms.all MicroOp.leavesSetup = true) (f : PinBits) :
    (ms.foldl MicroOp.levels f).en = f.en ∧ (ms.foldl MicroOp.levels f).bl = f.bl := by
  induction ms generalizing f with
  | nil => exact ⟨rfl, rfl⟩
  | cons m ms ih =>
    obtain ⟨hm, hms⟩ := Bool.and_eq_true_iff.mp (List.all_cons.symm.trans h)
    obtain ⟨hen, hbl⟩ := MicroOp.levels_of_leavesSetup hm f
    exact ⟨(ih hms _).1.trans hen, (ih hms _).2.trans hbl⟩

theorem foldl_dirs_of_leavesSetup {ms : List MicroOp} (h : ms.all MicroOp.leavesSetup = true) (f : PinBits) :
    ms.foldl MicroOp.dirs f = f := by
  induction ms with
  | nil => rfl
  | cons m ms ih =>
    obtain ⟨hm, hms⟩ := Bool.and_eq_true_iff.mp (List.all_cons.symm.trans h)
    rw [List.foldl_cons, MicroOp.dirs_of_leavesSetup hm, ih hms]

/-- Wherever micro-steps stop, those run so far have moved the pins, and nothing outside the pins has changed. -/
theorem runMicro_state (ms : List MicroOp) (s : State) :
    SameOutsidePins s (runMicro ms s).state ∧ ∃ done rest, ms = done ++ rest ∧
      (runMicro ms s).state.pinLvl = done.foldl MicroOp.levels s.pinLvl ∧
      (runMicro ms s).state.pinDir = done.foldl MicroOp.dirs s.pinDir := by
  obtain ⟨done, rest, hms, -, t, hsame, -, hlvl, hdir, ⟨_, hrun⟩ | ⟨_, _, _, _, _, _, hrun⟩⟩ := runMicro_cases ms s
  all_goals
    rw [hrun]
    exact ⟨hsame, done, rest, hms, hlvl, hdir⟩

/-- Wherever the micro-steps of `i` stop, the set-up of the pins is as before, unless `i` is `CFGPINS`. -/
theorem runMicro_sameSetup {i : Instr} {s : State} {ms : List MicroOp} (hm : scriptOf i s.par = some ms) :
    SameSetup s (runMicro ms s).state ∨ i = .cfgpins := by
  by_cases hi : i = .cfgpins
  · exact .inr hi
  · obtain ⟨-, done, rest, rfl, hlvl, hdir⟩ := runMicro_state ms s
    have hdone : done.all MicroOp.leavesSetup = true :=
      (Bool.and_eq_true_iff.mp (List.all_append.symm.trans (scriptOf_leavesSetup hi hm))).1
    obtain ⟨hen, hbl⟩ := foldl_levels_of_leavesSetup hdone s.pinLvl
    exact .inl ⟨hdir.trans (foldl_dirs_of_leavesSetup hdone _), by rw [hlvl, hen], by rw [hlvl, hbl]⟩

/-! ## The frame of each unit -/

/-- What a request of either unit leaves as it is (R36, R66, R67). -/
structure SameSequencer (s t : State) : Prop where
  cfg : t.cfg = s.cfg
  rp : t.rp = s.rp
  req : t.req = s.req
  rst : t.rst = s.rst

/-- What the Unit L request `i` may change: the pins and `LCD_STATE`, and these only as R113 and R136 allow. -/
structure UnitLFrame (i : Instr) (s t : State) : Prop where
  sequencer : SameSequencer s t
  thr : t.thr = s.thr
  prev : t.prev = s.prev
  clsState : t.clsState = s.clsState
  ana : t.ana = s.ana
  lcdState : t.lcdState = s.lcdState ∨ i = .cfgpins ∨ i = .initdisp
  setup : SameSetup s t ∨ i = .cfgpins

/-- What the Unit B request `i` may change: its own registers, each only as R21, R24 and R29 allow, and its inputs. -/
structure UnitBFrame (i : Instr) (s t : State) : Prop where
  sequencer : SameSequencer s t
  lcdState : t.lcdState = s.lcdState
  pinDir : t.pinDir = s.pinDir
  pinLvl : t.pinLvl = s.pinLvl
  table : (t.thr = s.thr ∧ t.clsState = s.clsState) ∨ (i = .calib ∧ t.clsState = .calibrated)
  prev : t.prev = s.prev ∨ i = .edge

/-- Only `CFGPINS` and `INITDISP` give `LCD_STATE` a new value (R136). -/
theorem lcdAfter_cases (i : Instr) (l : LcdState) : lcdAfter i l = l ∨ i = .cfgpins ∨ i = .initdisp := by
  cases i with
  | cfgpins => exact .inr (.inl rfl)
  | initdisp => exact .inr (.inr rfl)
  | sendcmd | wrnib | wrline | clear | calib | classify | rdraw | edge | sense5v => exact .inl rfl

/-- A fault entry at the gate or at the argument check changes no register but `FAULT` (R196). -/
theorem UnitLFrame.of_raise (i : Instr) (s : State) (k : FaultKind) (op : Byte) (a : Aux) :
    UnitLFrame i s (s.raise k op a) :=
  ⟨⟨rfl, rfl, rfl, rfl⟩, rfl, rfl, rfl, rfl, .inl rfl, .inl ⟨rfl, rfl, rfl⟩⟩

/-- The frame holds wherever the micro-steps of `i` stop. -/
theorem UnitLFrame.of_script {i : Instr} {s : State} {ms : List MicroOp} (hm : scriptOf i s.par = some ms) :
    UnitLFrame i s (runMicro ms s).state := by
  obtain ⟨hsame, -⟩ := runMicro_state ms s
  exact ⟨⟨hsame.cfg, hsame.rp, hsame.req, hsame.rst⟩, hsame.thr, hsame.prev, hsame.clsState, hsame.ana,
    .inl hsame.lcdState, runMicro_sameSetup hm⟩

/-- A Unit L request stays within the frame of its unit, in each of its outcomes. -/
theorem UnitLOutcome.frame {i : Instr} {s t : State} (h : UnitLOutcome i s t) : UnitLFrame i s t := by
  cases h with
  | misuse => exact .of_raise ..
  | argument => exact .of_raise ..
  | ioError ms p u hm _ _ hu =>
    have hrun := UnitLFrame.of_script hm
    rw [hu, Res.state_raised] at hrun
    exact { hrun with
      sequencer := { hrun.sequencer with }
      setup := hrun.setup.imp_left fun h => { h with } }
  | completes ms u hm _ hu =>
    have hrun := UnitLFrame.of_script hm
    rw [hu, Res.state_done] at hrun
    exact { hrun with
      sequencer := { hrun.sequencer with }
      lcdState := (lcdAfter_cases i u.lcdState).elim (fun h => hrun.lcdState.imp_left h.trans) .inr
      setup := hrun.setup.imp_left fun h => { h with } }

section UnitBFrame
variable {i : Instr} {s u : State}

theorem UnitBFrame.refl (i : Instr) (s : State) : UnitBFrame i s s :=
  ⟨⟨rfl, rfl, rfl, rfl⟩, rfl, rfl, rfl, .inl ⟨rfl, rfl⟩, .inl rfl⟩

theorem UnitBFrame.read (h : UnitBFrame i s u) (c : Chan) (v : Sample) : UnitBFrame i s (u.drawn.emit (.adc c v)) := by
  obtain ⟨⟨hcfg, hrp, hreq, hrst⟩, hlcd, hdir, hlvl, htable, hprev⟩ := h
  exact ⟨⟨by simpa, by simpa, by simpa, by simpa⟩, by simpa, by simpa, by simpa, by simpa, by simpa⟩

theorem UnitBFrame.idle (h : UnitBFrame i s u) : UnitBFrame i s u.idle :=
  { h with sequencer := { h.sequencer with } }

theorem UnitBFrame.rsp (h : UnitBFrame i s u) (bytes : List Byte) : UnitBFrame i s (u.rsp bytes) :=
  { h with sequencer := { h.sequencer with } }

theorem UnitBFrame.raise (h : UnitBFrame i s u) (k : FaultKind) (op : Byte) (a : Aux) : UnitBFrame i s (u.raise k op a) :=
  { h with sequencer := { h.sequencer with } }

/-- `CALIB` stores its table and sets `CLS_STATE` (R170). -/
theorem UnitBFrame.commit (h : UnitBFrame .calib s u) (f : ThrFile) :
    UnitBFrame .calib s { u with thr := f, clsState := .calibrated } :=
  { h with sequencer := { h.sequencer with }, table := .inr ⟨rfl, rfl⟩ }

/-- `EDGE` stores its sample (R181). -/
theorem UnitBFrame.storePrev (h : UnitBFrame .edge s u) (x : Ticks) : UnitBFrame .edge s { u with prev := x } :=
  { h with sequencer := { h.sequencer with }, prev := .inr rfl }

end UnitBFrame

/-- A Unit B request stays within the frame of its unit, in each of its outcomes. -/
theorem UnitBFrame.of_exec {i : Instr} (hi : isUnitL i = false) {s t : State} (h : exec i s = .next t) :
    UnitBFrame i s t := by
  have start := UnitBFrame.refl i s
  cases i with
  | cfgpins | initdisp | sendcmd | wrnib | wrline | clear => cases hi
  | calib =>
    obtain ⟨-, e⟩ | ⟨-, -, e⟩ | ⟨-, -, ⟨a, -, e⟩ | ⟨f, -, e⟩⟩ := execCalib_cases s <;>
      obtain rfl := Host.Outcome.next.inj (e.symm.trans h)
    · exact start.idle.raise ..
    · exact (start.read ..).idle.raise ..
    · exact ((start.read ..).read ..).idle.raise ..
    · exact (((start.read ..).read ..).commit f).idle.rsp _
  | classify x =>
    obtain ⟨-, e⟩ | ⟨-, e⟩ := execClassify_cases x s <;> obtain rfl := Host.Outcome.next.inj (e.symm.trans h)
    · exact start.rsp _
    · exact start.raise ..
  | rdraw =>
    obtain ⟨-, e⟩ | ⟨-, e⟩ := execRdraw_cases s <;> obtain rfl := Host.Outcome.next.inj (e.symm.trans h)
    · exact (start.read ..).idle.rsp _
    · exact start.idle.raise ..
  | edge =>
    obtain ⟨-, e⟩ | ⟨-, e⟩ := execEdge_cases s <;> obtain rfl := Host.Outcome.next.inj (e.symm.trans h)
    · exact ((start.read ..).storePrev _).idle.rsp _
    · exact start.idle.raise ..
  | sense5v =>
    obtain ⟨-, ⟨m, -, e⟩ | ⟨a, -, e⟩⟩ | ⟨-, e⟩ := execSense5v_cases s <;>
      obtain rfl := Host.Outcome.next.inj (e.symm.trans h)
    · exact (start.read ..).idle.rsp _
    · exact (start.read ..).idle.raise ..
    · exact start.idle.raise ..

/-- No request of either unit touches the sequencer's registers (R36, R66, R67). -/
theorem exec_sameSequencer {i : Instr} {s t : State} (h : exec i s = .next t) : SameSequencer s t := by
  cases hi : isUnitL i with
  | true => exact (unitL_of_exec hi h).frame.sequencer
  | false => exact (UnitBFrame.of_exec hi h).sequencer

/-- Settles O18: the sequencer's part of the frame of either unit. -/
theorem operationsLeaveTheSequencer : Obligations.OperationsLeaveTheSequencer := by
  intro i s t h
  obtain ⟨hcfg, hrp, hreq, hrst⟩ := exec_sameSequencer h
  exact ⟨hcfg, hrp, hreq, hrst, fun a => by rw [hreq]⟩

/-! ## What a step can do -/

/-- The outcomes of a step: the branches of `turn` and of `runDecoded` (R66, R95, R96, R197, R220). -/
inductive StepOutcome (s : State) : State → Prop where
  | reset (hr : s.rst = true) : StepOutcome s s.afterReset
  | halted (hr : s.rst = false) (hf : ¬ s.noFault) : StepOutcome s s
  | waits (hr : s.rst = false) (hf : s.noFault) (hd : decode s.fetchBytes = .incomplete) : StepOutcome s s
  | illegalOpcode (op : Byte) (hr : s.rst = false) (hf : s.noFault) (hd : decode s.fetchBytes = .illegalOpcode op) :
      StepOutcome s ((s.advance 1).raise .illegalRequest op (op.setWidth 16))
  | reservedOperand (op imm : Byte) (hr : s.rst = false) (hf : s.noFault)
      (hd : decode s.fetchBytes = .reservedOperand op imm) :
      StepOutcome s ((s.advance 2).raise .illegalRequest op (imm.setWidth 16))
  | request (i : Instr) (n : Nat) (t : State) (hr : s.rst = false) (hf : s.noFault)
      (hd : decode s.fetchBytes = .request i n) (he : exec i (s.advance n) = .next t) : StepOutcome s t

theorem FaultReg.halted_iff (f : FaultReg) : f.halted = true ↔ f.kind ≠ 0 := bne_iff_ne

theorem step_of_rst {s : State} (hr : s.rst = true) : step s = .next s.afterReset := if_pos hr

theorem step_of_fault {s : State} (hr : s.rst = false) (hf : ¬ s.noFault) : step s = .next s := by
  have hh : s.fault.halted = true := s.fault.halted_iff.mpr hf
  simp [step, turn, hr, hh]

theorem step_of_noFault {s : State} (hr : s.rst = false) (hf : s.noFault) :
    step s = runDecoded (decode s.fetchBytes) s := by
  have hh : ¬ s.fault.halted = true := fun h => s.fault.halted_iff.mp h hf
  simp [step, turn, hr, hh]

/-- Everything a step can do. -/
theorem StepOutcome.of_step {s t : State} (h : step s = .next t) : StepOutcome s t := by
  cases hr : s.rst with
  | true =>
    obtain rfl := Host.Outcome.next.inj ((step_of_rst hr).symm.trans h)
    exact .reset hr
  | false =>
    by_cases hf : s.noFault
    · rw [step_of_noFault hr hf] at h
      cases hd : decode s.fetchBytes with rw [hd] at h
      | request i n => exact .request i n t hr hf hd h
      | illegalOpcode op => obtain rfl := Host.Outcome.next.inj h; exact .illegalOpcode op hr hf hd
      | reservedOperand op imm => obtain rfl := Host.Outcome.next.inj h; exact .reservedOperand op imm hr hf hd
      | incomplete => obtain rfl := Host.Outcome.next.inj h; exact .waits hr hf hd
    · obtain rfl := Host.Outcome.next.inj ((step_of_fault hr hf).symm.trans h)
      exact .halted hr hf

/-- Which registers may have changed when the requests in `ran` have run (R21, R24, R28, R29, R113). -/
structure RegisterFrame (ran : Instr → Prop) (s t : State) : Prop where
  table : (t.thr = s.thr ∧ t.clsState = s.clsState) ∨ (ran .calib ∧ t.clsState = .calibrated)
  prev : t.prev = s.prev ∨ ran .edge
  lcdState : t.lcdState = s.lcdState ∨ ran .cfgpins ∨ ran .initdisp
  setup : SameSetup s t ∨ ran .cfgpins

/-- A request writes only its own registers. -/
theorem RegisterFrame.of_exec {i : Instr} {s t : State} (h : exec i s = .next t) : RegisterFrame (i = ·) s t := by
  cases hi : isUnitL i with
  | true =>
    have hL := (unitL_of_exec hi h).frame
    exact ⟨.inl ⟨hL.thr, hL.clsState⟩, .inl hL.prev, hL.lcdState, hL.setup⟩
  | false =>
    have hB := UnitBFrame.of_exec hi h
    exact ⟨hB.table, hB.prev, .inl hB.lcdState, .inl ⟨hB.pinDir, by rw [hB.pinLvl], by rw [hB.pinLvl]⟩⟩

/-- The request `i` stands at the request pointer (R66). -/
def State.fetches (s : State) (i : Instr) : Prop := ∃ n, decode s.fetchBytes = .request i n

/-- A step that is no reset writes no register but those of the request it fetches, `FAULT` and `RP`. -/
theorem step_registerFrame {s t : State} (hr : s.rst = false) (h : step s = .next t) :
    RegisterFrame s.fetches s t := by
  cases StepOutcome.of_step h with
  | reset hr' => rw [hr] at hr'; cases hr'
  | halted | waits | illegalOpcode | reservedOperand =>
    exact ⟨.inl ⟨rfl, rfl⟩, .inl rfl, .inl rfl, .inl ⟨rfl, rfl, rfl⟩⟩
  | request i n _ _ _ hd he =>
    -- `RP` has advanced past the request; no register below depends on it.
    have fetched : ∀ j, i = j → s.fetches j := fun _ hj => hj ▸ ⟨n, hd⟩
    obtain ⟨htable, hprev, hlcd, hsetup⟩ := RegisterFrame.of_exec he
    exact ⟨htable.imp_right (.imp_left (fetched _)), hprev.imp_right (fetched _),
      hlcd.imp_right (.imp (fetched _) (fetched _)),
      hsetup.imp (fun h => { h with }) (fetched _)⟩

/-- Settles O28: a register that differs after the step is one the fetched request may write. -/
theorem onlyTheirRequestsWriteTheRegisters : Obligations.OnlyTheirRequestsWriteTheRegisters := by
  intro s t hr h
  obtain ⟨htable, hprev, hlcd, hsetup⟩ := step_registerFrame hr h
  refine ⟨fun hne => ?thr, hprev.resolve_left, fun hne => ?clsState, fun hne => ?lcdState, fun hne => ?pinDir,
    fun hne => ?bl, fun hne => ?en, fun hf => ?fault⟩
  case thr => exact (htable.resolve_left fun h => hne h.1).1
  case clsState => exact (htable.resolve_left fun h => hne h.2).symm
  case lcdState =>
    obtain ⟨n, hd⟩ | ⟨n, hd⟩ := hlcd.resolve_left hne
    · exact ⟨_, n, hd, .inl rfl⟩
    · exact ⟨_, n, hd, .inr rfl⟩
  case pinDir => exact hsetup.resolve_left fun h => hne h.pinDir
  case bl => exact hsetup.resolve_left fun h => hne h.bl
  case en => exact hsetup.resolve_left fun h => hne h.en
  case fault => rw [← Host.Outcome.next.inj ((step_of_fault hr hf).symm.trans h)]

/-! ## Reset -/

/-- Reset meets the invariant whatever it interrupts, as long as the request space is in canonical form (R220). -/
theorem State.afterReset_inv {s : State} (hreq : s.req.wf) : s.afterReset.Inv where
  idle_upc := rfl
  idle_tmr := rfl
  req_wf := Memory.rebase_wf hreq s.rp
  fault_code := Nat.zero_le 5
  configured h := absurd rfl h
  calibrated h := by cases h
  prev_sample := .inl rfl

/-- With nothing sent, reset again is no change. -/
theorem reset_afterReset : State.reset.afterReset = State.reset := rfl

/-- Settles O12: the fields of the state after reset. -/
theorem resetInputGivesResetValues : Obligations.ResetInputGivesResetValues := by
  intro s hr
  exact ⟨s.afterReset, step_of_rst hr, rfl, rfl, rfl, rfl, rfl, rfl, rfl, rfl, rfl, rfl⟩

/-- `PREV_INIT` has a default, so the OPEN parameters leave it alone (R9). -/
theorem chip_prevInit : Config.chip.val.prevInit = 1023 := rfl

/-- Settles O13: the fields of the reset state, with `PREV_INIT` at its default (`chip_prevInit`). -/
theorem resetStateValues : Obligations.ResetStateValues :=
  ⟨rfl, rfl, rfl, congrArg BitVec.toNat chip_prevInit, PerPin.get_const false, rfl, rfl, rfl, rfl⟩

/-- Settles O17: the reset state is its own state after reset. -/
theorem resetMeetsTheInvariant : Obligations.ResetMeetsTheInvariant := by
  have hreq : State.reset.req.wf := List.Pairwise.nil
  unfold Obligations.ResetMeetsTheInvariant
  rw [← reset_afterReset]
  exact State.afterReset_inv hreq

/-! ## Words and their bytes -/

/-- The high byte times 256 and the low byte make the value (R20). -/
theorem ThrEntry.toNat_bytes (t : Ticks) :
    t.toNat = (ThrEntry.ofTicks t).hi.toNat * 256 + (ThrEntry.ofTicks t).lo.toNat := by
  have hlt := t.isLt
  simp only [ThrEntry.ofTicks, BitVec.extractLsb'_toNat, Nat.shiftRight_eq_div_pow]
  omega

theorem ThrEntry.ticks_ofTicks (t : Ticks) : (ThrEntry.ofTicks t).ticks = t := by
  change t.extractLsb' 8 8 ++ t.extractLsb' 0 8 = t
  rw [BitVec.extractLsb'_append_extractLsb'_eq_extractLsb' (rfl : 8 = 0 + 8), BitVec.extractLsb'_eq_self]

/-- The four bytes of a word, most significant first, put together are the word (R150). -/
theorem fxWord_bytes (f : Fx) :
    fxWord (f.extractLsb' 24 8) (f.extractLsb' 16 8) (f.extractLsb' 8 8) (f.extractLsb' 0 8) = f := by
  rw [fxWord, BitVec.extractLsb'_append_extractLsb'_eq_extractLsb' (rfl : 24 = 16 + 8),
    BitVec.extractLsb'_append_extractLsb'_eq_extractLsb' (rfl : 16 = 8 + 8),
    BitVec.extractLsb'_append_extractLsb'_eq_extractLsb' (rfl : 8 = 0 + 8), BitVec.extractLsb'_eq_self]

/-- Settles O5: adjacent bytes of a word join to the part of the word they span. -/
theorem storedBytesReadBack : Obligations.StoredBytesReadBack :=
  ⟨fun t => ⟨ThrEntry.ticks_ofTicks t, ThrEntry.toNat_bytes t⟩, fun f => ⟨_, _, _, _, rfl, fxWord_bytes f⟩⟩

end Sys2Proof.Machine

/-! # The requests in the request space, and the separation of the two units

Which request a step takes from the bytes that stand at `RP`, what two runs of one unit have in common when only the other unit
differs, and what a line puts on the display bus. -/

/-! ## Decoding what was encoded -/

namespace Sys2Proof

@[simp] theorem Opcode.ofByte?_code (o : Opcode) : Opcode.ofByte? o.code = some o := by
  cases o <;> rfl

/-- A nibble fills the lower half of its operand byte and leaves the upper half zero (R96). -/
theorem decodeWrnib_operand (n : Nibble) : decodeWrnib (0#4 ++ n) = .request (.wrnib n) 2 := by
  have hhi : (0#4 ++ n).extractLsb' 4 4 = 0#4 := BitVec.extractLsb'_append_eq_left
  have hlo : (0#4 ++ n).extractLsb' 0 4 = n := BitVec.extractLsb'_append_eq_right
  simp only [decodeWrnib, hhi, hlo, if_true]

/-- The length byte counts the characters, since there are at most 255 (R88). -/
theorem decodeWrline_operands (row : Byte) {text : List Byte} (h : text.length ≤ 255) (rest : List Byte) :
    decodeWrline (row :: BitVec.ofNat 8 text.length :: (text ++ rest)) = .request (.wrline row text) (3 + text.length) := by
  have hlen : (BitVec.ofNat 8 text.length).toNat = text.length := by rw [BitVec.toNat_ofNat]; omega
  simp only [decodeWrline, hlen, List.take_left, if_true]

/-- The operands of a request are read back from its operand bytes, whatever follows them (R85 to R91). -/
theorem decodeOperands_operandBytes {i : Instr} (h : i.WellFormed) (rest : List Byte) :
    decodeOperands i.opcode (i.operandBytes ++ rest) = .request i (encode i).length := by
  cases i with
  | cfgpins | initdisp | clear | calib | rdraw | edge | sense5v | sendcmd b => rfl
  | wrnib n => exact decodeWrnib_operand n
  | wrline row text =>
    refine (decodeWrline_operands row (of_decide_eq_true h) rest).trans ?_
    simp only [encode, Instr.operandBytes, List.length_cons]
    congr 1
    omega
  | classify x =>
    have hx : x.extractLsb' 8 8 ++ x.extractLsb' 0 8 = x := Machine.ThrEntry.ticks_ofTicks x
    exact congrArg (fun y => Decoded.request (.classify y) 3) hx

/-- The bytes of a request, whatever follows them, decode to that request and its length (R84 to R91). -/
theorem decode_encode_append {i : Instr} (h : i.WellFormed) (rest : List Byte) :
    decode (encode i ++ rest) = .request i (encode i).length := by
  simp only [encode, List.cons_append, decode, Opcode.ofByte?_code]
  exact decodeOperands_operandBytes h rest

/-- Every request fits the fetch (R88). -/
theorem encode_length_le {i : Instr} (h : i.WellFormed) : (encode i).length ≤ maxRequest := by
  have hlen : Laws.Length.Statement i := by
    cases i with
    | cfgpins => exact Laws.Length.cfgpins
    | initdisp => exact Laws.Length.initdisp
    | sendcmd b => exact Laws.Length.sendcmd b
    | wrnib n => exact Laws.Length.wrnib n
    | wrline row text => exact Laws.Length.wrline row text
    | clear => exact Laws.Length.clear
    | calib => exact Laws.Length.calib
    | classify x => exact Laws.Length.classify x
    | rdraw => exact Laws.Length.rdraw
    | edge => exact Laws.Length.edge
    | sense5v => exact Laws.Length.sense5v
  exact (hlen h).2.2

end Sys2Proof

namespace Sys2Proof.Machine

/-! ## The request that stands at the request pointer -/

/-- Settles O6: a block that neither is reset nor halted runs what it decodes. -/
theorem stepRunsTheDecodedRequest : Obligations.StepRunsTheDecodedRequest := by
  intro s i n hr hf hd
  rw [step_of_noFault hr hf, hd]
  rfl

/-- Settles O8: the same for bytes that are no whole request yet. -/
theorem stepWaitsForTheRequest : Obligations.StepWaitsForTheRequest := by
  intro s hr hf hd
  rw [step_of_noFault hr hf, hd]
  rfl

/-- Settles O7: the fetch begins with the bytes of the request, so it decodes to that request. -/
theorem stepRunsTheEncodedRequest : Obligations.StepRunsTheEncodedRequest := by
  intro s i hr hf hwf hbytes
  obtain ⟨rest, hfetch⟩ := Memory.fetch_prefix s.req (encode i) s.rp maxRequest (encode_length_le hwf) hbytes
  have hd : decode s.fetchBytes = .request i (encode i).length := by
    rw [State.fetchBytes, hfetch, decode_encode_append hwf]
  exact stepRunsTheDecodedRequest s i _ hr hf hd

/-! ## Two runs side by side -/

/-- Two results that end alike, or raise the same fault, in states that `R` relates. -/
inductive Res.Alike (R : State → State → Prop) : Res → Res → Prop where
  | done {u u' : State} (h : R u u') : Res.Alike R (.done u) (.done u')
  | raised {u u' : State} (k : FaultKind) (a : Aux) (h : R u u') : Res.Alike R (.raised k a u) (.raised k a u')

section Alike
variable {R : State → State → Prop} {r r' : Res}

theorem Res.Alike.andThen (h : Res.Alike R r r') {f f' : State → Res} (hf : ∀ u u', R u u' → Res.Alike R (f u) (f' u')) :
    Res.Alike R (r.andThen f) (r'.andThen f') := by
  cases h with
  | done h => exact hf _ _ h
  | raised k a h => exact .raised k a h

theorem Res.Alike.map (h : Res.Alike R r r') {f : State → State} (hf : ∀ u u', R u u' → R (f u) (f u')) :
    Res.Alike R (r.map f) (r'.map f) := by
  cases h with
  | done h => exact .done (hf _ _ h)
  | raised k a h => exact .raised k a (hf _ _ h)

theorem Res.Alike.request (o : Opcode) {body : State → Res} {s s' : State} (h : Res.Alike R (body s) (body s'))
    (hraise : ∀ k a u u', R u u' → R (u.raise k o.code a) (u'.raise k o.code a)) :
    R (request o body s) (request o body s') := by
  generalize hr : body s = r, hr' : body s' = r' at h
  cases h with
  | done h => rwa [request_done hr, request_done hr']
  | raised k a h =>
    rw [request_raised hr, request_raised hr']
    exact hraise k a _ _ h

end Alike

/-- Since their records were `b` and `b'`, two runs have emitted the same events, all of the kind `P`. -/
def EmitAlike (P : Event → Prop) (b b' : List Event) (u u' : State) : Prop :=
  ∃ es, (∀ e ∈ es, P e) ∧ u.trace = b ++ es ∧ u'.trace = b' ++ es

section EmitAlike
variable {P : Event → Prop} {b b' : List Event} {s s' u u' t t' : State}

theorem EmitAlike.refl (P : Event → Prop) (s s' : State) : EmitAlike P s.trace s'.trace s s' :=
  ⟨[], by simp, by simp, by simp⟩

theorem EmitAlike.append (h : EmitAlike P b b' u u') {es : List Event} (hP : ∀ e ∈ es, P e) (ht : t.trace = u.trace ++ es)
    (ht' : t'.trace = u'.trace ++ es) : EmitAlike P b b' t t' := by
  obtain ⟨es₀, hP₀, hu, hu'⟩ := h
  refine ⟨es₀ ++ es, fun e he => ?_, by simp [ht, hu], by simp [ht', hu']⟩
  exact (List.mem_append.mp he).elim (hP₀ e) (hP e)

theorem EmitAlike.emitted (h : EmitAlike P s.trace s'.trace t t') :
    emitted s t = emitted s' t' ∧ ∀ e ∈ emitted s t, P e := by
  obtain ⟨es, hP, ht, ht'⟩ := h
  rw [emitted_of_trace ht, emitted_of_trace ht']
  exact ⟨rfl, hP⟩

end EmitAlike

/-! ## Unit L beside another Unit B -/

/-- An event of the display side: anything but an analog read. -/
def Event.ofUnitL (e : Event) : Prop := ∀ c v, e ≠ .adc c v

/-- Two runs that Unit L cannot tell apart: the same parameters and registers of its own, the same events since `b` and `b'`. -/
structure UnitLAlike (b b' : List Event) (u u' : State) : Prop where
  cfg : u.cfg = u'.cfg
  lcdState : u.lcdState = u'.lcdState
  pinDir : u.pinDir = u'.pinDir
  pinLvl : u.pinLvl = u'.pinLvl
  emits : EmitAlike Event.ofUnitL b b' u u'

section UnitL
variable {b b' : List Event} {u u' : State}

theorem UnitLAlike.par (h : UnitLAlike b b' u u') : u.par = u'.par := congrArg Subtype.val h.cfg

theorem UnitLAlike.phys (h : UnitLAlike b b' u u') (p : Pin) : u.phys p = u'.phys p := by
  rw [State.phys, State.phys, h.par]

theorem UnitLAlike.pinOk (h : UnitLAlike b b' u u') (p : Pin) : u.pinOk p = u'.pinOk p := by
  rw [State.pinOk, State.pinOk, h.par, h.phys]

theorem UnitLAlike.rsp (h : UnitLAlike b b' u u') (bytes : List Byte) : UnitLAlike b b' (u.rsp bytes) (u'.rsp bytes) :=
  { h with emits := h.emits.append (es := [.rsp bytes]) (by simp [Event.ofUnitL]) rfl rfl }

theorem UnitLAlike.raise (h : UnitLAlike b b' u u') (k : FaultKind) (op : Byte) (a : Aux) :
    UnitLAlike b b' (u.raise k op a) (u'.raise k op a) :=
  { h.rsp [k.status] with }

theorem UnitLAlike.of_request {o : Opcode} {body : State → Res}
    (h : Res.Alike (UnitLAlike b b') (body u) (body u')) : UnitLAlike b b' (request o body u) (request o body u') :=
  h.request o fun k a _ _ h => h.raise k o.code a

/-- The latches and their free values are no part of what Unit L answers (R35). -/
theorem UnitLAlike.idle_dropLatches (h : UnitLAlike b b' u u') : UnitLAlike b b' u.idle.dropLatches u'.idle.dropLatches :=
  { h with }

theorem MicroOp.events_ofUnitL (m : MicroOp) : ∀ e ∈ m.events, e.ofUnitL := by
  cases m <;> simp [MicroOp.events, Event.ofUnitL]

theorem UnitLAlike.run (h : UnitLAlike b b' u u') (m : MicroOp) : Res.Alike (UnitLAlike b b') (m.run u) (m.run u') := by
  obtain ⟨hok, t, hrun, hsame, htr, hlvl, hdir⟩ | ⟨p, hp, hbad, hrun⟩ := m.run_cases u <;>
    obtain ⟨hok', t', hrun', hsame', htr', hlvl', hdir'⟩ | ⟨p', hp', hbad', hrun'⟩ := m.run_cases u'
  · rw [hrun, hrun']
    exact .done ⟨by rw [hsame.cfg, hsame'.cfg, h.cfg], by rw [hsame.lcdState, hsame'.lcdState, h.lcdState],
      by rw [hdir, hdir', h.pinDir], by rw [hlvl, hlvl', h.pinLvl], h.emits.append m.events_ofUnitL htr htr'⟩
  · rw [← h.pinOk, hok p' hp'] at hbad'
    cases hbad'
  · rw [h.pinOk, hok' p hp] at hbad
    cases hbad
  · obtain rfl := Option.some.inj (hp.symm.trans hp')
    rw [hrun, hrun', h.phys]
    exact .raised _ _ h

theorem UnitLAlike.runMicro (h : UnitLAlike b b' u u') (ms : List MicroOp) :
    Res.Alike (UnitLAlike b b') (runMicro ms u) (runMicro ms u') := by
  induction ms generalizing u u' with
  | nil => exact .done h
  | cons m ms ih => exact (h.run m).andThen fun _ _ => ih

theorem UnitLAlike.unitL (h : UnitLAlike b b' u u') (script : Params → List MicroOp) :
    Res.Alike (UnitLAlike b b') (unitL (script u.par) u) (unitL (script u'.par) u') := by
  rw [← h.par]
  exact (h.runMicro _).map fun _ _ => UnitLAlike.idle_dropLatches

theorem UnitLAlike.needLcd (h : UnitLAlike b b' u u') (st : LcdState) :
    Res.Alike (UnitLAlike b b') (needLcd st u) (needLcd st u') := by
  simp only [Machine.needLcd, ← h.lcdState]
  split
  · exact .done h
  · exact .raised _ _ h

theorem UnitLAlike.setLcd (h : UnitLAlike b b' u u') (st : LcdState) :
    Res.Alike (UnitLAlike b b') (setLcd st u) (setLcd st u') :=
  .done { h with lcdState := rfl }

theorem UnitLAlike.writeLine (h : UnitLAlike b b' u u') (row : Byte) (text : List Byte) :
    Res.Alike (UnitLAlike b b') (writeLine row text u) (writeLine row text u') := by
  unfold Machine.writeLine
  split
  · exact .raised _ _ h
  · next a _ => exact h.unitL fun p => lineSteps p a text

theorem UnitLAlike.respond (h : UnitLAlike b b' u u') (payload : List Byte) :
    Res.Alike (UnitLAlike b b') (respond payload u) (respond payload u') :=
  .done (h.rsp _)

/-- Gate, operation, response: what Unit L does depends on nothing but its own registers and the parameters (R72). -/
theorem UnitLAlike.exec_alike (h : UnitLAlike b b' u u') {i : Instr} (hi : isUnitL i = true) :
    ∃ t t', exec i u = .next t ∧ exec i u' = .next t' ∧ UnitLAlike b b' t t' := by
  cases i with
  | cfgpins =>
    exact ⟨_, _, rfl, rfl, .of_request ((h.needLcd _).andThen fun _ _ hg =>
      (hg.unitL configurePins).andThen fun _ _ hl => (hl.setLcd _).andThen fun _ _ hc =>
        hc.respond [])⟩
  | initdisp =>
    exact ⟨_, _, rfl, rfl, .of_request ((h.needLcd _).andThen fun _ _ hg =>
      (hg.unitL fun p => bringUp p 0 p.initSeq).andThen fun _ _ hl => (hl.setLcd _).andThen fun _ _ hc =>
        hc.respond [])⟩
  | sendcmd c =>
    exact ⟨_, _, rfl, rfl, .of_request ((h.needLcd _).andThen fun _ _ hg =>
      (hg.unitL (sendCommand · c)).andThen fun _ _ hl => hl.respond [])⟩
  | wrnib n =>
    exact ⟨_, _, rfl, rfl, .of_request ((h.needLcd _).andThen fun _ _ hg =>
      (hg.unitL (writeNibble · n)).andThen fun _ _ hl => hl.respond [])⟩
  | wrline row text =>
    exact ⟨_, _, rfl, rfl, .of_request ((h.needLcd _).andThen fun _ _ hg =>
      (hg.writeLine row text).andThen fun _ _ hl => hl.respond [])⟩
  | clear =>
    exact ⟨_, _, rfl, rfl, .of_request ((h.needLcd _).andThen fun _ _ hg =>
      (hg.unitL fun p => sendCommand p p.cmdClear).andThen fun _ _ hl => hl.respond [])⟩
  | calib | classify | rdraw | edge | sense5v => cases hi

theorem UnitLAlike.of_exec (h : UnitLAlike b b' u u') {i : Instr} (hi : isUnitL i = true) {t t' : State}
    (ht : exec i u = .next t) (ht' : exec i u' = .next t') : UnitLAlike b b' t t' := by
  obtain ⟨v, v', hv, hv', halike⟩ := h.exec_alike hi
  obtain rfl := Host.Outcome.next.inj (hv.symm.trans ht)
  obtain rfl := Host.Outcome.next.inj (hv'.symm.trans ht')
  exact halike

end UnitL

/-- Settles O27: from states Unit L cannot tell apart, its requests end in states it cannot tell apart. -/
theorem unitLIsBlindToUnitB : Obligations.UnitLIsBlindToUnitB := by
  intro i s s' t t' hi hcfg hlcd hdir hlvl ht ht'
  have start : UnitLAlike s.trace s'.trace s s' := ⟨hcfg, hlcd, hdir, hlvl, .refl _ s s'⟩
  obtain ⟨-, hlcd', hdir', hlvl', hemits⟩ := start.of_exec hi ht ht'
  exact ⟨hemits.emitted.1, hlcd', hdir', hlvl'⟩

/-! ## Unit B beside another Unit L -/

/-- An event of the button side: an analog read or a response, no event of a pin. -/
def Event.ofUnitB (e : Event) : Prop :=
  (∀ p o, e ≠ .dir p o) ∧ (∀ p l, e ≠ .wr p l) ∧ ∀ p d l, e ≠ .pulse p d l

/-- Two runs that Unit B cannot tell apart: the same parameters, registers and inputs of its own, the same events since `b` and
`b'`. -/
structure UnitBAlike (b b' : List Event) (u u' : State) : Prop where
  cfg : u.cfg = u'.cfg
  thr : u.thr = u'.thr
  prev : u.prev = u'.prev
  clsState : u.clsState = u'.clsState
  ana : u.ana = u'.ana
  fresh : u.fresh = u'.fresh
  emits : EmitAlike Event.ofUnitB b b' u u'

section UnitB
variable {b b' : List Event} {u u' : State}

theorem UnitBAlike.par (h : UnitBAlike b b' u u') : u.par = u'.par := congrArg Subtype.val h.cfg

theorem UnitBAlike.draw (h : UnitBAlike b b' u u') : u.draw = u'.draw := by
  rw [State.draw, State.draw, h.ana, h.fresh]

theorem UnitBAlike.rsp (h : UnitBAlike b b' u u') (bytes : List Byte) : UnitBAlike b b' (u.rsp bytes) (u'.rsp bytes) :=
  { h with emits := h.emits.append (es := [.rsp bytes]) (by simp [Event.ofUnitB]) rfl rfl }

theorem UnitBAlike.raise (h : UnitBAlike b b' u u') (k : FaultKind) (op : Byte) (a : Aux) :
    UnitBAlike b b' (u.raise k op a) (u'.raise k op a) :=
  { h.rsp [k.status] with }

theorem UnitBAlike.of_request {o : Opcode} {body : State → Res}
    (h : Res.Alike (UnitBAlike b b') (body u) (body u')) : UnitBAlike b b' (request o body u) (request o body u') :=
  h.request o fun k a _ _ h => h.raise k o.code a

theorem UnitBAlike.read (h : UnitBAlike b b' u u') (c : Chan) (v : Sample) :
    UnitBAlike b b' (u.drawn.emit (.adc c v)) (u'.drawn.emit (.adc c v)) where
  cfg := by simpa using h.cfg
  thr := by simpa using h.thr
  prev := by simpa using h.prev
  clsState := by simpa using h.clsState
  ana := by simp [h.ana]
  fresh := by simp [h.ana, h.fresh]
  emits := h.emits.append (es := [.adc c v]) (by simp [Event.ofUnitB]) (by simp) (by simp)

theorem UnitBAlike.adcRead (h : UnitBAlike b b' u u') (c : Chan) :
    Res.Alike (UnitBAlike b b') (adcRead c u) (adcRead c u') := by
  simp only [Machine.adcRead, ← h.par, ← h.draw]
  split
  · exact .done (h.read c _)
  · exact .raised _ _ h

theorem UnitBAlike.needCalibrated (h : UnitBAlike b b' u u') :
    Res.Alike (UnitBAlike b b') (needCalibrated u) (needCalibrated u') := by
  simp only [Machine.needCalibrated, ← h.clsState]
  split
  · exact .done h
  · exact .raised _ _ h

theorem UnitBAlike.commitTable (h : UnitBAlike b b' u u') (r : Except Aux ThrFile) :
    Res.Alike (UnitBAlike b b') (commitTable r u) (commitTable r u') := by
  cases r with
  | ok f => exact .done { h with thr := rfl, clsState := rfl }
  | error a => exact .raised _ a h

/-- Both runs draw the same two samples, so they compute the same table (R168, R170). -/
theorem UnitBAlike.calibrate (h : UnitBAlike b b' u u') :
    Res.Alike (UnitBAlike b b') (calibrate u) (calibrate u') :=
  (h.adcRead .btn).andThen fun _ _ h₁ => (h₁.adcRead .vsense).andThen fun _ _ h₂ => by
    rw [h₂.par, h.draw, h₁.draw]
    exact h₂.commitTable _

theorem UnitBAlike.storePrev (h : UnitBAlike b b' u u') (x : Ticks) :
    UnitBAlike b b' { u with prev := x } { u' with prev := x } :=
  { h with prev := rfl }

theorem UnitBAlike.respond (h : UnitBAlike b b' u u') (payload : List Byte) :
    Res.Alike (UnitBAlike b b') (respond payload u) (respond payload u') :=
  .done (h.rsp _)

theorem UnitBAlike.answerMv (h : UnitBAlike b b' u u') (r : Except Aux Ticks) :
    Res.Alike (UnitBAlike b b') (answerMv r u) (answerMv r u') := by
  cases r with
  | ok m => exact h.respond _
  | error a => exact .raised _ a h

theorem Res.Alike.unitB {body : State → Res} (h : Res.Alike (UnitBAlike b b') (body u) (body u')) :
    Res.Alike (UnitBAlike b b') (unitB body u) (unitB body u') :=
  h.map fun _ _ h => { h with }

/-- Reads, arithmetic, response: what Unit B does depends on nothing but its own registers and inputs and the parameters (R72). -/
theorem UnitBAlike.exec_alike (h : UnitBAlike b b' u u') {i : Instr} (hi : isUnitL i = false) :
    ∃ t t', exec i u = .next t ∧ exec i u' = .next t' ∧ UnitBAlike b b' t t' := by
  cases i with
  | cfgpins | initdisp | sendcmd | wrnib | wrline | clear => cases hi
  | calib =>
    exact ⟨_, _, rfl, rfl, .of_request (h.calibrate.unitB.andThen fun _ _ hc => hc.respond [])⟩
  | classify x =>
    refine ⟨_, _, rfl, rfl, .of_request (h.needCalibrated.andThen fun _ _ hg => ?_)⟩
    rw [hg.thr]
    exact hg.respond _
  | rdraw =>
    refine ⟨_, _, rfl, rfl, .of_request ((h.adcRead .btn).unitB.andThen fun _ _ hr => ?_)⟩
    rw [h.draw]
    exact hr.respond _
  | edge =>
    refine ⟨_, _, rfl, rfl, .of_request
      ((Res.Alike.unitB ((h.adcRead .btn).andThen fun _ _ hr => ?_)).andThen fun _ _ hr => ?_)⟩
    · rw [h.draw]
      exact .done (hr.storePrev _)
    · rw [h.draw, h.par, h.prev]
      exact hr.respond _
  | sense5v =>
    refine ⟨_, _, rfl, rfl, .of_request ((h.adcRead .vsense).unitB.andThen fun _ _ hr => ?_)⟩
    rw [h.draw, h.par]
    exact hr.answerMv _

theorem UnitBAlike.of_exec (h : UnitBAlike b b' u u') {i : Instr} (hi : isUnitL i = false) {t t' : State}
    (ht : exec i u = .next t) (ht' : exec i u' = .next t') : UnitBAlike b b' t t' := by
  obtain ⟨v, v', hv, hv', halike⟩ := h.exec_alike hi
  obtain rfl := Host.Outcome.next.inj (hv.symm.trans ht)
  obtain rfl := Host.Outcome.next.inj (hv'.symm.trans ht')
  exact halike

end UnitB

/-- Settles O26: from states Unit B cannot tell apart, its requests end in states it cannot tell apart. -/
theorem unitBIsBlindToUnitL : Obligations.UnitBIsBlindToUnitL := by
  intro i s s' t t' hi hcfg hthr hprev hcls hana hfresh ht ht'
  have start : UnitBAlike s.trace s'.trace s s' := ⟨hcfg, hthr, hprev, hcls, hana, hfresh, .refl _ s s'⟩
  obtain ⟨-, hthr', hprev', hcls', hana', -, hemits⟩ := start.of_exec hi ht ht'
  exact ⟨hemits.emitted.1, hthr', hprev', hcls', hana'⟩

/-! ## What each unit emits -/

/-- The events of a Unit L request: those of a run beside itself. -/
theorem emitted_ofUnitL {i : Instr} (hi : isUnitL i = true) {s t : State} (h : exec i s = .next t) :
    ∀ e ∈ emitted s t, e.ofUnitL :=
  have start : UnitLAlike s.trace s.trace s s := ⟨rfl, rfl, rfl, rfl, .refl _ s s⟩
  (start.of_exec hi h h).emits.emitted.2

/-- The events of a Unit B request: those of a run beside itself. -/
theorem emitted_ofUnitB {i : Instr} (hi : isUnitL i = false) {s t : State} (h : exec i s = .next t) :
    ∀ e ∈ emitted s t, e.ofUnitB :=
  have start : UnitBAlike s.trace s.trace s s := ⟨rfl, rfl, rfl, rfl, rfl, rfl, .refl _ s s⟩
  (start.of_exec hi h h).emits.emitted.2

/-- Settles O25: the frame and the events of each unit, and the halt. -/
theorem unitsAreSeparate : Obligations.UnitsAreSeparate := by
  refine ⟨fun i s t hi h => ?unitL, fun i s t hi h => ?unitB, fun s hf hr => step_of_fault hr hf⟩
  case unitL =>
    have hframe := (unitL_of_exec hi h).frame
    exact ⟨hframe.thr, hframe.prev, hframe.clsState, hframe.ana, emitted_ofUnitL hi h⟩
  case unitB =>
    have hframe := UnitBFrame.of_exec hi h
    exact ⟨hframe.lcdState, hframe.pinDir, hframe.pinLvl, emitted_ofUnitB hi h⟩

/-! ## The display bus -/

/-- With all pins valid, a Unit L request in its state emits the events of its micro-steps and the response. -/
theorem emitted_of_script {i : Instr} {s t : State} {ms : List MicroOp} (hp : s.pinsOk) (hm : scriptOf i s.par = some ms)
    (hn : needsLcdState i = some s.lcdState) (h : exec i s = .next t) :
    emitted s t = ms.flatMap MicroOp.events ++ [.rsp [0x00]] := by
  obtain ⟨u, hu, he⟩ := exec_unitL_completes hp hm hn
  obtain rfl := Host.Outcome.next.inj (he.symm.trans h)
  obtain ⟨-, htr, -⟩ := runMicro_done hu
  apply emitted_of_trace
  rw [← List.append_assoc, ← htr]
  rfl

/-- An enable strobe has a duration (R9). -/
theorem State.tEnUs_pos (s : State) : 0 < s.par.tEnUs := s.cfg.property.tEn_pos

/-- Settles O37: the latched pairs of a line are those of its row command and of its characters, and read back as these. -/
theorem writeLineSendsExactlyTheText : Obligations.WriteLineSendsExactlyTheText := by
  intro s t row text a hs hp hrow h
  have hm : scriptOf (.wrline row text) s.par = some (lineSteps s.par a text) := by
    obtain ⟨rfl, rfl⟩ | ⟨rfl, rfl⟩ := hrow <;> rfl
  have hn : needsLcdState (.wrline row text) = some s.lcdState := by rw [hs]; rfl
  have hpairs : latched s.pinLvl (emitted s t) = [a].flatMap (bytePairs false) ++ (text.flatMap (bytePairs true) ++ []) := by
    rw [emitted_of_script hp hm hn h, lineSteps_events, latched_append, latched_line s.tEnUs_pos, latched_rsp]
    simp
  rw [hpairs, busBytes_pairs, busBytes_pairs]
  simp [busBytes]

/-- Every strobe latches one pair (R112). -/
theorem strobes_eq_length_latched (es : List Event) (lvl : PinBits) : strobes es = (latched lvl es).length := by
  induction es generalizing lvl with
  | nil => rfl
  | cons e es ih =>
    simp only [strobes, List.countP_cons, latched] at ih ⊢
    split
    · rw [ih (e.after lvl), List.length_cons]
    · rw [ih (e.after lvl), Nat.add_zero]

theorem strobes_append (xs ys : List Event) : strobes (xs ++ ys) = strobes xs + strobes ys := List.countP_append

theorem length_flatMap_bytePairs (rs : Bool) (bs : List Byte) : (bs.flatMap (bytePairs rs)).length = 2 * bs.length := by
  induction bs with
  | nil => rfl
  | cons b bs ih => simp only [List.flatMap_cons, List.length_append, ih, bytePairs, List.length_cons, List.length_nil]; omega

/-- Unit L sends whole bytes, each latched as two nibbles, except in `WRNIB` (R54, R61). -/
theorem strobes_script_even {i : Instr} {p : Params} {ms : List MicroOp} (hp : 0 < p.tEnUs) (hi : ∀ n, i ≠ .wrnib n)
    (hm : scriptOf i p = some ms) : strobes (ms.flatMap MicroOp.events) % 2 = 0 := by
  have hcommand (c : Byte) : strobes ((sendCommand p c).flatMap MicroOp.events) = 2 := by
    rw [sendCommand_events, strobes_eq_length_latched _ (.const false), (latched_command hp c _).1]
    rfl
  cases i with
  | cfgpins => obtain rfl := Option.some.inj hm; rfl
  | initdisp =>
    obtain rfl := Option.some.inj hm
    rw [bringUp_events, strobes_eq_length_latched _ (.const false), latched_commands hp, length_flatMap_bytePairs]
    omega
  | sendcmd c => obtain rfl := Option.some.inj hm; rw [hcommand]
  | wrnib n => exact absurd rfl (hi n)
  | wrline row text =>
    obtain ⟨a, -, rfl⟩ := Option.map_eq_some_iff.mp hm
    rw [lineSteps_events, strobes_eq_length_latched _ (.const false), latched_line hp, List.length_append,
      length_flatMap_bytePairs]
    simp only [bytePairs, List.length_cons, List.length_nil]
    omega
  | clear => obtain rfl := Option.some.inj hm; rw [hcommand]
  | calib | classify | rdraw | edge | sense5v => cases hm

/-- Unit B never strobes. -/
theorem strobes_of_ofUnitB {es : List Event} (h : ∀ e ∈ es, e.ofUnitB) : strobes es = 0 := by
  refine List.countP_eq_zero.mpr fun e he => ?_
  obtain ⟨-, -, hpulse⟩ := h e he
  cases e with
  | pulse p d l => exact absurd rfl (hpulse p d l)
  | dir | wr | adc | rsp => exact Bool.false_ne_true

/-- Settles O42: a Unit L request stops at its gate or its argument check, or sends whole bytes; Unit B sends none. -/
theorem strobesComeInPairs : Obligations.StrobesComeInPairs := by
  intro i s t hp hi h
  cases hu : isUnitL i with
  | false => rw [strobes_of_ofUnitB (emitted_ofUnitB hu h)]
  | true =>
    cases unitL_of_exec hu h with
    | misuse | argument => rw [emitted_of_trace rfl]; rfl
    | ioError _ p _ _ _ hbad =>
      rw [hp p] at hbad
      cases hbad
    | completes ms _ hm hn =>
      rw [emitted_of_script hp hm hn h, strobes_append]
      exact strobes_script_even s.tEnUs_pos hi hm

end Sys2Proof.Machine

/-! # Requests as bytes, illegal requests, and the response

Everything the decoder can answer, what a step makes of an illegal request, and the one response that ends every request. -/

namespace Sys2Proof

/-! ## Which bytes are opcodes -/

theorem Opcode.ofByte?_eq_some_iff {b : Byte} {o : Opcode} : Opcode.ofByte? b = some o ↔ o.code = b := by
  constructor
  · intro h
    have hcode : (o.code == b) = true := List.find?_some (p := fun o : Opcode => o.code == b) h
    exact eq_of_beq hcode
  · rintro rfl
    exact Opcode.ofByte?_code o

/-- The ranges of rule R95 are the bytes that are no opcode of the map (R89). -/
theorem Opcode.ofByte?_eq_none_iff (b : Byte) :
    Opcode.ofByte? b = none ↔ b.toNat ≤ 0x0F ∨ (0x16 ≤ b.toNat ∧ b.toNat ≤ 0x1F) ∨ 0x25 ≤ b.toNat := by
  simp only [Opcode.ofByte?, List.find?_eq_none, Opcode.all, List.forall_mem_cons, Opcode.code, beq_iff_eq,
    List.not_mem_nil, false_imp_iff, implies_true, and_true]
  bv_omega

/-! ## What the decoder can answer -/

/-- The decoder's answers, each with what the bytes are when it is given (R66, R84 to R91, R95, R96). -/
inductive DecodeOutcome (bytes : List Byte) : Decoded → Prop where
  | request (i : Instr) (hwf : i.WellFormed) (rest : List Byte) (hb : bytes = encode i ++ rest) :
      DecodeOutcome bytes (.request i (encode i).length)
  | illegalOpcode (op : Byte) (rest : List Byte) (hb : bytes = op :: rest) (ho : Opcode.ofByte? op = none) :
      DecodeOutcome bytes (.illegalOpcode op)
  | reservedOperand (imm : Byte) (rest : List Byte) (hb : bytes = 0x13 :: imm :: rest) (hi : imm.extractLsb' 4 4 ≠ 0#4) :
      DecodeOutcome bytes (.reservedOperand 0x13 imm)
  | incomplete : DecodeOutcome bytes .incomplete

/-- Bytes that begin with an encoding decode to its request. -/
theorem DecodeOutcome.of_encode {i : Instr} (h : i.WellFormed) (rest : List Byte) :
    DecodeOutcome (encode i ++ rest) (decode (encode i ++ rest)) := by
  rw [decode_encode_append h]
  exact .request i h rest rfl

theorem decode_illegalOpcode {op : Byte} (h : Opcode.ofByte? op = none) (rest : List Byte) :
    decode (op :: rest) = .illegalOpcode op := by
  simp only [decode, h]

theorem decode_reservedOperand {imm : Byte} (h : imm.extractLsb' 4 4 ≠ 0#4) (rest : List Byte) :
    decode (0x13 :: imm :: rest) = .reservedOperand 0x13 imm :=
  if_neg h

/-- An operand byte with a zero upper half is the operand byte of its lower half (R96). -/
theorem operandBytes_wrnib {imm : Byte} (h : imm.extractLsb' 4 4 = 0#4) :
    (Instr.wrnib (imm.extractLsb' 0 4)).operandBytes = [imm] := by
  rw [Instr.operandBytes, ← h, Machine.halves_append]

/-- Two bytes are the operand bytes of the sample they make, most significant first (R87). -/
theorem operandBytes_classify (hi lo : Byte) : (Instr.classify (hi ++ lo)).operandBytes = [hi, lo] := by
  have hhi : (hi ++ lo).extractLsb' 8 8 = hi := BitVec.extractLsb'_append_eq_left
  have hlo : (hi ++ lo).extractLsb' 0 8 = lo := BitVec.extractLsb'_append_eq_right
  rw [Instr.operandBytes, hhi, hlo]

/-- A text as long as its length byte says is the text of a request (R88). -/
theorem operandBytes_wrline (row : Byte) {len : Byte} {text : List Byte} (h : text.length = len.toNat) :
    (Instr.wrline row text).WellFormed ∧ (Instr.wrline row text).operandBytes = row :: len :: text := by
  have hlt := len.isLt
  refine ⟨decide_eq_true (by omega), ?_⟩
  rw [Instr.operandBytes, h, BitVec.ofNat_toNat, BitVec.setWidth_eq]

/-- Everything the decoder can answer. -/
theorem DecodeOutcome.of_decode (bytes : List Byte) : DecodeOutcome bytes (decode bytes) := by
  cases bytes with
  | nil => exact .incomplete
  | cons op rest =>
    cases ho : Opcode.ofByte? op with
    | none =>
      rw [decode_illegalOpcode ho]
      exact .illegalOpcode op rest rfl ho
    | some o =>
      obtain rfl := Opcode.ofByte?_eq_some_iff.mp ho
      cases o with
      | cfgpins => exact .of_encode (i := .cfgpins) rfl rest
      | initdisp => exact .of_encode (i := .initdisp) rfl rest
      | clear => exact .of_encode (i := .clear) rfl rest
      | calib => exact .of_encode (i := .calib) rfl rest
      | rdraw => exact .of_encode (i := .rdraw) rfl rest
      | edge => exact .of_encode (i := .edge) rfl rest
      | sense5v => exact .of_encode (i := .sense5v) rfl rest
      | sendcmd =>
        match rest with
        | [] => exact .incomplete
        | b :: rest => exact .of_encode (i := .sendcmd b) rfl rest
      | wrnib =>
        match rest with
        | [] => exact .incomplete
        | imm :: rest =>
          by_cases h : imm.extractLsb' 4 4 = 0#4
          · have henc := DecodeOutcome.of_encode (i := .wrnib (imm.extractLsb' 0 4)) rfl rest
            rwa [encode, operandBytes_wrnib h] at henc
          · rw [show Opcode.wrnib.code = 0x13 from rfl, decode_reservedOperand h]
            exact .reservedOperand imm rest rfl h
      | classify =>
        match rest with
        | [] | [_] => exact .incomplete
        | hi :: lo :: rest =>
          have henc := DecodeOutcome.of_encode (i := .classify (hi ++ lo)) rfl rest
          rwa [encode, operandBytes_classify] at henc
      | wrline =>
        match rest with
        | [] | [_] => exact .incomplete
        | row :: len :: body =>
          by_cases h : (body.take len.toNat).length = len.toNat
          · obtain ⟨hwf, hbytes⟩ := operandBytes_wrline row h
            have henc := DecodeOutcome.of_encode hwf (body.drop len.toNat)
            simp only [encode, hbytes, List.cons_append, List.take_append_drop] at henc
            exact henc
          · have hd : decode (Opcode.wrline.code :: row :: len :: body) = .incomplete := if_neg h
            rw [hd]
            exact .incomplete

/-- A request is read where its encoding stands, and nowhere else. -/
theorem decode_eq_request_iff {bytes : List Byte} {i : Instr} {n : Nat} :
    decode bytes = .request i n ↔ i.WellFormed ∧ n = (encode i).length ∧ ∃ rest, bytes = encode i ++ rest := by
  constructor
  · intro h
    cases h ▸ DecodeOutcome.of_decode bytes with
    | request _ hwf rest hb => exact ⟨hwf, rfl, rest, hb⟩
  · rintro ⟨hwf, rfl, rest, rfl⟩
    exact decode_encode_append hwf rest

/-- Settles O1: opcode and operand bytes are read back one after the other. -/
theorem decodeOfEncodeIsTheRequest : Obligations.DecodeOfEncodeIsTheRequest :=
  fun _ rest h => decode_encode_append h rest

/-- Settles O2: a request is read only where its encoding stands. -/
theorem decodedBytesAreTheEncoding : Obligations.DecodedBytesAreTheEncoding := by
  intro bytes i n h
  obtain ⟨hwf, rfl, rest, rfl⟩ := decode_eq_request_iff.mp h
  exact ⟨hwf, by simp, List.take_left⟩

/-- Settles O4: the bytes of each line are the encoding of its request. -/
theorem sampleRequestsDecode : Obligations.SampleRequestsDecode := by
  unfold Obligations.SampleRequestsDecode
  decide

/-- The length of an encoding by its format; byte 2 is the second byte after the opcode (R90). -/
theorem encode_length {i : Instr} (h : i.WellFormed) (rest : List Byte) :
    (encode i).length = i.opcode.format.length ((i.operandBytes ++ rest).getD 1 0) := by
  cases i with
  | cfgpins | initdisp | sendcmd | wrnib | clear | calib | classify | rdraw | edge | sense5v => rfl
  | wrline row text =>
    have h255 : text.length ≤ 255 := of_decide_eq_true h
    have hlen : (BitVec.ofNat 8 text.length).toNat = text.length := by rw [BitVec.toNat_ofNat]; omega
    simp only [encode, Instr.operandBytes, Instr.opcode, Opcode.format, Format.length, List.length_cons, List.cons_append,
      List.getD_cons_succ, List.getD_cons_zero, hlen]
    omega

end Sys2Proof

namespace Sys2Proof.Machine

/-! ## Illegal requests -/

theorem State.fetchBytes_of_read {s : State} {b : Byte} (h : s.req.read s.rp = some b) :
    s.fetchBytes = b :: s.req.fetch (s.rp + 1) (maxRequest - 1) :=
  Memory.fetch_cons h (by decide)

/-- An illegal opcode byte raises `IllegalRequest` and is one byte long (R90, R95). -/
theorem step_illegalOpcode {s : State} {op : Byte} (hr : s.rst = false) (hf : s.noFault) (hb : s.req.read s.rp = some op)
    (ho : Opcode.ofByte? op = none) : step s = .next ((s.advance 1).raise .illegalRequest op (op.setWidth 16)) := by
  rw [step_of_noFault hr hf, State.fetchBytes_of_read hb, decode_illegalOpcode ho]
  rfl

/-- Settles O3: a decoded request has the length of its encoding, and an illegal opcode advances `RP` by 1. -/
theorem requestLengthFollowsFromItsFirstBytes : Obligations.RequestLengthFollowsFromItsFirstBytes := by
  constructor
  · intro bytes i n h
    obtain ⟨hwf, rfl, rest, rfl⟩ := decode_eq_request_iff.mp h
    exact ⟨i.operandBytes ++ rest, rfl, encode_length hwf rest⟩
  · intro s op hr hf hb ho
    exact ⟨_, step_illegalOpcode hr hf hb ho, rfl⟩

/-- Settles O9: the ranges are the bytes outside the map, and no other byte decodes as an illegal opcode. -/
theorem illegalOpcodeRaises : Obligations.IllegalOpcodeRaises := by
  constructor
  · intro s op hr hf hb hrange
    exact step_illegalOpcode hr hf hb ((Opcode.ofByte?_eq_none_iff op).mpr hrange)
  · intro op o rest hrange hd
    cases hd ▸ DecodeOutcome.of_decode (op :: rest) with
    | illegalOpcode _ _ hb ho =>
      obtain ⟨rfl, rfl⟩ := List.cons.inj hb
      exact hrange ((Opcode.ofByte?_eq_none_iff op).mp ho)

/-- Settles O10: the operand is refused at decode, before the gate looks at `LCD_STATE`. -/
theorem reservedNibbleOperandRaises : Obligations.ReservedNibbleOperandRaises := by
  intro s imm hr hf hop himm hhi
  have hfetch : s.fetchBytes = 0x13 :: imm :: s.req.fetch (s.rp + 1 + 1) (maxRequest - 1 - 1) := by
    rw [State.fetchBytes_of_read hop, Memory.fetch_cons himm (by decide)]
  rw [step_of_noFault hr hf, hfetch, decode_reservedOperand hhi]
  rfl

/-! ## The response -/

/-- Between its fetch at `s` and its response, an operation has come to `u`: it has recorded no fault and not responded yet. -/
structure BeforeResponse (s u : State) : Prop where
  fault : u.fault = s.fault
  trace : ∃ es, u.trace = s.trace ++ es ∧ ∀ e ∈ es, ∀ bs, e ≠ .rsp bs

/-- From `s` to `t`: events that are no response, then one response with the status that `FAULT` has (R92, R196). -/
def RespondsOnce (s t : State) : Prop :=
  ∃ (es : List Event) (payload : List Byte),
    t.trace = s.trace ++ es ++ [.rsp (t.fault.kind.setWidth 8 :: payload)] ∧
    (∀ e ∈ es, ∀ bs, e ≠ .rsp bs) ∧ (t.fault.kind ≠ 0 → payload = [])

section Response
variable {s u : State}

theorem BeforeResponse.refl (s : State) : BeforeResponse s s := ⟨rfl, [], by simp, by simp⟩

theorem BeforeResponse.read (h : BeforeResponse s u) (c : Chan) (v : Sample) :
    BeforeResponse s (u.drawn.emit (.adc c v)) := by
  obtain ⟨hfault, es, htr, hes⟩ := h
  refine ⟨by simpa, es ++ [.adc c v], by simp [htr], fun e he bs => ?_⟩
  obtain he | he := List.mem_append.mp he
  · exact hes e he bs
  · obtain rfl := List.mem_singleton.mp he
    exact Event.noConfusion

theorem BeforeResponse.idle (h : BeforeResponse s u) : BeforeResponse s u.idle := { h with }

theorem MicroOp.events_ne_rsp (m : MicroOp) : ∀ e ∈ m.events, ∀ bs, e ≠ .rsp bs := by
  cases m <;> simp [MicroOp.events]

/-- Wherever micro-steps stop, none of them has responded. -/
theorem BeforeResponse.runMicro (ms : List MicroOp) (s : State) : BeforeResponse s (runMicro ms s).state := by
  obtain ⟨done, _, -, -, t, hsame, htr, -, -, ⟨-, hrun⟩ | ⟨_, _, _, -, -, -, hrun⟩⟩ := runMicro_cases ms s
  all_goals
    rw [hrun]
    refine ⟨hsame.fault, _, htr, fun e he => ?_⟩
    obtain ⟨m, -, hm⟩ := List.mem_flatMap.mp he
    exact m.events_ne_rsp e hm

/-- A completed request responds with status 0, and `FAULT.kind` is still 0. -/
theorem BeforeResponse.rsp (h : BeforeResponse s u) (hf : s.noFault) (payload : List Byte) :
    RespondsOnce s (u.rsp (0x00 :: payload)) := by
  obtain ⟨hfault, es, htr, hes⟩ := h
  have hkind : (u.rsp (0x00 :: payload)).fault.kind = 0 := by rw [State.rsp_fault, hfault]; exact hf
  refine ⟨es, payload, ?_, hes, fun hne => absurd hkind hne⟩
  rw [hkind, State.rsp_trace, htr]
  rfl

/-- A fault entry responds with the kind it records, alone (R196). -/
theorem BeforeResponse.raise (h : BeforeResponse s u) (k : FaultKind) (op : Byte) (a : Aux) :
    RespondsOnce s (u.raise k op a) := by
  obtain ⟨-, es, htr, hes⟩ := h
  exact ⟨es, [], by rw [State.raise_trace, htr]; rfl, hes, fun _ => rfl⟩

end Response

theorem UnitLOutcome.respondsOnce {i : Instr} {s t : State} (h : UnitLOutcome i s t) (hf : s.noFault) : RespondsOnce s t := by
  cases h with
  | misuse => exact (BeforeResponse.refl s).raise ..
  | argument => exact (BeforeResponse.refl s).raise ..
  | ioError ms p u _ _ _ hu =>
    have hrun := BeforeResponse.runMicro ms s
    rw [hu, Res.state_raised] at hrun
    have hend : BeforeResponse s u.idle.dropLatches := { hrun with }
    exact hend.raise ..
  | completes ms u _ _ hu =>
    have hrun := BeforeResponse.runMicro ms s
    rw [hu, Res.state_done] at hrun
    have hend : BeforeResponse s { u.idle.dropLatches with lcdState := lcdAfter i u.lcdState } := { hrun with }
    exact hend.rsp hf []

/-- A Unit B request reads what it reads, then responds once, in each of its outcomes. -/
theorem respondsOnce_of_unitB {i : Instr} (hi : isUnitL i = false) {s t : State} (hf : s.noFault) (h : exec i s = .next t) :
    RespondsOnce s t := by
  have start := BeforeResponse.refl s
  cases i with
  | cfgpins | initdisp | sendcmd | wrnib | wrline | clear => cases hi
  | calib =>
    obtain ⟨-, e⟩ | ⟨-, -, e⟩ | ⟨-, -, ⟨a, -, e⟩ | ⟨f, -, e⟩⟩ := execCalib_cases s <;>
      obtain rfl := Host.Outcome.next.inj (e.symm.trans h)
    · exact start.idle.raise ..
    · exact (start.read ..).idle.raise ..
    · exact ((start.read ..).read ..).idle.raise ..
    · have hreads := ((start.read .btn s.draw).read .vsense s.drawn.draw).idle
      exact BeforeResponse.rsp { hreads with } hf []
  | classify x =>
    obtain ⟨-, e⟩ | ⟨-, e⟩ := execClassify_cases x s <;> obtain rfl := Host.Outcome.next.inj (e.symm.trans h)
    · exact start.rsp hf _
    · exact start.raise ..
  | rdraw =>
    obtain ⟨-, e⟩ | ⟨-, e⟩ := execRdraw_cases s <;> obtain rfl := Host.Outcome.next.inj (e.symm.trans h)
    · exact (start.read ..).idle.rsp hf _
    · exact start.idle.raise ..
  | edge =>
    obtain ⟨-, e⟩ | ⟨-, e⟩ := execEdge_cases s <;> obtain rfl := Host.Outcome.next.inj (e.symm.trans h)
    · have hread := (start.read .btn s.draw).idle
      exact BeforeResponse.rsp { hread with } hf _
    · exact start.idle.raise ..
  | sense5v =>
    obtain ⟨-, ⟨m, -, e⟩ | ⟨a, -, e⟩⟩ | ⟨-, e⟩ := execSense5v_cases s <;>
      obtain rfl := Host.Outcome.next.inj (e.symm.trans h)
    · exact (start.read ..).idle.rsp hf _
    · exact (start.read ..).idle.raise ..
    · exact start.idle.raise ..

/-- Settles O19: every outcome of either unit is an operation that has not responded, then its response or the fault entry. -/
theorem exactlyOneResponse : Obligations.ExactlyOneResponse := by
  intro i s t hf h
  cases hi : isUnitL i with
  | true => exact (unitL_of_exec hi h).respondsOnce hf
  | false => exact respondsOnce_of_unitB hi hf h

end Sys2Proof.Machine

/-! # The Digital IO primitives, the invariant, one nibble, and the pulses

The invariant of the block through each unit and each step, where micro-steps stop at an invalid pin, and what pulses a
request may emit. -/

namespace Sys2Proof.Machine

/-! ## The primitives -/

theorem State.withPin_of_valid {s : State} {p : Pin} (h : s.pinOk p = true) (f : State → State) :
    s.withPin p f = .done (f s) := if_pos h

theorem State.withPin_of_invalid {s : State} {p : Pin} (h : s.pinOk p = false) (f : State → State) :
    s.withPin p f = .raised .io (s.phys p) s := if_neg (by simp [h])

/-- Settles O29: each primitive is its pin check before one update; a pulse puts back the level it found. -/
theorem digitalIoPrimitives : Obligations.DigitalIoPrimitives := by
  refine ⟨fun s p o l d _ h => ⟨State.withPin_of_invalid h _, State.withPin_of_invalid h _, State.withPin_of_invalid h _⟩,
    fun s d _ h => State.withPin_of_invalid h _, fun s p o h => State.withPin_of_valid h _,
    fun s p l h => State.withPin_of_valid h _, fun s p d l _ h => ?pulse, fun s d _ h => State.withPin_of_valid h _⟩
  case pulse =>
    have hlvl : (s.pinLvl.set p l).set p (s.pinLvl.get p) = s.pinLvl := PerPin.set_get_restore ..
    rw [dioPulse, State.withPin_of_valid h]
    simp only [State.emit, State.setLvl, State.loadTimer, State.timerExpires, hlvl]

/-! ## The invariant -/

/-- The set-up that a completed `CFGPINS` leaves (R113, R214). -/
def State.Configured (s : State) : Prop :=
  s.pinsOk ∧ s.pinDir = .const true ∧ s.pinLvl.en = false ∧ s.pinLvl.bl = s.par.blOnLevel

/-- Every fault kind has a code of R190. -/
theorem FaultKind.code_le (k : FaultKind) : k.code.toNat ≤ 5 := by cases k <;> decide

/-- An analog read takes one value from the environment and changes no register (R165). -/
theorem State.drawn_eq (s : State) :
    s.drawn = { s with ana := s.ana.tail, fresh := if s.ana = [] then s.fresh + 1 else s.fresh } := by
  cases h : s.ana <;> simp [State.drawn, h]

section Inv
variable {s u : State}

/-- The invariant while an operation runs is that of the state with `UPC` and `TMR` cleared. -/
theorem State.Inv.idle (h : s.Inv) : s.idle.Inv := { h with idle_upc := rfl, idle_tmr := rfl }

theorem State.Inv.advance (h : s.Inv) (n : Nat) : (s.advance n).Inv := { h with }

theorem State.Inv.rsp (h : s.Inv) (bytes : List Byte) : (s.rsp bytes).Inv := { h with }

theorem State.Inv.raise (h : s.Inv) (k : FaultKind) (op : Byte) (a : Aux) : (s.raise k op a).Inv :=
  { h with fault_code := k.code_le }

theorem State.Inv.dropLatches (h : s.Inv) : s.dropLatches.Inv := { h with }

/-- An analog read counts an event and moves nothing the invariant speaks of (R165). -/
theorem State.Inv.read (h : u.idle.Inv) (c : Chan) (v : Sample) : (u.drawn.emit (.adc c v)).idle.Inv := by
  rw [u.drawn_eq]
  exact { h with }

/-- `EDGE` stores a raw sample (R24, R181). -/
theorem State.Inv.storePrev (h : s.Inv) (v : Sample) : ({ s with prev := v.setWidth 16 } : State).Inv :=
  { h with prev_sample := .inr (by rw [sample_ticks]; omega) }

/-- `CALIB` stores its table once both channels have answered and the baseline is plausible (R168, R170). -/
theorem State.Inv.commit (h : s.Inv) (hb : s.chanOk .btn) (hv : s.chanOk .vsense) {b v : Sample} {f : ThrFile}
    (hf : calibTable s.par b v = .ok f) : ({ s with thr := f, clsState := .calibrated } : State).Inv := by
  obtain ⟨himp, -, he0, -⟩ := calibTable_ok hf
  have hticks : f.e0.ticks.toNat = b.toNat := by rw [he0, ThrEntry.ticks_ofTicks, sample_ticks]
  have hmin : s.par.calMin ≤ b.toNat := by simpa [implausible] using himp
  refine { h with calibrated := fun _ => ⟨hb, hv, ?_, ?_⟩ }
  · exact hmin.trans_eq hticks.symm
  · change f.e0.ticks.toNat ≤ 1023
    omega

/-- `LCD_STATE` may move once the pins are set up (R136). -/
theorem State.Inv.setLcd (h : s.Inv) (hc : s.Configured) (st : LcdState) : ({ s with lcdState := st } : State).Inv :=
  { h with configured := fun _ => hc }

/-- Wherever micro-steps stop: the invariant asks of the pins only their set-up, and that only once there is one. -/
theorem State.Inv.of_samePins (h : s.Inv) (hsame : SameOutsidePins s u)
    (hsetup : SameSetup s u ∨ s.lcdState = .uninitialized) : u.idle.Inv where
  idle_upc := rfl
  idle_tmr := rfl
  req_wf := by rw [State.idle_req, hsame.req]; exact h.req_wf
  fault_code := by rw [State.idle_fault, hsame.fault]; exact h.fault_code
  configured hne := by
    rw [State.idle_lcdState, hsame.lcdState] at hne
    obtain ⟨hp, hdir, hen, hbl⟩ := h.configured hne
    have hset := hsetup.resolve_right hne
    refine ⟨fun p => ?_, hset.pinDir.trans hdir, hset.en.trans hen, ?_⟩
    · rw [State.idle_pinOk, hsame.pinOk]; exact hp p
    · rw [State.idle_par, hsame.par]; exact hset.bl.trans hbl
  calibrated hc := by
    rw [State.idle_clsState, hsame.clsState] at hc
    simpa only [State.chanOk, State.idle_par, State.idle_thr, hsame.par, hsame.thr] using h.calibrated hc
  prev_sample := by
    rw [State.idle_prev, State.idle_par, hsame.prev, hsame.par]; exact h.prev_sample

/-- All fourteen primitives of `CFGPINS` have run, so every pin is valid and set up (R113, R125). -/
theorem configured_of_configurePins (hu : runMicro (configurePins s.par) s = .done u) : u.Configured := by
  obtain ⟨hsame, -, hlvl, hdir, hok⟩ := runMicro_done hu
  refine ⟨fun p => ?_, hdir, ?_, ?_⟩
  · rw [hsame.pinOk]
    exact hok (.dir p true) (by cases p <;> simp [configurePins]) p rfl
  · rw [hlvl]; rfl
  · rw [hlvl, hsame.par]; rfl

/-- Only `CFGPINS` runs before the pins are set up (R200). -/
theorem eq_cfgpins_of_uninitialized {i : Instr} (hn : needsLcdState i = some .uninitialized) : i = .cfgpins := by
  cases i with
  | cfgpins => rfl
  | initdisp | sendcmd | wrnib | wrline | clear | calib | classify | rdraw | edge | sense5v => cases hn

/-- Wherever the micro-steps of an admitted request stop, the invariant holds once the block is idle. -/
theorem State.Inv.runMicro {i : Instr} {ms : List MicroOp} (h : s.Inv) (hm : scriptOf i s.par = some ms)
    (hn : needsLcdState i = some s.lcdState) : (runMicro ms s).state.idle.Inv := by
  obtain ⟨hsame, -⟩ := runMicro_state ms s
  refine h.of_samePins hsame ((runMicro_sameSetup hm).imp_right ?_)
  rintro rfl
  exact (Option.some.inj hn).symm

/-- A Unit L request keeps the invariant, in each of its outcomes. -/
theorem State.Inv.of_unitL {i : Instr} (h : s.Inv) {t : State} (ho : UnitLOutcome i s t) : t.Inv := by
  cases ho with
  | misuse => exact h.raise ..
  | argument => exact h.raise ..
  | ioError ms p u hm hn _ hu =>
    have hrun := h.runMicro hm hn
    rw [hu, Res.state_raised] at hrun
    exact hrun.dropLatches.raise ..
  | completes ms u hm hn hu =>
    have hrun := h.runMicro hm hn
    rw [hu, Res.state_done] at hrun
    have hc : u.Configured := by
      by_cases hi : i = .cfgpins
      · subst hi
        obtain rfl := Option.some.inj hm
        exact configured_of_configurePins hu
      · obtain ⟨hsame, -⟩ := runMicro_done hu
        refine hrun.configured fun hun => hi (eq_cfgpins_of_uninitialized ?_)
        rw [hn, ← hsame.lcdState]
        exact congrArg some hun
    exact (hrun.dropLatches.setLcd hc _).rsp _

/-- A Unit B request keeps the invariant, in each of its outcomes. -/
theorem State.Inv.of_unitB {i : Instr} (h : s.Inv) (hi : isUnitL i = false) {t : State} (he : exec i s = .next t) :
    t.Inv := by
  have start := h.idle
  cases i with
  | cfgpins | initdisp | sendcmd | wrnib | wrline | clear => cases hi
  | calib =>
    obtain ⟨-, e⟩ | ⟨-, -, e⟩ | ⟨hb, hv, ⟨a, -, e⟩ | ⟨f, hf, e⟩⟩ := execCalib_cases s <;>
      obtain rfl := Host.Outcome.next.inj (e.symm.trans he)
    · exact start.raise ..
    · exact (start.read ..).raise ..
    · exact ((start.read ..).read ..).raise ..
    · have hreads := (start.read .btn s.draw).read .vsense s.drawn.draw
      refine (hreads.commit ?btn ?vsense (b := s.draw) (v := s.drawn.draw) ?table).rsp _
      -- The parameters are those before the reads.
      case btn => simpa [State.chanOk] using hb
      case vsense => simpa [State.chanOk] using hv
      case table => simpa using hf
  | classify x =>
    obtain ⟨-, e⟩ | ⟨-, e⟩ := execClassify_cases x s <;> obtain rfl := Host.Outcome.next.inj (e.symm.trans he)
    · exact h.rsp _
    · exact h.raise ..
  | rdraw =>
    obtain ⟨-, e⟩ | ⟨-, e⟩ := execRdraw_cases s <;> obtain rfl := Host.Outcome.next.inj (e.symm.trans he)
    · exact (start.read ..).rsp _
    · exact start.raise ..
  | edge =>
    obtain ⟨-, e⟩ | ⟨-, e⟩ := execEdge_cases s <;> obtain rfl := Host.Outcome.next.inj (e.symm.trans he)
    · exact ((start.read ..).storePrev s.draw).rsp _
    · exact start.raise ..
  | sense5v =>
    obtain ⟨-, ⟨m, -, e⟩ | ⟨a, -, e⟩⟩ | ⟨-, e⟩ := execSense5v_cases s <;>
      obtain rfl := Host.Outcome.next.inj (e.symm.trans he)
    · exact (start.read ..).rsp _
    · exact (start.read ..).raise ..
    · exact start.raise ..

theorem State.Inv.exec {i : Instr} (h : s.Inv) {t : State} (he : exec i s = .next t) : t.Inv := by
  cases hi : isUnitL i with
  | true => exact h.of_unitL (unitL_of_exec hi he)
  | false => exact h.of_unitB hi he

end Inv

/-- Settles O16: reset meets the invariant, and every other outcome of a step is a request or a fault entry, which keep it. -/
theorem stepKeepsTheInvariant : Obligations.StepKeepsTheInvariant := by
  intro s t h hstep
  cases StepOutcome.of_step hstep with
  | reset => exact State.afterReset_inv h.req_wf
  | halted | waits => exact h
  | illegalOpcode | reservedOperand => exact (h.advance _).raise ..
  | request i n _ _ _ _ he => exact (h.advance n).exec he

/-! ## Micro-steps up to an invalid pin -/

section Script
variable {ms : List MicroOp} {s : State} {before after : List Pin} {p : Pin}

/-- Micro-steps end when the pins of their primitives are valid. -/
theorem runMicro_of_pins (h : ∀ p ∈ ms.filterMap MicroOp.pin?, s.pinOk p = true) : ∃ u, runMicro ms s = .done u := by
  obtain ⟨_, _, rfl, -, u, -, -, -, -, ⟨-, hrun⟩ | ⟨m, _, p, rfl, hm, hbad, -⟩⟩ := runMicro_cases ms s
  · exact ⟨u, hrun⟩
  · rw [h p (List.mem_filterMap.mpr ⟨m, by simp, hm⟩)] at hbad
    cases hbad

/-- A primitive emits one event, the load of a latch none (R14, R35). -/
theorem MicroOp.length_events (m : MicroOp) : m.events.length = m.pin?.toList.length := by cases m <;> rfl

theorem length_flatMap_events (ms : List MicroOp) :
    (ms.flatMap MicroOp.events).length = (ms.filterMap MicroOp.pin?).length := by
  induction ms with
  | nil => rfl
  | cons m ms ih =>
    rw [List.flatMap_cons, List.length_append, ih, m.length_events]
    cases h : m.pin? with
    | none => simp [h]
    | some p => simp [h, Nat.add_comm]

/-- Micro-steps stop at the first primitive with an invalid pin, and the primitives before it have emitted their events
(R15, R193). -/
theorem runMicro_stopsAt (hpins : ms.filterMap MicroOp.pin? = before ++ p :: after) (hok : ∀ q ∈ before, s.pinOk q = true)
    (hbad : s.pinOk p = false) :
    ∃ u, runMicro ms s = .raised .io (s.phys p) u ∧ SameOutsidePins s u ∧
      u.trace = s.trace ++ (ms.flatMap MicroOp.events).take before.length := by
  obtain ⟨pre, tail, rfl, rfl, htail⟩ := List.filterMap_eq_append_iff.mp hpins
  obtain ⟨loads, m, post, rfl, hloads, hm, -⟩ := List.filterMap_eq_cons_iff.mp htail
  have hpre : (pre ++ loads).filterMap MicroOp.pin? = pre.filterMap MicroOp.pin? := by
    rw [List.filterMap_append, List.filterMap_eq_nil_iff.mpr hloads, List.append_nil]
  obtain ⟨u, hu⟩ := runMicro_of_pins (ms := pre ++ loads) (s := s) (by rwa [hpre])
  obtain ⟨hsame, htr, -⟩ := runMicro_done hu
  have hstop : m.run u = .raised .io (s.phys p) u := by
    obtain ⟨hvalid, -⟩ | ⟨q, hq, -, hrun⟩ := m.run_cases u
    · rw [← hsame.pinOk, hvalid p hm] at hbad
      cases hbad
    · obtain rfl := Option.some.inj (hm.symm.trans hq)
      rw [hrun, State.phys, State.phys, hsame.par]
  refine ⟨u, ?_, hsame, ?_⟩
  · rw [← List.append_assoc, runMicro_append, hu, Res.andThen_done, runMicro, hstop, Res.andThen_raised]
  · have hlen : ((pre ++ loads).flatMap MicroOp.events).length = (pre.filterMap MicroOp.pin?).length := by
      rw [length_flatMap_events, hpre]
    rw [htr, ← List.append_assoc, List.flatMap_append (xs := pre ++ loads), List.take_left' hlen]

end Script

/-- An admitted Unit L request ends as its micro-steps do. -/
theorem UnitLOutcome.of_admitted {i : Instr} {s t : State} {ms : List MicroOp} (h : UnitLOutcome i s t)
    (hm : scriptOf i s.par = some ms) (hn : needsLcdState i = some s.lcdState) :
    (∃ u, runMicro ms s = .done u ∧ t = completeL i u) ∨
    ∃ a u, runMicro ms s = .raised .io a u ∧ t = u.idle.dropLatches.raise .io i.opcode.code a := by
  cases h with
  | misuse st hn' hs => exact absurd (Option.some.inj (hn.symm.trans hn')) hs
  | argument row text hi _ hr =>
    subst hi
    simp [scriptOf, hr] at hm
  | ioError ms' p u hm' _ _ hu =>
    obtain rfl := Option.some.inj (hm'.symm.trans hm)
    exact .inr ⟨_, u, hu, rfl⟩
  | completes ms' u hm' _ hu =>
    obtain rfl := Option.some.inj (hm'.symm.trans hm)
    exact .inl ⟨u, hu, rfl⟩

/-- A completed Unit L request has emitted the events of its micro-steps and then its response (R92). -/
theorem completeL_trace {i : Instr} {s u : State} {ms : List MicroOp} (hu : runMicro ms s = .done u) :
    (completeL i u).trace = s.trace ++ (ms.flatMap MicroOp.events ++ [.rsp [0x00]]) := by
  obtain ⟨-, htr, -⟩ := runMicro_done hu
  rw [← List.append_assoc, ← htr]
  rfl

/-- What is known of the state after a completed Unit L request (R35, R92). -/
theorem completeL_known {i : Instr} {s u : State} {ms : List MicroOp} (hu : runMicro ms s = .done u) :
    (completeL i u).known = { s.known with
      pinLvl := ms.foldl MicroOp.levels s.pinLvl, pinDir := ms.foldl MicroOp.dirs s.pinDir,
      lcdState := lcdAfter i s.lcdState, upc := 0, tmr := 0,
      trace := s.trace ++ ms.flatMap MicroOp.events ++ [.rsp [0x00]] } := by
  obtain ⟨hsame, htr, hlvl, hdir, -⟩ := runMicro_done hu
  obtain ⟨hcfg, hthr, hprev, hlcd, hcls, hfault, hrp, hreq, hana, hrst, -⟩ := hsame
  simp [completeL, State.known, hcfg, hthr, hprev, hlcd, hcls, hfault, hrp, hreq, hana, hrst, htr, hlvl, hdir]

/-- The pins of a nibble in the order of its primitives (R111). -/
theorem writeNibble_pins (p : Params) (n : Nibble) :
    (writeNibble p n).filterMap MicroOp.pin? = [.dl0, .dl1, .dl2, .dl3, .en] := rfl

/-- Settles O35: `WRNIB` runs the micro-steps of its nibble, to their end or to the first invalid pin. -/
theorem writeNibbleCompletesOrStops : Obligations.WriteNibble := by
  refine ⟨fun s n hs hok => ?completes, fun s n before after p hs hpins hok hbad => ?stops⟩
  all_goals
    have hn : needsLcdState (.wrnib n) = some s.lcdState := congrArg some hs.symm
    obtain ⟨t, he, ho⟩ := exec_unitL (i := .wrnib n) rfl s
    refine ⟨t, he, ?_⟩
    have hend := ho.of_admitted rfl hn
  case completes =>
    obtain ⟨u, hu⟩ := runMicro_of_pins (ms := writeNibble s.par n) hok
    obtain ⟨_, hdone, rfl⟩ | ⟨_, _, hraised, -⟩ := hend
    · have hknown := completeL_known (i := .wrnib n) hdone
      rw [writeNibble_levels, writeNibble_dirs, writeNibble_events] at hknown
      refine ⟨hknown, ?_⟩
      rw [emitted_of_trace (completeL_trace hdone), writeNibble_events, latched_append, (latched_nibble s.tEnUs_pos ..).1,
        latched_rsp, List.append_nil]
    · rw [hu] at hraised
      cases hraised
  case stops =>
    obtain ⟨u, hu, hsame, htr⟩ := runMicro_stopsAt ((writeNibble_pins s.par n).trans hpins) hok hbad
    obtain ⟨_, hdone, -⟩ | ⟨_, _, hraised, rfl⟩ := hend
    · rw [hu] at hdone
      cases hdone
    · obtain ⟨-, rfl, rfl⟩ := Res.raised.inj (hu.symm.trans hraised)
      rw [writeNibble_events] at htr
      exact ⟨rfl, hsame.lcdState, congrArg (· ++ [Event.rsp [0x03]]) htr⟩

/-! ## What may be pulsed -/

/-- A pulse is the strobe of `T_EN_US` on `EN`, or a hold on it (R109, R114). -/
def Event.PulseAllowed (p : Params) (e : Event) : Prop :=
  ∀ q d l, e = .pulse q d l → q = .en ∧ ((d = p.tEnUs ∧ 0 < d ∧ l = true) ∨ (d < 0 ∧ l = false))

/-- The events a Unit L request appends: those of micro-steps it has run, and its response. -/
theorem UnitLOutcome.emits {i : Instr} {s t : State} (h : UnitLOutcome i s t) {e : Event} (he : e ∈ emitted s t) :
    (∃ bytes, e = .rsp bytes) ∨ ∃ ms, scriptOf i s.par = some ms ∧ e ∈ ms.flatMap MicroOp.events := by
  cases h with
  | misuse | argument =>
    rw [emitted_of_trace rfl] at he
    exact .inl ⟨_, List.mem_singleton.mp he⟩
  | ioError ms p u hm _ _ hu =>
    obtain ⟨done, m, tail, _, rfl, -, -, -, -, -, -, htr, -⟩ := runMicro_raised hu
    have htrace : (u.idle.dropLatches.raise .io i.opcode.code (s.phys p)).trace =
        s.trace ++ (done.flatMap MicroOp.events ++ [.rsp [FaultKind.io.status]]) := by
      rw [← List.append_assoc, ← htr]
      rfl
    rw [emitted_of_trace htrace] at he
    obtain he | he := List.mem_append.mp he
    · refine .inr ⟨_, hm, ?_⟩
      rw [List.flatMap_append]
      exact List.mem_append_left _ he
    · exact .inl ⟨_, List.mem_singleton.mp he⟩
  | completes ms u hm _ hu =>
    rw [emitted_of_trace (completeL_trace hu)] at he
    exact (List.mem_append.mp he).elim (fun he => .inr ⟨ms, hm, he⟩) fun he => .inl ⟨_, List.mem_singleton.mp he⟩

section Pulses
variable {p : Params}

theorem hold_pulseAllowed (p : Params) {d : Nat} (hd : 0 < d) : (Event.hold .en d).PulseAllowed p := by
  intro q d' l h
  obtain ⟨rfl, rfl, rfl⟩ := Event.pulse.inj h
  exact ⟨rfl, .inr ⟨by omega, rfl⟩⟩

theorem wr_pulseAllowed (p : Params) (q : Pin) (l : Bool) : (Event.wr q l).PulseAllowed p := fun _ _ _ h => by cases h

theorem strobe_pulseAllowed (hp : p.Ok) : (Event.pulse .en p.tEnUs true).PulseAllowed p := by
  intro q d l h
  obtain ⟨rfl, rfl, rfl⟩ := Event.pulse.inj h
  exact ⟨rfl, .inl ⟨rfl, Int.natCast_pos.mpr hp.tEn_pos, rfl⟩⟩

theorem nibbleEvents_pulseAllowed (hp : p.Ok) (n : Nibble) : ∀ e ∈ nibbleEvents p n, e.PulseAllowed p := by
  simp [nibbleEvents, wr_pulseAllowed, strobe_pulseAllowed hp]

theorem byteEvents_pulseAllowed (hp : p.Ok) (b : Byte) : ∀ e ∈ byteEvents p b, e.PulseAllowed p :=
  List.forall_mem_append.mpr ⟨nibbleEvents_pulseAllowed hp _, nibbleEvents_pulseAllowed hp _⟩

theorem commandEvents_pulseAllowed (hp : p.Ok) (b : Byte) : ∀ e ∈ commandEvents p b, e.PulseAllowed p := by
  refine List.forall_mem_append.mpr ⟨List.forall_mem_append.mpr ⟨?_, byteEvents_pulseAllowed hp b⟩, ?_⟩
  · simp [wr_pulseAllowed, hold_pulseAllowed p hp.tPre_pos]
  · split
    · exact List.forall_mem_singleton.mpr (hold_pulseAllowed p hp.tClear_pos)
    · exact List.forall_mem_nil _

theorem charEvents_pulseAllowed (hp : p.Ok) (c : Byte) : ∀ e ∈ charEvents p c, e.PulseAllowed p := by
  refine List.forall_mem_append.mpr ⟨byteEvents_pulseAllowed hp c, ?_⟩
  split
  · exact List.forall_mem_nil _
  · next hgap => exact List.forall_mem_singleton.mpr (hold_pulseAllowed p (Nat.pos_of_ne_zero hgap))

theorem lineEvents_pulseAllowed (hp : p.Ok) (a : Byte) (text : List Byte) :
    ∀ e ∈ lineEvents p a text, e.PulseAllowed p := by
  refine List.forall_mem_append.mpr ⟨List.forall_mem_append.mpr
    ⟨commandEvents_pulseAllowed hp a, List.forall_mem_singleton.mpr (wr_pulseAllowed p _ _)⟩, fun e he => ?_⟩
  obtain ⟨c, -, hc⟩ := List.mem_flatMap.mp he
  exact charEvents_pulseAllowed hp c e hc

/-- No script pulses anything but `EN`, and none issues a duration of 0 (R109, R114). -/
theorem scriptOf_pulseAllowed (hp : p.Ok) {i : Instr} {ms : List MicroOp} (hm : scriptOf i p = some ms) :
    ∀ e ∈ ms.flatMap MicroOp.events, e.PulseAllowed p := by
  cases i with
  | cfgpins =>
    obtain rfl := Option.some.inj hm
    intro e he q d l h
    subst h
    simp [configurePins, MicroOp.events] at he
  | initdisp =>
    obtain rfl := Option.some.inj hm
    rw [bringUp_events]
    intro e he
    obtain ⟨b, -, hb⟩ := List.mem_flatMap.mp he
    exact commandEvents_pulseAllowed hp b e hb
  | sendcmd b =>
    obtain rfl := Option.some.inj hm
    rw [sendCommand_events]
    exact commandEvents_pulseAllowed hp b
  | wrnib n =>
    obtain rfl := Option.some.inj hm
    rw [writeNibble_events]
    exact nibbleEvents_pulseAllowed hp n
  | wrline row text =>
    obtain ⟨a, -, rfl⟩ := Option.map_eq_some_iff.mp hm
    rw [lineSteps_events]
    exact lineEvents_pulseAllowed hp a text
  | clear =>
    obtain rfl := Option.some.inj hm
    rw [sendCommand_events]
    exact commandEvents_pulseAllowed hp _
  | calib | classify | rdraw | edge | sense5v => cases hm

end Pulses

/-- A micro-step outside the set-up writes no `EN` (R114). -/
theorem MicroOp.events_of_leavesSetup {m : MicroOp} (h : m.leavesSetup = true) (l : Bool) : Event.wr .en l ∉ m.events := by
  cases m with
  | write q l' =>
    intro he
    obtain ⟨rfl, -⟩ := Event.wr.inj (List.mem_singleton.mp he)
    cases h
  | dir | pulse | hold | loadCmd | loadNib | loadIdx => simp [MicroOp.events]

/-- Only `CFGPINS` writes `EN`, and it drives it low (R114, R125). -/
theorem scriptOf_writesEnable {i : Instr} {p : Params} {ms : List MicroOp} (hm : scriptOf i p = some ms) {l : Bool}
    (he : Event.wr .en l ∈ ms.flatMap MicroOp.events) : i = .cfgpins ∧ l = false := by
  by_cases hi : i = .cfgpins
  · subst hi
    obtain rfl := Option.some.inj hm
    exact ⟨rfl, by simpa [configurePins, MicroOp.events] using he⟩
  · obtain ⟨m, hmem, he⟩ := List.mem_flatMap.mp he
    exact absurd he (MicroOp.events_of_leavesSetup (List.all_eq_true.mp (scriptOf_leavesSetup hi hm) m hmem) l)

/-- Settles O41: Unit L emits events of its scripts and a response; Unit B emits no event of a pin. -/
theorem onlyEnableIsPulsed : Obligations.OnlyEnableIsPulsed := by
  intro i s t h e he
  cases hi : isUnitL i with
  | true =>
    obtain ⟨bytes, rfl⟩ | ⟨ms, hm, hmem⟩ := (unitL_of_exec hi h).emits he
    · exact ⟨fun _ _ _ h => (nomatch h), fun _ h => (nomatch h)⟩
    · exact ⟨scriptOf_pulseAllowed s.cfg.property hm e hmem, fun l hl => scriptOf_writesEnable hm (hl ▸ hmem)⟩
  | false =>
    obtain ⟨-, hwr, hpulse⟩ := emitted_ofUnitB hi h e he
    exact ⟨fun q d l hq => absurd hq (hpulse q d l), fun l hl => absurd hl (hwr .en l)⟩

end Sys2Proof.Machine

/-! # The commands of Unit L

The gate, `CFGPINS` up to an invalid pin, what each completed command leaves, what the display latches, and the table of
events, strobes and times. -/

namespace Sys2Proof.Machine

/-! ## The gate and `LCD_STATE` -/

/-- Only Unit L has a state gate on `LCD_STATE` (R200). -/
theorem isUnitL_of_needsLcdState {i : Instr} {st : LcdState} (hn : needsLcdState i = some st) : isUnitL i = true := by
  cases i with
  | cfgpins | initdisp | sendcmd | wrnib | wrline | clear => rfl
  | calib | classify | rdraw | edge | sense5v => cases hn

/-- The gate refuses a Unit L request in any state but its own, before any event (R192, R200). -/
theorem exec_of_wrongLcdState {i : Instr} {s : State} {st : LcdState} (hn : needsLcdState i = some st)
    (hs : s.lcdState ≠ st) : exec i s = .next (s.faulted 2 i.opcode.code (s.lcdState.code.setWidth 16)) := by
  obtain ⟨t, he, ho⟩ := exec_unitL (isUnitL_of_needsLcdState hn) s
  cases ho with
  | misuse => exact he
  | argument row text hi hready =>
    subst hi
    exact absurd (hready.trans (Option.some.inj hn)) hs
  | ioError _ _ _ _ hn' | completes _ _ _ hn' => exact absurd (Option.some.inj (hn'.symm.trans hn)) hs

/-- A Unit L request gives `LCD_STATE` a new value only as a `CFGPINS` or an `INITDISP` that completes (R136). -/
theorem UnitLOutcome.lcdState_changes {i : Instr} {s t : State} (h : UnitLOutcome i s t) (hne : t.lcdState ≠ s.lcdState) :
    (i = .cfgpins ∧ s.lcdState = .uninitialized ∧ t.lcdState = .pinsConfigured ∧ t.fault = s.fault) ∨
    (i = .initdisp ∧ s.lcdState = .pinsConfigured ∧ t.lcdState = .displayReady ∧ t.fault = s.fault) := by
  cases h with
  | misuse | argument => exact absurd rfl hne
  | ioError ms p u _ _ _ hu =>
    obtain ⟨hsame, -⟩ := runMicro_state ms s
    rw [hu, Res.state_raised] at hsame
    exact absurd hsame.lcdState hne
  | completes ms u hm hn hu =>
    obtain ⟨hsame, -⟩ := runMicro_done hu
    cases i with
    | cfgpins => exact .inl ⟨rfl, (Option.some.inj hn).symm, rfl, hsame.fault⟩
    | initdisp => exact .inr ⟨rfl, (Option.some.inj hn).symm, rfl, hsame.fault⟩
    | sendcmd | wrnib | wrline | clear => exact absurd hsame.lcdState hne
    | calib | classify | rdraw | edge | sense5v => cases hm

/-- Settles O21: the two requests that complete with a new `LCD_STATE`, and the gate for every other pairing. -/
theorem lcdStateTransitions : Obligations.LcdStateTransitions := by
  refine ⟨fun s hp hs => ?cfgpins, fun s hp hs => ?initdisp, fun i s t h hne => ?only, fun i s st hn hs => ?gate⟩
  case cfgpins =>
    obtain ⟨t, he, hk⟩ := exec_unitL_known (i := .cfgpins) hp rfl (congrArg some hs.symm)
    exact ⟨t, he, congrArg State.lcdState hk⟩
  case initdisp =>
    obtain ⟨t, he, hk⟩ := exec_unitL_known (i := .initdisp) hp rfl (congrArg some hs.symm)
    exact ⟨t, he, congrArg State.lcdState hk⟩
  case only =>
    cases hi : isUnitL i with
    | true => exact (unitL_of_exec hi h).lcdState_changes hne
    | false => exact absurd (UnitBFrame.of_exec hi h).lcdState hne
  case gate => exact ⟨_, exec_of_wrongLcdState hn hs, rfl, rfl⟩

/-! ## `CFGPINS` -/

section Stops
variable {s : State} {p : Pin}

/-- Micro-steps stop at a primitive with an invalid pin, in the state that those before it leave (R15, R193). -/
theorem runMicro_raises {pre : List MicroOp} {m : MicroOp} (post : List MicroOp)
    (hpre : ∀ q ∈ pre.filterMap MicroOp.pin?, s.pinOk q = true) (hm : m.pin? = some p) (hbad : s.pinOk p = false) :
    ∃ u, runMicro pre s = .done u ∧ runMicro (pre ++ m :: post) s = .raised .io (s.phys p) u := by
  obtain ⟨u, hu⟩ := runMicro_of_pins hpre
  obtain ⟨hsame, -⟩ := runMicro_done hu
  refine ⟨u, hu, ?_⟩
  obtain ⟨hvalid, -⟩ | ⟨q, hq, -, hrun⟩ := m.run_cases u
  · rw [← hsame.pinOk, hvalid p hm] at hbad
    cases hbad
  · obtain rfl := Option.some.inj (hm.symm.trans hq)
    rw [runMicro_append, hu, Res.andThen_done, runMicro, hrun, Res.andThen_raised, State.phys, State.phys, hsame.par]

/-- What is known of the state after a Unit L request that stopped at an invalid pin: what the micro-steps before it have
done, and the fault entry (R196). -/
theorem stopped_known {pre : List MicroOp} {u : State} (hu : runMicro pre s = .done u) (op : Byte) (a : Aux) :
    (u.idle.dropLatches.raise .io op a).known = { s.known with
      pinLvl := pre.foldl MicroOp.levels s.pinLvl, pinDir := pre.foldl MicroOp.dirs s.pinDir, fault := ⟨3, op, a⟩,
      upc := 0, tmr := 0, trace := s.trace ++ pre.flatMap MicroOp.events ++ [.rsp [0x03]] } := by
  obtain ⟨hsame, htr, hlvl, hdir, -⟩ := runMicro_done hu
  obtain ⟨hcfg, hthr, hprev, hlcd, hcls, -, hrp, hreq, hana, hrst, -⟩ := hsame
  simp [State.known, hcfg, hthr, hprev, hlcd, hcls, hrp, hreq, hana, hrst, htr, hlvl, hdir, FaultKind.status, FaultKind.code]

end Stops

/-- The directions of `CFGPINS` for these pins, in this order (R125). -/
def makeOutputs (ps : List Pin) : List MicroOp := ps.map (.dir · true)

theorem makeOutputs_levels (ps : List Pin) (f : PinBits) : (makeOutputs ps).foldl MicroOp.levels f = f := by
  induction ps with
  | nil => rfl
  | cons p ps ih => exact ih

theorem makeOutputs_dirs (ps : List Pin) (f : PinBits) :
    (makeOutputs ps).foldl MicroOp.dirs f = ps.foldl (fun f q => f.set q true) f := List.foldl_map

theorem makeOutputs_events (ps : List Pin) : (makeOutputs ps).flatMap MicroOp.events = ps.map (.dir · true) := by
  induction ps with
  | nil => rfl
  | cons p ps ih => exact congrArg (Event.dir p true :: ·) ih

theorem makeOutputs_pins (ps : List Pin) : (makeOutputs ps).filterMap MicroOp.pin? = ps := by
  induction ps with
  | nil => rfl
  | cons p ps ih => exact congrArg (p :: ·) ih

/-- The pins before `p` in `Pin.all` are those with a lower number (R14). -/
theorem Pin.index_lt_of_mem_take (p : Pin) : ∀ q ∈ Pin.all.take p.index, q.index < p.index := by
  cases p <;> decide

/-- `CFGPINS` sets the direction of `p` right after those of the pins with a lower number (R125). -/
theorem configurePins_eq_append (c : Params) (p : Pin) :
    ∃ post, configurePins c = makeOutputs (Pin.all.take p.index) ++ .dir p true :: post := by
  cases p <;> exact ⟨_, rfl⟩

/-- Settles O30: `CFGPINS` runs its fourteen micro-steps, or those before the first invalid pin, or none. -/
theorem configurePinsCompletesOrStops : Obligations.ConfigurePins := by
  refine ⟨fun s hs hp => ?completes, fun s p hs hbad hbefore => ?stops, fun s hs => exec_of_wrongLcdState rfl hs⟩
  all_goals have hn : needsLcdState .cfgpins = some s.lcdState := congrArg some hs.symm
  case completes =>
    obtain ⟨t, he, hk⟩ := exec_unitL_known (i := .cfgpins) hp rfl hn
    exact ⟨t, he, by rw [hk, List.append_assoc]; rfl⟩
  case stops =>
    obtain ⟨post, hscript⟩ := configurePins_eq_append s.par p
    obtain ⟨u, hu, hraised⟩ := runMicro_raises (s := s) (pre := makeOutputs (Pin.all.take p.index)) (m := .dir p true) post
      (by rw [makeOutputs_pins]; exact fun q hq => hbefore q (p.index_lt_of_mem_take q hq)) rfl hbad
    obtain ⟨t, he, ho⟩ := exec_unitL (i := .cfgpins) rfl s
    refine ⟨t, he, ?_⟩
    rw [← hscript] at hraised
    obtain ⟨_, hdone, -⟩ | ⟨_, _, hraised', rfl⟩ := ho.of_admitted rfl hn
    · rw [hraised] at hdone
      cases hdone
    · obtain ⟨-, rfl, rfl⟩ := Res.raised.inj (hraised.symm.trans hraised')
      have hknown := stopped_known hu 0x10 (s.phys p)
      rwa [makeOutputs_levels, makeOutputs_dirs, makeOutputs_events] at hknown

/-! ## What the completed commands leave -/

/-- The parameters of a state are admissible (R9, R36). -/
theorem State.par_ok (s : State) : s.par.Ok := s.cfg.property

/-- The bring-up ROM ends with its entry at index 6 (R26). -/
theorem initSeq_eq_append {p : Params} (h : p.Ok) : p.initSeq = p.initSeq.take 6 ++ [p.initSeq.getD 6 0] := by
  have hlen := h.init_length
  rw [List.getD_eq_getElem _ _ (by omega), List.take_append_getElem, List.take_of_length_le (by omega)]

/-- The levels after the bring-up are those its last command leaves (R127). -/
theorem initSeq_levels {p : Params} (h : p.Ok) (f : PinBits) :
    (bringUp p 0 p.initSeq).foldl MicroOp.levels f =
      { (f.withNibble ((p.initSeq.getD 6 0).extractLsb' 0 4)) with rs := false } := by
  conv_lhs => rw [initSeq_eq_append h]
  exact bringUp_levels p _ 0 f _

/-- The script of a line on one of the two rows (R78, R131). -/
theorem scriptOf_wrline {row a : Byte} (hrow : (row = 1 ∧ a = 0x80) ∨ (row = 2 ∧ a = 0xC0)) (text : List Byte) (p : Params) :
    scriptOf (.wrline row text) p = some (lineSteps p a text) := by
  obtain ⟨rfl, rfl⟩ | ⟨rfl, rfl⟩ := hrow <;> rfl

/-- Settles O31: the completed micro-steps of the bring-up. -/
theorem initializeDisplay : Obligations.InitializeDisplay := by
  intro s hs hp
  obtain ⟨t, he, hk⟩ := exec_unitL_known (i := .initdisp) hp rfl (congrArg some hs.symm)
  rw [initSeq_levels s.par_ok, bringUp_dirs, bringUp_events] at hk
  exact ⟨t, he, hk⟩

/-- Settles O33: the completed micro-steps of a command. -/
theorem sendCommandCompletes : Obligations.SendCommandCompletes := by
  intro s b hs hp
  obtain ⟨t, he, hk⟩ := exec_unitL_known (i := .sendcmd b) hp rfl (congrArg some hs.symm)
  rw [sendCommand_levels, sendCommand_dirs, sendCommand_events] at hk
  exact ⟨t, he, hk⟩

/-- Settles O36: the completed micro-steps of a line. -/
theorem writeLineCompletes : Obligations.WriteLineCompletes := by
  intro s row text a hs hp hrow
  obtain ⟨t, he, hk⟩ := exec_unitL_known (i := .wrline row text) hp (scriptOf_wrline hrow text _) (congrArg some hs.symm)
  rw [lineSteps_levels, lineSteps_dirs, lineSteps_events] at hk
  exact ⟨t, he, hk⟩

/-- A completed `CLEAR` is the completed `SENDCMD CMD_CLEAR`: the same micro-steps, the same end (R133). -/
theorem exec_clear_eq_sendcmd {s : State} (hs : s.lcdState = .displayReady) (hp : s.pinsOk) :
    exec .clear s = exec (.sendcmd s.par.cmdClear) s := by
  have hn : some LcdState.displayReady = some s.lcdState := congrArg some hs.symm
  obtain ⟨u, hu, he⟩ := exec_unitL_completes (i := .clear) hp rfl hn
  obtain ⟨u', hu', he'⟩ := exec_unitL_completes (i := .sendcmd s.par.cmdClear) hp rfl hn
  obtain rfl := Res.done.inj (hu.symm.trans hu')
  exact he.trans he'.symm

/-- Settles O40: `CLEAR` is `SENDCMD` of a byte in `LONG_CMDS`. -/
theorem clearDisplay : Obligations.ClearDisplay := by
  intro s hs hp
  obtain ⟨t, he, hk⟩ := sendCommandCompletes s s.par.cmdClear hs hp
  have hlong : s.par.cmdClear ∈ s.par.longCmds := s.par_ok.long_has_clear
  refine ⟨t, (exec_clear_eq_sendcmd hs hp).trans he, he, ?_⟩
  rw [hk, commandEvents, if_pos hlong]
  simp only [List.append_assoc, List.singleton_append]

/-! ## Numbers of events and strobes, and least times -/

/-- The events are `n`, with `k` strobes among them, and take `us` microseconds at the least (R134). -/
structure Costs (es : List Event) (n k us : Nat) : Prop where
  length : es.length = n
  strobes : strobes es = k
  minUs : minUs es = us

section Costs
variable {p : Params} {es fs : List Event} {n k us n' k' us' : Nat}

theorem Costs.append (h : Costs es n k us) (h' : Costs fs n' k' us') : Costs (es ++ fs) (n + n') (k + k') (us + us') := by
  refine ⟨?_, ?_, ?_⟩
  · rw [List.length_append, h.length, h'.length]
  · rw [strobes_append, h.strobes, h'.strobes]
  · rw [Machine.minUs, List.map_append, List.sum_append]
    exact congrArg₂ (· + ·) h.minUs h'.minUs

theorem Costs.nil : Costs [] 0 0 0 := ⟨rfl, rfl, rfl⟩

theorem Costs.wr (q : Pin) (l : Bool) : Costs [.wr q l] 1 0 0 := ⟨rfl, rfl, rfl⟩

theorem Costs.rsp (bytes : List Byte) : Costs [.rsp bytes] 1 0 0 := ⟨rfl, rfl, rfl⟩

theorem Costs.hold (q : Pin) (d : Nat) : Costs [.hold q d] 1 0 d :=
  ⟨rfl, by simp [Machine.strobes, Event.isStrobe], by simp [Machine.minUs, Event.minUs]⟩

/-- What every command begins with (R129). -/
theorem Costs.commandStart (p : Params) : Costs [.wr .rs false, .hold .en p.tPreUs] 2 0 p.tPreUs := by
  simpa using (Costs.wr .rs false).append (.hold .en p.tPreUs)

theorem Costs.strobe {d : Nat} (h : 0 < d) : Costs [.pulse .en d true] 1 1 d :=
  ⟨rfl, by simp [Machine.strobes, Event.isStrobe, h], by simp [Machine.minUs, Event.minUs]⟩

theorem Costs.nibble (h : 0 < p.tEnUs) (x : Nibble) : Costs (nibbleEvents p x) 5 1 p.tEnUs := by
  have hlines : Costs [.wr .dl0 (x.getLsbD 0), .wr .dl1 (x.getLsbD 1), .wr .dl2 (x.getLsbD 2), .wr .dl3 (x.getLsbD 3)] 4 0 0 :=
    ⟨rfl, rfl, rfl⟩
  simpa [nibbleEvents] using hlines.append (.strobe h)

theorem Costs.byte (h : 0 < p.tEnUs) (b : Byte) : Costs (byteEvents p b) 10 2 (2 * p.tEnUs) := by
  rw [two_mul]
  exact (Costs.nibble h _).append (.nibble h _)

theorem Costs.configurePins (p : Params) : Costs ((configurePins p).flatMap MicroOp.events) 14 0 0 :=
  ⟨rfl, rfl, by simp [Machine.minUs, Machine.configurePins, MicroOp.events, Event.minUs]⟩

/-- A command costs its byte, the write of register select and the pre-strobe hold, and in `LONG_CMDS` the settle hold. -/
theorem Costs.command (h : 0 < p.tEnUs) (b : Byte) :
    Costs (commandEvents p b) (12 + if b ∈ p.longCmds then 1 else 0) 2
      (p.tPreUs + 2 * p.tEnUs + if b ∈ p.longCmds then p.tClearSettleUs else 0) := by
  have hsettle : Costs (if b ∈ p.longCmds then [.hold .en p.tClearSettleUs] else []) (if b ∈ p.longCmds then 1 else 0) 0
      (if b ∈ p.longCmds then p.tClearSettleUs else 0) := by
    split
    · exact .hold ..
    · exact .nil
  exact ((Costs.commandStart p).append (.byte h b)).append hsettle

theorem Costs.longCommand (h : 0 < p.tEnUs) {b : Byte} (hb : b ∈ p.longCmds) :
    Costs (commandEvents p b) 13 2 (p.tPreUs + 2 * p.tEnUs + p.tClearSettleUs) := by
  simpa only [if_pos hb] using Costs.command h b

theorem Costs.shortCommand (h : 0 < p.tEnUs) {b : Byte} (hb : b ∉ p.longCmds) :
    Costs (commandEvents p b) 12 2 (p.tPreUs + 2 * p.tEnUs) := by
  simpa only [if_neg hb, Nat.add_zero] using Costs.command h b

/-- Commands in a row: one more event and one settle time for each that is in `LONG_CMDS`. -/
theorem Costs.commands (h : 0 < p.tEnUs) (bs : List Byte) :
    Costs (bs.flatMap (commandEvents p)) (12 * bs.length + bs.countP (· ∈ p.longCmds)) (2 * bs.length)
      (bs.length * (p.tPreUs + 2 * p.tEnUs) + bs.countP (· ∈ p.longCmds) * p.tClearSettleUs) := by
  induction bs with
  | nil => simpa using Costs.nil
  | cons b bs ih =>
    obtain ⟨hlen, hstr, hmin⟩ := (Costs.command h b).append ih
    refine ⟨hlen.trans ?_, hstr.trans ?_, hmin.trans ?_⟩ <;> simp only [List.length_cons, List.countP_cons, decide_eq_true_eq]
    · ring
    · ring
    · split <;> ring

/-- A character costs its byte, and its gap if there is one (R109, R131). -/
theorem Costs.char (h : 0 < p.tEnUs) (c : Byte) :
    Costs (charEvents p c) (10 + if 0 < p.tCharGapUs then 1 else 0) 2 (2 * p.tEnUs + p.tCharGapUs) := by
  have hgap : Costs (if p.tCharGapUs = 0 then [] else [.hold .en p.tCharGapUs]) (if 0 < p.tCharGapUs then 1 else 0) 0
      p.tCharGapUs := by
    by_cases hg : p.tCharGapUs = 0
    · simpa [hg] using Costs.nil
    · simpa [hg, Nat.pos_of_ne_zero hg] using Costs.hold .en p.tCharGapUs
  exact (Costs.byte h c).append hgap

theorem Costs.text (h : 0 < p.tEnUs) (text : List Byte) :
    Costs (text.flatMap (charEvents p)) (text.length * (10 + if 0 < p.tCharGapUs then 1 else 0)) (2 * text.length)
      (text.length * (2 * p.tEnUs + p.tCharGapUs)) := by
  induction text with
  | nil => simpa using Costs.nil
  | cons c text ih =>
    obtain ⟨hlen, hstr, hmin⟩ := (Costs.char h c).append ih
    refine ⟨hlen.trans ?_, hstr.trans ?_, hmin.trans ?_⟩ <;> rw [List.length_cons] <;> ring

/-- A line whose row command is not in `LONG_CMDS` (R134). -/
theorem Costs.line (h : 0 < p.tEnUs) {a : Byte} (ha : a ∉ p.longCmds) (text : List Byte) :
    Costs (lineEvents p a text) (13 + text.length * (10 + if 0 < p.tCharGapUs then 1 else 0)) (2 + 2 * text.length)
      (p.tPreUs + 2 * p.tEnUs + text.length * (2 * p.tEnUs + p.tCharGapUs)) :=
  ((Costs.shortCommand h ha).append (.wr .rs true)).append (.text h text)

/-- An admitted request with all pins valid costs its micro-steps and the response, which takes no time. -/
theorem Costs.emitted {i : Instr} {s t : State} {ms : List MicroOp} (hp : s.pinsOk) (hm : scriptOf i s.par = some ms)
    (hn : needsLcdState i = some s.lcdState) (h : exec i s = .next t) (hc : Costs (ms.flatMap MicroOp.events) n k us) :
    (emitted s t).length = n + 1 ∧ Machine.strobes (emitted s t) = k ∧ Machine.minUs (emitted s t) = us := by
  rw [emitted_of_script hp hm hn h]
  obtain ⟨hlen, hstr, hmin⟩ := hc.append (.rsp [0x00])
  exact ⟨hlen, hstr, hmin⟩

end Costs

/-- Settles O43: the cost of each operation's micro-steps, and of the response. -/
theorem eventStrobeAndTimeTable : Obligations.EventStrobeAndTimeTable := by
  intro s hp
  have hen := s.tEnUs_pos
  refine ⟨fun t hs h => ?cfgpins, fun n t hs h => ?wrnib, fun b t hs hb h => ?sendcmdShort, fun b t hs hb h => ?sendcmdLong,
    fun t hs h => ?clear, fun t k hk hs h => ?initdisp, fun row text t g hrow hg hs h80 hC0 h => ?wrline⟩
  case cfgpins => exact Costs.emitted (i := .cfgpins) hp rfl (congrArg some hs.symm) h (.configurePins _)
  case wrnib =>
    exact Costs.emitted (i := .wrnib n) hp rfl (congrArg some hs.symm) h (by rw [writeNibble_events]; exact .nibble hen n)
  case sendcmdShort =>
    exact Costs.emitted (i := .sendcmd b) hp rfl (congrArg some hs.symm) h
      (by rw [sendCommand_events]; exact .shortCommand hen hb)
  case sendcmdLong =>
    exact Costs.emitted (i := .sendcmd b) hp rfl (congrArg some hs.symm) h
      (by rw [sendCommand_events]; exact .longCommand hen hb)
  case clear =>
    exact Costs.emitted (i := .clear) hp rfl (congrArg some hs.symm) h
      (by rw [sendCommand_events]; exact .longCommand hen s.par_ok.long_has_clear)
  case initdisp =>
    have hseq := Costs.commands hen s.par.initSeq
    rw [s.par_ok.init_length, ← hk] at hseq
    exact Costs.emitted (i := .initdisp) hp rfl (congrArg some hs.symm) h (by rw [bringUp_events]; exact hseq)
  case wrline =>
    obtain ⟨a, ha, hlong⟩ : ∃ a, ((row = 1 ∧ a = 0x80) ∨ (row = 2 ∧ a = 0xC0)) ∧ a ∉ s.par.longCmds := by
      obtain rfl | rfl := hrow
      · exact ⟨0x80, .inl ⟨rfl, rfl⟩, h80⟩
      · exact ⟨0xC0, .inr ⟨rfl, rfl⟩, hC0⟩
    subst hg
    exact Costs.emitted (i := .wrline row text) hp (scriptOf_wrline ha text _) (congrArg some hs.symm) h
      (by rw [lineSteps_events]; exact .line hen hlong text)

/-! ## What is latched, and where the holds stand -/

section Holds
variable {p : Params}

theorem filter_isHold_nibble (x : Nibble) : (nibbleEvents p x).filter Event.isHold = [] := by
  simp [nibbleEvents, Event.isHold]

theorem hold_isHold (q : Pin) {d : Nat} (hd : 0 < d) : (Event.hold q d).isHold = true := by simp [Event.isHold, hd]

/-- A command outside `LONG_CMDS` holds once, before its strobes (R129). -/
theorem filter_isHold_command (h : 0 < p.tPreUs) {b : Byte} (hb : b ∉ p.longCmds) :
    (commandEvents p b).filter Event.isHold = [.hold .en p.tPreUs] := by
  simp only [commandEvents, byteEvents, if_neg hb, List.filter_append, filter_isHold_nibble, List.filter_cons,
    hold_isHold .en h]
  rfl

/-- Commands outside `LONG_CMDS` hold once each. -/
theorem filter_isHold_commands (h : 0 < p.tPreUs) {bs : List Byte} (hb : ∀ b ∈ bs, b ∉ p.longCmds) :
    (bs.flatMap (commandEvents p)).filter Event.isHold = List.replicate bs.length (.hold .en p.tPreUs) := by
  induction bs with
  | nil => rfl
  | cons b bs ih =>
    obtain ⟨hb, hbs⟩ := List.forall_mem_cons.mp hb
    rw [List.flatMap_cons, List.filter_append, filter_isHold_command h hb, ih hbs]
    rfl

/-- The events of a command before its second strobe (R129). -/
def commandHead (p : Params) (b : Byte) : List Event :=
  [.wr .rs false, .hold .en p.tPreUs] ++ nibbleEvents p (b.extractLsb' 4 4) ++ (nibbleEvents p (b.extractLsb' 0 4)).take 4

/-- The settle hold of a command in `LONG_CMDS` comes right after its second strobe (R129). -/
theorem commandEvents_of_long {b : Byte} (hb : b ∈ p.longCmds) :
    commandEvents p b = commandHead p b ++ [.pulse .en p.tEnUs true, .hold .en p.tClearSettleUs] := by
  rw [commandEvents, if_pos hb]
  rfl

theorem strobes_commandHead (h : 0 < p.tEnUs) (b : Byte) : strobes (commandHead p b) = 1 := by
  rw [commandHead, strobes_append, strobes_append, (Costs.commandStart p).strobes,
    (Costs.nibble h _).strobes]
  rfl

theorem filter_isHold_commandHead (h : 0 < p.tPreUs) (b : Byte) :
    (commandHead p b).filter Event.isHold = [.hold .en p.tPreUs] := by
  simp only [commandHead, List.filter_append, filter_isHold_nibble, List.filter_cons, hold_isHold .en h]
  rfl

theorem filter_isStrobe_nibble (h : 0 < p.tEnUs) (x : Nibble) :
    (nibbleEvents p x).filter Event.isStrobe = [.pulse .en p.tEnUs true] := by
  simp [nibbleEvents, Event.isStrobe, h]

end Holds

/-- Settles O34: the events of a command are its two nibbles between events that do not strobe. -/
theorem sendCommandLatchesTwoNibbles : Obligations.SendCommandLatchesTwoNibbles := by
  intro s t b hs hp h
  have hev := emitted_of_script (i := .sendcmd b) hp rfl (congrArg some hs.symm) h
  rw [sendCommand_events] at hev
  -- The events before the first nibble and those after the second.
  obtain ⟨before, after, hsplit, hbefore, hafter⟩ : ∃ before after, emitted s t = before ++
      nibbleEvents s.par (b.extractLsb' 4 4) ++ nibbleEvents s.par (b.extractLsb' 0 4) ++ after ∧
      strobes before = 0 ∧ strobes after = 0 := by
    refine ⟨[.wr .rs false, .hold .en s.par.tPreUs],
      (if b ∈ s.par.longCmds then [.hold .en s.par.tClearSettleUs] else []) ++ [.rsp [0x00]], ?split,
      (Costs.commandStart s.par).strobes, ?after⟩
    case split => simp only [hev, commandEvents, byteEvents, List.append_assoc]
    case after =>
      rw [strobes_append]
      split
      · rw [(Costs.hold .en s.par.tClearSettleUs).strobes]; rfl
      · rfl
  refine ⟨?latched, ?strobes, before, after, hsplit, hbefore, hafter⟩
  case latched =>
    rw [hev, latched_append, (latched_command s.tEnUs_pos ..).1, latched_rsp]
    rfl
  case strobes =>
    rw [strobes, List.countP_eq_length_filter, List.length_eq_zero_iff] at hbefore hafter
    rw [hsplit]
    simp only [List.filter_append, hbefore, hafter, filter_isStrobe_nibble s.tEnUs_pos]
    rfl

/-- Settles O32: the commands of the ROM in a row; in the default ROM the fifth is the one in `LONG_CMDS`. -/
theorem initializeDisplayLatches : Obligations.InitializeDisplayLatches := by
  intro s t hs hp h
  have hev := emitted_of_script (i := .initdisp) hp rfl (congrArg some hs.symm) h
  rw [bringUp_events] at hev
  have hlatched : latched s.pinLvl (emitted s t) = s.par.initSeq.flatMap (bytePairs false) := by
    rw [hev, latched_append, latched_commands s.tEnUs_pos, latched_rsp, List.append_nil]
  refine ⟨hlatched, fun hseq hlong => ⟨?pairs, ?settle⟩⟩
  case pairs => rw [hlatched, hseq]; rfl
  case settle =>
    have hpre : 0 < s.par.tPreUs := s.par_ok.tPre_pos
    have hclear : (0x01 : Byte) ∈ s.par.longCmds := by rw [hlong]; decide
    have hfirst : ∀ b ∈ ([0x33, 0x32, 0x28, 0x0C] : List Byte), b ∉ s.par.longCmds := by rw [hlong]; decide
    have hlast : ∀ b ∈ ([0x06, 0x02] : List Byte), b ∉ s.par.longCmds := by rw [hlong]; decide
    refine ⟨[0x33, 0x32, 0x28, 0x0C].flatMap (commandEvents s.par) ++ commandHead s.par 0x01,
      [0x06, 0x02].flatMap (commandEvents s.par) ++ [.rsp [0x00]], ?split, ?strobes, ?holdsBefore, ?holdsAfter⟩
    case split =>
      rw [hev, hseq]
      simp only [List.flatMap_cons, List.flatMap_nil, List.append_nil, List.append_assoc, commandEvents_of_long hclear]
    case strobes => rw [strobes_append, (Costs.commands s.tEnUs_pos _).strobes, strobes_commandHead s.tEnUs_pos]; rfl
    case holdsBefore =>
      rw [List.filter_append, filter_isHold_commands hpre hfirst, filter_isHold_commandHead hpre]
      rfl
    case holdsAfter =>
      rw [List.filter_append, filter_isHold_commands hpre hlast]
      rfl

/-- Settles O38: the pairs of the row-1 command and of the two characters. -/
theorem writeLineHiExample : Obligations.WriteLineHiExample := by
  intro s t hs hp h
  have hrow : ((1 : Byte) = 1 ∧ (0x80 : Byte) = 0x80) ∨ ((1 : Byte) = 2 ∧ (0x80 : Byte) = 0xC0) := .inl ⟨rfl, rfl⟩
  rw [emitted_of_script hp (scriptOf_wrline hrow _ _) (congrArg some hs.symm) h, lineSteps_events, latched_append,
    latched_line s.tEnUs_pos, latched_rsp]
  rfl

end Sys2Proof.Machine

/-! # Fixed point, and where a calibration stops

The four fixed-point functions on exact integers, the table of `CALIB` with the spec's `bvr` as one equation on natural numbers,
and the check that stops a calibration, with the spec's `bvr` or another. -/

namespace Sys2Proof.Machine

/-! ## Conversion -/

/-- `from_fx` undoes the multiplication by 10000 (R152, R153). -/
theorem fromFx_of_toInt {f : Fx} {n : Int} (h : f.toInt = n * 10000) : fromFx f = n := by
  rw [fromFx, h, fxScale]
  exact Int.mul_tdiv_cancel n (by decide)

theorem fromFx_of_nonneg {f : Fx} (h : 0 ≤ f.toInt) : fromFx f = f.toInt / 10000 :=
  Int.tdiv_eq_ediv_of_nonneg h

/-- A negative value is truncated toward zero: the magnitude is divided, then the sign is put back (R153). -/
theorem fromFx_of_neg {f : Fx} (h : f.toInt < 0) : fromFx f = -(-f.toInt / 10000) := by
  rw [fromFx, fxScale, ← Int.tdiv_eq_ediv_of_nonneg (by omega : 0 ≤ -f.toInt), Int.neg_tdiv, neg_neg]

/-- Settles O44: `n * 10000` fits 32 bits exactly in the stated range. -/
theorem fixedPointConversion : Obligations.FixedPointConversion := by
  refine ⟨fun n h0 h1 => ?fits, fun n hn => ?overflows, fun f => fromFx_of_nonneg, fun f => fromFx_of_neg⟩
  case fits =>
    rcases fxNarrow_cases (n * fxScale) with ⟨-, -, f, hf, hfi⟩ | ⟨hout, -⟩
    · exact ⟨f, hf, hfi, fromFx_of_toInt hfi⟩
    · rw [fxScale] at hout
      omega
  case overflows =>
    rcases fxNarrow_cases (n * fxScale) with ⟨h0, h1, -⟩ | ⟨-, h⟩
    · rw [fxScale] at h0 h1
      omega
    · exact h

/-! ## Multiplication and division -/

/-- A product has the product of the magnitudes, and is negative when the signs differ (or 0, where the sign does not matter). -/
theorem mul_magnitudes (x y : Int) :
    x * y = if (x < 0) = (y < 0) then ((x.natAbs * y.natAbs : Nat) : Int) else -((x.natAbs * y.natAbs : Nat) : Int) := by
  rw [Nat.cast_mul]
  rcases lt_or_ge x 0 with hx | hx <;> rcases lt_or_ge y 0 with hy | hy
  · rw [if_pos (by simp only [hx, hy]), Int.ofNat_natAbs_of_nonpos hx.le, Int.ofNat_natAbs_of_nonpos hy.le, neg_mul_neg]
  · rw [if_neg (by simp [hx, hy]), Int.ofNat_natAbs_of_nonpos hx.le, Int.natAbs_of_nonneg hy, neg_mul, neg_neg]
  · rw [if_neg (by simp [hx, hy]), Int.natAbs_of_nonneg hx, Int.ofNat_natAbs_of_nonpos hy.le, mul_neg, neg_neg]
  · rw [if_pos (by simp only [not_lt.mpr hx, not_lt.mpr hy]), Int.natAbs_of_nonneg hx, Int.natAbs_of_nonneg hy]

/-- The truncated quotient of a product is the floor on the magnitudes, with the product's sign (R154, R157). -/
theorem mul_tdiv_magnitudes (x y : Int) (d : Nat) : (x * y).tdiv d =
    if (x < 0) = (y < 0) then ((x.natAbs * y.natAbs / d : Nat) : Int) else -((x.natAbs * y.natAbs / d : Nat) : Int) := by
  rw [mul_magnitudes]
  split
  · exact (Int.ofNat_tdiv _ _).symm
  · rw [Int.neg_tdiv, Int.ofNat_tdiv]

/-- The truncated quotient of a scaled dividend is the floor on the magnitudes, negative when the signs differ (R155, R157). -/
theorem scaled_tdiv_magnitudes (x : Int) {y : Int} (hy : y ≠ 0) : (x * fxScale).tdiv y =
    if (x < 0) = (y < 0) then ((x.natAbs * 10000 / y.natAbs : Nat) : Int) else -((x.natAbs * 10000 / y.natAbs : Nat) : Int) := by
  have hneg : (x * fxScale < 0) = (x < 0) := by
    rw [fxScale, eq_iff_iff]
    omega
  rw [tdiv_magnitudes _ y hy, Int.natAbs_mul]
  exact if_congr (by rw [hneg]) rfl rfl

/-- Settles O45: both functions narrow the exact quotient, which is the one of the magnitudes with the product's sign. -/
theorem fixedPointMultiplyAndDivide : Obligations.FixedPointMultiplyAndDivide := by
  refine ⟨fun a b n hn => ?product, fun m a b hm => if_pos hm, fun m a b n hm hb hn => ?quotient⟩
  case product =>
    rw [hn, ← mul_tdiv_magnitudes]
    rfl
  case quotient =>
    rw [fxDiv, if_neg hm, scaled_tdiv_magnitudes a.toInt hb, ← hn]
    rfl

/-! ## The table of `CALIB` -/

theorem toFx_sample_iff {v : Sample} {f : Fx} : toFx v.toNat = .ok f ↔ f.toInt = (v.toNat : Int) * 10000 := by
  obtain ⟨g, hg, hgi⟩ := toFx_sample v
  rw [hg, ← hgi, FxResult.ok.injEq, BitVec.toInt_inj]
  exact eq_comm

theorem implausible_eq_false {p : Params} {v : Sample} : implausible p v = false ↔ p.calMin ≤ v.toNat := by
  rw [implausible, decide_eq_false_iff_not, Nat.not_lt]

/-- The exact threshold of ratio `r` from the ratio function's value `w` (R170), before it must fit 16 bits. -/
def exactTick (w r : Fx) : Int := ((w.toInt * r.toInt).tdiv 10000).tdiv 10000

/-- On a value and a ratio that are not negative it is the floor. -/
theorem exactTick_of_nat {w r : Fx} {n : Nat} (hw : w.toInt = (n : Int)) (hr : 0 ≤ r.toInt) :
    exactTick w r = ((n * r.toInt.toNat / 10000 / 10000 : Nat) : Int) := by
  have hprod : w.toInt * r.toInt = ((n * r.toInt.toNat : Nat) : Int) := by
    rw [hw, Nat.cast_mul, Int.toNat_of_nonneg hr]
  rw [exactTick, hprod]
  rfl

/-- With the spec's `bvr`, plausible samples and a `bvr` that fits 32 bits, the table of `CALIB` on natural numbers (R169, R170,
R173): no threshold is larger than the first, so that one decides about 16 bits. -/
theorem calibTable_rescaled {p : Params} (hp : p.Ok) (hr : p.bvr = .rescaled) {b v : Sample} (hb : p.calMin ≤ b.toNat)
    (hv : p.calMin ≤ v.toNat) {n : Nat} (hn : n = b.toNat * (v.toNat * 10000 / p.vNomTicks)) (hfit : n ≤ 2147483647)
    {thr : Fx → Nat} (hthr : ∀ r, thr r = n * r.toInt.toNat / 10000 / 10000) :
    calibTable p b v =
      if 65535 < thr p.ratioFx.r1 then .error 5
      else if p.calCheckSpacing = true ∧ ¬ (thr p.ratioFx.r1 + 10 < b.toNat ∧ thr p.ratioFx.r2 + 10 < thr p.ratioFx.r1 ∧
        thr p.ratioFx.r3 + 10 < thr p.ratioFx.r2 ∧ thr p.ratioFx.r4 + 10 < thr p.ratioFx.r3 ∧
        thr p.ratioFx.r5 + 10 < thr p.ratioFx.r4) then .error 6
      else .ok ⟨.ofTicks (b.setWidth 16), .ofTicks (.ofNat 16 (thr p.ratioFx.r1)), .ofTicks (.ofNat 16 (thr p.ratioFx.r2)),
        .ofTicks (.ofNat 16 (thr p.ratioFx.r3)), .ofTicks (.ofNat 16 (thr p.ratioFx.r4)),
        .ofTicks (.ofNat 16 (thr p.ratioFx.r5))⟩ := by
  obtain ⟨bFx, hbF, hbi⟩ := toFx_sample b
  obtain ⟨vFx, hvF, hvi⟩ := toFx_sample v
  obtain ⟨f, hf, hfi⟩ := bvr_rescaled hp hr hbi hvi (by have := v.isLt; omega) (hn ▸ hfit)
  have htick : ∀ r ∈ [p.ratioFx.r1, p.ratioFx.r2, p.ratioFx.r3, p.ratioFx.r4, p.ratioFx.r5],
      exactTick f r = (thr r : Int) ∧ thr r ≤ thr p.ratioFx.r1 := by
    intro r hmem
    obtain ⟨h0, -, hmax⟩ := ratios_bounds hp r hmem
    refine ⟨by rw [exactTick_of_nat (hn ▸ hfi) h0, hthr], ?_⟩
    rw [hthr, hthr]
    exact Nat.div_le_div_right (Nat.div_le_div_right (Nat.mul_le_mul_left n (Int.toNat_le_toNat hmax)))
  have hout : (∃ r ∈ [p.ratioFx.r1, p.ratioFx.r2, p.ratioFx.r3, p.ratioFx.r4, p.ratioFx.r5],
      exactTick f r < 0 ∨ 65535 < exactTick f r) ↔ 65535 < thr p.ratioFx.r1 := by
    constructor
    · rintro ⟨r, hmem, h⟩
      obtain ⟨he, hle⟩ := htick r hmem
      omega
    · intro h
      have he := (htick p.ratioFx.r1 (by simp)).1
      exact ⟨p.ratioFx.r1, by simp, .inr (by omega)⟩
  rw [calibTable_of_bvr hp (implausible_eq_false.mpr hb) (implausible_eq_false.mpr hv) hbF hvF hf (tick := exactTick f)
    (fun _ => rfl), if_congr hout rfl rfl]
  simp only [List.mem_cons, List.not_mem_nil, or_false, forall_eq_or_imp, forall_eq] at htick
  obtain ⟨⟨h1, -⟩, ⟨h2, -⟩, ⟨h3, -⟩, ⟨h4, -⟩, ⟨h5, -⟩⟩ := htick
  simp only [h1, h2, h3, h4, h5, BitVec.ofInt_natCast]
  norm_cast

/-- With the spec's `bvr` too large for 32 bits, `aux` is 4 (R158). -/
theorem calibTable_rescaled_overflow {p : Params} (hp : p.Ok) (hr : p.bvr = .rescaled) {b v : Sample} (hb : p.calMin ≤ b.toNat)
    (hv : p.calMin ≤ v.toNat) (hover : 2147483647 < b.toNat * (v.toNat * 10000 / p.vNomTicks)) :
    calibTable p b v = .error 4 := by
  obtain ⟨bFx, hbF, hbi⟩ := toFx_sample b
  obtain ⟨vFx, hvF, hvi⟩ := toFx_sample v
  have hover' := bvr_rescaled_overflow hp hr hbi hvi (by have := v.isLt; omega) hover
  exact calibTable_of_no_bvr (implausible_eq_false.mpr hb) (implausible_eq_false.mpr hv) hbF hvF (by rw [hover']; rfl)

/-! ## No overflow with `CAL_MIN` at least 10 -/

/-- The bound of rule R159: with `V_NOM_TICKS` at least 10 the largest `bvr` is `1023 * 1023000`. -/
theorem bvr_fits {p : Params} (hp : p.Ok) (hmin : 10 ≤ p.calMin) (b v : Sample) :
    b.toNat * (v.toNat * 10000 / p.vNomTicks) ≤ 2147483647 := by
  have hb : b.toNat ≤ 1023 := Nat.le_of_lt_succ b.isLt
  have hv : v.toNat ≤ 1023 := Nat.le_of_lt_succ v.isLt
  have hq : v.toNat * 10000 / p.vNomTicks ≤ 1023 * 10000 / 10 :=
    Nat.div_le_div (Nat.mul_le_mul_right _ hv) (hmin.trans hp.vNom_min) (by decide)
  calc b.toNat * (v.toNat * 10000 / p.vNomTicks) ≤ 1023 * (1023 * 10000 / 10) := Nat.mul_le_mul hb hq
    _ ≤ 2147483647 := by decide

/-- The checks of `CALIB` that can fail with the spec's `bvr` and `CAL_MIN` at least 10 (R159). -/
theorem calibTable_aux {p : Params} (hp : p.Ok) (hmin : 10 ≤ p.calMin) (hr : p.bvr = .rescaled) {b v : Sample} {a : Aux}
    (h : calibTable p b v = .error a) : a = 1 ∨ a = 2 ∨ a = 5 ∨ a = 6 := by
  rcases calibTable_error h with ⟨ha, -⟩ | ⟨ha, -⟩ | ⟨hb, hv, -⟩
  · exact .inl ha
  · exact .inr (.inl ha)
  · rw [calibTable_rescaled hp hr (implausible_eq_false.mp hb) (implausible_eq_false.mp hv) rfl (bvr_fits hp hmin b v)
      (fun _ => rfl)] at h
    split_ifs at h
    · exact .inr (.inr (.inl (Except.error.inj h).symm))
    · exact .inr (.inr (.inr (Except.error.inj h).symm))

/-- Settles O51: a `CalibrationError` comes from the table, whose failing checks are those of `calibTable_aux`. -/
theorem calibrationNeverOverflows : Obligations.CalibrationNeverOverflows := by
  intro s t hs hmin hr he hk
  obtain ⟨-, e⟩ | ⟨-, -, e⟩ | ⟨-, -, ⟨a, ha, e⟩ | ⟨f, -, e⟩⟩ := execCalib_cases s <;>
    obtain rfl := Host.Outcome.next.inj (e.symm.trans he)
  · exact absurd hk (by decide : FaultKind.io.code ≠ 1)
  · exact absurd hk (by decide : FaultKind.io.code ≠ 1)
  · rw [State.raise_fault]
    rcases calibTable_aux s.par_ok hmin hr ha with rfl | rfl | rfl | rfl <;> decide
  · have hkind : s.fault.kind = 1 := by simpa using hk
    rw [hs] at hkind
    cases hkind

/-! ## The first failing check -/

/-- With both channels valid `CALIB` raises the check that its table fails (R170). -/
theorem execCalib_of_error {s : State} {b v : Sample} {a : Aux} (c1 : s.chanOk .btn) (c2 : s.chanOk .vsense) (hb : s.draw = b)
    (hv : s.drawn.draw = v) (h : calibTable s.par b v = .error a) :
    ∃ t, exec .calib s = .next t ∧ t.known = (s.calibFaulted b v a).known := by
  have ht := execCalib_of_table c1 c2 hb hv
  rw [h] at ht
  exact ht

/-- Settles O58: the three cases are those of the table's equations. -/
theorem calibrationRaisesAtTheFirstFailingCheck : Obligations.CalibrationRaisesAtTheFirstFailingCheck := by
  intro s b v q thr aux c1 c2 hb hv hr hbmin hvmin hq hthr hcase
  subst hq
  refine execCalib_of_error c1 c2 hb hv ?_
  rcases hcase with ⟨hover, rfl⟩ | ⟨hfit, hlarge, rfl⟩ | ⟨hfit, hsmall, hcheck, hclose, rfl⟩
  · exact calibTable_rescaled_overflow s.par_ok hr hbmin hvmin hover
  · rw [calibTable_rescaled s.par_ok hr hbmin hvmin rfl hfit hthr, if_pos hlarge]
  · rw [calibTable_rescaled s.par_ok hr hbmin hvmin rfl hfit hthr, if_neg (Nat.not_lt.mpr hsmall),
      if_pos ⟨hcheck, by omega⟩]

/-! ## Another ratio function -/

theorem bvr_other {p : Params} (h : p.bvr = .other) (bFx vFx : Fx) : bvr p bFx vFx = Config.bvrOther bFx vFx := by
  rw [bvr, h]

@[simp] theorem State.known_thr (s : State) : s.known.thr = s.thr := rfl
@[simp] theorem State.calibStored_thr (s : State) (b v : Sample) (f : ThrFile) : (s.calibStored b v f).thr = f := rfl

/-- Settles O59: the table's equations, with `Config.bvrOther` for `bvr`. -/
theorem calibrationWithAnotherRatioFunction : Obligations.CalibrationWithAnotherRatioFunction := by
  intro s b v bFx vFx c1 c2 hb hv hr hbmin hvmin hbi hvi
  have hbP := implausible_eq_false.mpr hbmin
  have hvP := implausible_eq_false.mpr hvmin
  have hbF := toFx_sample_iff.mpr hbi
  have hvF := toFx_sample_iff.mpr hvi
  have hbvr := bvr_other hr bFx vFx
  obtain ⟨t, he, ht⟩ := execCalib_of_table c1 c2 hb hv
  refine ⟨t, he, ?_⟩
  cases hw : Config.bvrOther bFx vFx with
  | rejected =>
    rw [calibTable_of_no_bvr hbP hvP hbF hvF (a := 3) (by rw [hbvr, hw]; rfl)] at ht
    exact ht
  | overflow =>
    rw [calibTable_of_no_bvr hbP hvP hbF hvF (a := 4) (by rw [hbvr, hw]; rfl)] at ht
    exact ht
  | ok w =>
    intro tick htick
    rw [calibTable_of_bvr s.par_ok hbP hvP hbF hvF (hbvr.trans hw) htick] at ht
    refine ⟨fun hout => ?range, fun hin => ?_⟩
    case range =>
      rw [if_pos hout] at ht
      exact ht
    rw [if_neg (by rintro ⟨r, hmem, h⟩; have := hin r hmem; omega)] at ht
    refine ⟨fun ⟨hcheck, hclose⟩ => ?spacing, fun hspaced => ?stored⟩
    case spacing =>
      rw [if_pos ⟨hcheck, by omega⟩] at ht
      exact ht
    case stored =>
      rw [if_neg (by rintro ⟨hcheck, hnot⟩; exact hnot (hspaced.resolve_left (by simp [hcheck])))] at ht
      have hthr := congrArg State.thr ht
      rw [State.known_thr, State.known_thr, State.calibStored_thr] at hthr
      have hkeep := fun r hmem => ticks_ofInt (hin r hmem).1 (hin r hmem).2
      simp only [List.mem_cons, List.not_mem_nil, or_false, forall_eq_or_imp, forall_eq] at hkeep
      obtain ⟨h1, h2, h3, h4, h5⟩ := hkeep
      refine ⟨by rw [hthr]; exact ht, ?_⟩
      simp only [hthr, ThrFile.ticks, ThrEntry.ticks_ofTicks, List.map_cons, List.map_nil, sample_ticks, h1, h2, h3, h4, h5]

end Sys2Proof.Machine

/-! # The button classifier

What an analog read leaves known of a state, then each request of Unit B: the lowest matching threshold, the raw sample, the edge,
the supply in millivolts, and the ends of a calibration. -/

namespace Sys2Proof.Machine

/-! ## An analog read and the end of its request -/

section Read
variable (s : State) (c : Chan) (v : Sample)

/-- A request that reads once and answers: its whole effect (R92, R165). -/
theorem State.known_read_rsp (bytes : List Byte) : ((s.drawn.emit (.adc c v)).idle.rsp bytes).known = { s.known with
    ana := s.ana.tail, upc := 0, tmr := 0, trace := s.trace ++ [.adc c v, .rsp bytes] } := by
  rw [s.drawn_eq, ← List.singleton_append, ← List.append_assoc]
  rfl

/-- A request that reads once and raises: its whole effect (R165, R196). -/
theorem State.known_read_raise (k : FaultKind) (op : Byte) (a : Aux) :
    ((s.drawn.emit (.adc c v)).idle.raise k op a).known = { s.known with
      fault := ⟨k.code, op, a⟩, ana := s.ana.tail, upc := 0, tmr := 0,
      trace := s.trace ++ [.adc c v, .rsp [k.status]] } := by
  rw [s.drawn_eq, ← List.singleton_append, ← List.append_assoc]
  rfl

/-- A request that raises `IOError` at its first read: no event but the response (R165, R199). -/
theorem State.known_idle_raise_io (op : Byte) (a : Aux) : (s.idle.raise .io op a).known = { s.known with
    fault := ⟨3, op, a⟩, upc := 0, tmr := 0, trace := s.trace ++ [.rsp [0x03]] } := rfl

end Read

/-- The two bytes of a response's payload make its value (R58, R93). -/
theorem ticksBytes_value (t : Ticks) :
    ∃ hi lo, ticksBytes t = [hi, lo] ∧ hi.toNat * 256 + lo.toNat = t.toNat :=
  ⟨_, _, rfl, (ThrEntry.toNat_bytes t).symm⟩

/-! ## `CLASSIFY` -/

theorem comparator_iff (x t : Ticks) : comparator x t = true ↔ ((x.toNat : Int) - t.toNat).natAbs < 10 :=
  decide_eq_true_iff

theorem comparator_eq_false_iff (x t : Ticks) : comparator x t = false ↔ 10 ≤ ((x.toNat : Int) - t.toNat).natAbs :=
  decide_eq_false_iff_not.trans Nat.not_lt

/-- Settles O52: a distance below 10 on integers is the window of nine ticks. -/
theorem comparatorWindow : Obligations.ComparatorWindow := by
  intro s t
  rw [comparator_iff]
  omega

/-- The priority pick, everything it can answer (R174, R175): `NONE` when no entry matches, else the index of the first that does. -/
theorem pick_cases (x : Ticks) (i : Nat) (entries : List Ticks) :
    (pick x i entries = noneCode ∧ ∀ t ∈ entries, comparator x t = false) ∨
    ∃ k t, pick x i entries = BitVec.ofNat 8 (i + k) ∧ entries[k]? = some t ∧ comparator x t = true ∧
      ∀ u ∈ entries.take k, comparator x u = false := by
  induction entries generalizing i with
  | nil => exact .inl ⟨rfl, by simp⟩
  | cons e rest ih =>
    cases he : comparator x e with
    | true => exact .inr ⟨0, e, by simp [pick, he], rfl, he, by simp⟩
    | false =>
      have hpick : pick x i (e :: rest) = pick x (i + 1) rest := by simp [pick, he]
      rw [hpick]
      rcases ih (i + 1) with ⟨hnone, hall⟩ | ⟨k, t, hk, hget, ht, hbefore⟩
      · exact .inl ⟨hnone, List.forall_mem_cons.mpr ⟨he, hall⟩⟩
      · refine .inr ⟨k + 1, t, by rw [hk, Nat.add_right_comm, Nat.add_assoc], hget, ht, ?_⟩
        exact List.forall_mem_cons.mpr ⟨he, hbefore⟩

/-- Settles O53: the answer is the priority pick over the six entries. -/
theorem classifyAnswersTheLowestMatch : Obligations.ClassifyAnswersTheLowestMatch := by
  intro s x hcal
  obtain ⟨-, he⟩ | ⟨hun, -⟩ := execClassify_cases x s
  · refine ⟨_, he, ?_⟩
    rcases pick_cases x 0 s.thr.ticks with ⟨hnone, hall⟩ | ⟨k, t, hk, hget, ht, hbefore⟩
    · exact .inl ⟨hnone, fun u hu => (comparator_eq_false_iff x u).mp (hall u hu)⟩
    · have hk6 : k < 6 := (List.getElem?_eq_some_iff.mp hget).1
      have hindex : (pick x 0 s.thr.ticks).toNat = k := by
        rw [hk, BitVec.toNat_ofNat]
        omega
      rw [hindex]
      exact .inr ⟨hk6, t, hget, (comparator_iff x t).mp ht, fun u hu => (comparator_eq_false_iff x u).mp (hbefore u hu)⟩
  · rw [hcal] at hun
    cases hun

/-! ## `RDRAW` -/

/-- Settles O54: the two bytes are those of the sample widened to 16 bits. -/
theorem readRawReturnsTheSample : Obligations.ReadRawReturnsTheSample := by
  constructor
  · intro s v hok hv
    subst hv
    obtain ⟨-, he⟩ := (execRdraw_cases s).resolve_right fun h => h.1 hok
    obtain ⟨hi, lo, hbytes, hvalue⟩ := ticksBytes_value (s.draw.setWidth 16)
    rw [hbytes] at he
    exact ⟨_, hi, lo, he, hvalue.trans (sample_ticks s.draw), s.known_read_rsp ..⟩
  · intro s hbad
    obtain ⟨-, he⟩ := (execRdraw_cases s).resolve_left fun h => hbad h.1
    exact ⟨_, he, s.known_idle_raise_io ..⟩

/-! ## `EDGE` -/

/-- The answer of `EDGE` is 1 when `PREV` was at or above the release threshold and the sample is below it (R180, R181). -/
theorem edgeBit_sample (p : Params) (prev : Ticks) (v : Sample) :
    edgeBit p prev (v.setWidth 16) = true ↔ p.tRelease ≤ prev.toNat ∧ v.toNat < p.tRelease := by
  rw [edgeBit, above, below, sample_ticks, Bool.and_eq_true, decide_eq_true_eq, decide_eq_true_eq]

/-- `EDGE` with the button channel valid: its whole effect (R181). -/
theorem execEdge_of_chanOk {s : State} {v : Sample} (hok : s.chanOk .btn) (hv : s.draw = v) :
    ∃ t, exec .edge s = .next t ∧ t.known = { s.known with
      prev := v.setWidth 16, ana := s.ana.tail, upc := 0, tmr := 0,
      trace := s.trace ++ [.adc .btn v,
        .rsp [0x00, if s.par.tRelease ≤ s.prev.toNat ∧ v.toNat < s.par.tRelease then 0x01 else 0x00]] } := by
  subst hv
  obtain ⟨-, he⟩ := (execEdge_cases s).resolve_right fun h => h.1 hok
  simp only [edgeBit_sample] at he
  -- Storing `PREV` commutes with the end of the request.
  exact ⟨_, he, congrArg (fun u : State => { u with prev := s.draw.setWidth 16 }) (s.known_read_rsp .btn s.draw _)⟩

/-- Settles O55: `PREV` takes the sample, and the answer is `edgeBit_sample`. -/
theorem edgeDetectsThePress : Obligations.EdgeDetectsThePress := by
  constructor
  · intro s v hok hv
    obtain ⟨t, he, hknown⟩ := execEdge_of_chanOk hok hv
    have hprev : t.prev = v.setWidth 16 := congrArg State.prev hknown
    refine ⟨t, he, by rw [hprev, sample_ticks], ?_⟩
    rw [hprev]
    exact hknown
  · intro s hbad
    obtain ⟨-, he⟩ := (execEdge_cases s).resolve_left fun h => hbad h.1
    exact ⟨_, he, s.known_idle_raise_io ..⟩

/-- `t` is reached from `s` by `EDGE` requests that emitted `es`; `PREV` holds `prev`, and `rest` is yet to be read. -/
structure EdgeRun (s : State) (prev : Ticks) (rest : List Sample) (es : List Event) (t : State) : Prop where
  cfg : t.cfg = s.cfg
  prev : t.prev = prev
  ana : t.ana = rest
  trace : t.trace = s.trace ++ es

/-- One more `EDGE`: the next listed value is taken and becomes `PREV` (R181). -/
theorem EdgeRun.next {s t : State} {prev : Ticks} {v : Sample} {rest : List Sample} {es : List Event} {e : Byte}
    (hrun : EdgeRun s prev (v :: rest) es t) (hok : s.chanOk .btn)
    (hans : e = if s.par.tRelease ≤ prev.toNat ∧ v.toNat < s.par.tRelease then 0x01 else 0x00) :
    ∃ u, exec .edge t = .next u ∧ EdgeRun s (v.setWidth 16) rest (es ++ [.adc .btn v, .rsp [0x00, e]]) u := by
  obtain ⟨hcfg, hprev, hana, htrace⟩ := hrun
  have hpar : t.par = s.par := congrArg Subtype.val hcfg
  have hok' : t.chanOk .btn := by rwa [State.chanOk, hpar]
  obtain ⟨u, he, hknown⟩ := execEdge_of_chanOk hok' (show t.draw = v by rw [State.draw, hana])
  rw [hana, htrace, hprev, hpar, ← hans, List.append_assoc] at hknown
  have hcfg' := congrArg State.cfg hknown
  have hprev' := congrArg State.prev hknown
  have hana' := congrArg State.ana hknown
  have htrace' := congrArg State.trace hknown
  exact ⟨u, he, hcfg'.trans hcfg, hprev', hana', htrace'⟩

/-- Settles O56: only the third call comes from at or above `T_RELEASE` to below it, since `400 < T_RELEASE ≤ 1023`. -/
theorem edgeSequenceExample : Obligations.EdgeSequenceExample := by
  intro s rest hok hprev hana
  have hmin := s.par_ok.release_min
  have hmax := s.par_ok.release_max
  have hstays : ¬ (s.par.tRelease ≤ 1023 ∧ 1023 < s.par.tRelease) := by omega
  have hfalls : s.par.tRelease ≤ 1023 ∧ 400 < s.par.tRelease := ⟨hmax, hmin⟩
  have hrises : ¬ (s.par.tRelease ≤ 400 ∧ 1023 < s.par.tRelease) := by omega
  have start : EdgeRun s 1023 (1023 :: 1023 :: 400 :: 1023 :: rest) [] s := ⟨rfl, hprev, hana, (List.append_nil _).symm⟩
  obtain ⟨t1, e1, run1⟩ := start.next hok (if_neg hstays).symm
  obtain ⟨t2, e2, run2⟩ := run1.next hok (if_neg hstays).symm
  obtain ⟨t3, e3, run3⟩ := run2.next hok (if_pos hfalls).symm
  obtain ⟨t4, e4, run4⟩ := run3.next hok (if_neg hrises).symm
  exact ⟨t1, t2, t3, t4, e1, e2, e3, e4, run1.prev, run2.prev, run3.prev, run4.prev, run4.trace⟩

/-! ## `SENSE5V` -/

/-- A supply sample in millivolts is the exact product, narrowed and truncated once (R167). -/
theorem senseMv_eq (m : Fx) (v : Sample) : senseMv m v.toNat =
    if -2147483648 ≤ v.toNat * m.toInt ∧ v.toNat * m.toInt ≤ 2147483647 then .ok ((v.toNat * m.toInt).tdiv 10000)
    else .overflow := by
  have hprod : ((v.toNat : Int) * 10000 * m.toInt).tdiv 10000 = v.toNat * m.toInt := by
    rw [Int.mul_right_comm]
    exact Int.mul_tdiv_cancel _ (by decide)
  rcases senseMv_cases m v with ⟨f, g, -, -, -, hmv, hg⟩ | ⟨hmv, hout⟩
  · rw [hprod] at hg
    rw [hmv, fromFx, hg, if_pos ⟨hg ▸ BitVec.le_toInt g, hg ▸ Int.le_sub_one_of_lt BitVec.toInt_lt⟩]
    rfl
  · rw [hprod] at hout
    rw [hmv, if_neg hout]

/-- The millivolts of a tick are positive, since the nominal supply reads about 5000 mV (R9). -/
theorem mvPerTick_pos {p : Params} (hp : p.Ok) : 0 < p.mvPerTickFx.toInt := by
  obtain ⟨m, hm, hlow, -⟩ := hp.mv_nominal
  have hmax := hp.vNom_max
  have hnom : ((BitVec.ofNat 10 p.vNomTicks : Sample).toNat) = p.vNomTicks := by
    rw [BitVec.toNat_ofNat]
    omega
  rw [← hnom, senseMv_eq, hnom] at hm
  split_ifs at hm
  obtain rfl := FxResult.ok.inj hm
  by_contra hneg
  have hprod : p.vNomTicks * p.mvPerTickFx.toInt ≤ 0 :=
    Int.mul_nonpos_of_nonneg_of_nonpos (Int.natCast_nonneg _) (not_lt.mp hneg)
  have hquot := Int.tdiv_nonneg (Int.neg_nonneg_of_nonpos hprod) (by decide : (0 : Int) ≤ 10000)
  rw [Int.neg_tdiv] at hquot
  omega

/-- The answer of `SENSE5V` while the millivolts fit 16 bits: the exact value, truncated (R167, R183). -/
theorem senseTicks_of_fits {p : Params} (hp : p.Ok) {v : Sample} (hfit : v.toNat * p.mvPerTickFx.toInt < 655360000) :
    ∃ m, senseTicks p v = .ok m ∧ (m.toNat : Int) = v.toNat * p.mvPerTickFx.toInt / 10000 := by
  have h0 : 0 ≤ v.toNat * p.mvPerTickFx.toInt := Int.mul_nonneg (Int.natCast_nonneg _) (mvPerTick_pos hp).le
  refine ⟨BitVec.ofInt 16 (v.toNat * p.mvPerTickFx.toInt / 10000), ?_, ticks_ofInt (by omega) (by omega)⟩
  rw [senseTicks, senseMv_eq, if_pos (by omega), Int.tdiv_eq_ediv_of_nonneg h0]
  exact if_neg (by omega)

/-- From 65536 mV on `SENSE5V` has no answer: 16 bits or already the 32 bits do not hold it (R158, R183). -/
theorem senseTicks_of_large {p : Params} {v : Sample} (hlarge : 655360000 ≤ v.toNat * p.mvPerTickFx.toInt) :
    senseTicks p v = .error 4 := by
  rw [senseTicks, senseMv_eq]
  split_ifs
  · rw [Int.tdiv_eq_ediv_of_nonneg (by omega)]
    exact if_pos (by omega)
  · rfl

/-- Settles O57: the millivolts are the floor of the exact value, which fits 16 bits below 65536 mV only. -/
theorem senseSupplyMillivolts : Obligations.SenseSupplyMillivolts := by
  refine ⟨fun s v hok hv hfit => ?fits, fun s v hok hv hlarge => ?large, fun s hbad => ?invalid⟩
  case fits =>
    subst hv
    obtain ⟨m, hm, hvalue⟩ := senseTicks_of_fits s.par_ok hfit
    obtain ⟨hi, lo, hbytes, hpair⟩ := ticksBytes_value m
    obtain ⟨-, ⟨m', hm', he⟩ | ⟨a, ha, -⟩⟩ := (execSense5v_cases s).resolve_right fun h => h.1 hok
    · obtain rfl := Except.ok.inj (hm.symm.trans hm')
      rw [hbytes] at he
      rw [← hpair] at hvalue
      exact ⟨_, hi, lo, he, by omega, by omega, s.known_read_rsp ..⟩
    · cases hm.symm.trans ha
  case large =>
    subst hv
    obtain ⟨-, ⟨m, hm, -⟩ | ⟨a, ha, he⟩⟩ := (execSense5v_cases s).resolve_right fun h => h.1 hok
    · cases (senseTicks_of_large hlarge).symm.trans hm
    · obtain rfl := Except.error.inj ((senseTicks_of_large hlarge).symm.trans ha)
      exact ⟨_, he, s.known_read_raise ..⟩
  case invalid =>
    obtain ⟨-, he⟩ := (execSense5v_cases s).resolve_left fun h => hbad h.1
    exact ⟨_, he, s.known_idle_raise_io ..⟩

/-! ## `CALIB` -/

/-- The table with an implausible sample: the baseline is checked first (R168). -/
theorem calibTable_implausible {p : Params} {b v : Sample} (h : b.toNat < p.calMin ∨ v.toNat < p.calMin) :
    calibTable p b v = .error (if b.toNat < p.calMin then 1 else 2) := by
  by_cases hb : b.toNat < p.calMin
  · have hbad : implausible p b = true := decide_eq_true hb
    rw [calibTable, refuseIf_bind, if_pos hbad, if_pos hb]
  · have hgood : implausible p b = false := decide_eq_false hb
    have hbad : implausible p v = true := decide_eq_true (h.resolve_left hb)
    rw [calibTable, refuseIf_bind, hgood, refuseIf_bind, hbad, if_neg hb]
    rfl

/-- Settles O46: both samples are read before the table is computed. -/
theorem calibrationRefusesImplausibleSamples : Obligations.CalibrationRefusesImplausibleSamples := by
  intro s b v hbtn hsense hb hv hlow
  exact execCalib_of_error hbtn hsense hb hv (calibTable_implausible hlow)

/-- Settles O47: the first read raises before any event, the second after one. -/
theorem calibrationNeedsBothChannels : Obligations.CalibrationNeedsBothChannels := by
  constructor
  · intro s hbad
    obtain ⟨-, he⟩ := (execCalib_cases s).resolve_right (by rintro (⟨h, -⟩ | ⟨h, -⟩) <;> exact hbad h)
    exact ⟨_, he, s.known_idle_raise_io ..⟩
  · intro s b hok hbad hb
    subst hb
    obtain ⟨h, -⟩ | ⟨-, -, he⟩ | ⟨-, h, -⟩ := execCalib_cases s
    · exact absurd hok h
    · exact ⟨_, he, s.known_read_raise ..⟩
    · exact absurd h hbad

/-- Settles O50: of the ways `CALIB` can end only the last writes the table, and it records no fault. -/
theorem calibrationIsAllOrNothing : Obligations.CalibrationIsAllOrNothing := by
  intro s t hs he
  obtain ⟨-, e⟩ | ⟨-, -, e⟩ | ⟨-, -, ⟨a, -, e⟩ | ⟨f, -, e⟩⟩ := execCalib_cases s <;>
    obtain rfl := Host.Outcome.next.inj (e.symm.trans he)
  · exact .inl ⟨(by decide : FaultKind.io.code ≠ 0), rfl, rfl⟩
  · exact .inl ⟨(by decide : FaultKind.io.code ≠ 0), by simp, by simp⟩
  · exact .inl ⟨(by decide : FaultKind.calibration.code ≠ 0), by simp, by simp⟩
  · exact .inr ⟨by simp only [State.rsp_fault, State.idle_fault, State.emit_fault, State.drawn_fault]; exact hs, rfl⟩

/-- With both channels valid `CALIB` stores the table that its samples give (R170). -/
theorem execCalib_of_ok {s : State} {b v : Sample} {f : ThrFile} (c1 : s.chanOk .btn) (c2 : s.chanOk .vsense) (hb : s.draw = b)
    (hv : s.drawn.draw = v) (h : calibTable s.par b v = .ok f) :
    ∃ t, exec .calib s = .next t ∧ t.known = (s.calibStored b v f).known := by
  have ht := execCalib_of_table c1 c2 hb hv
  rw [h] at ht
  exact ht

/-- The thresholds of the ratios fall with the ratios, so none is larger than the first (R9, R170). -/
theorem scaled_le_first {p : Params} (hp : p.Ok) (n : Nat) :
    ∀ r ∈ [p.ratioFx.r1, p.ratioFx.r2, p.ratioFx.r3, p.ratioFx.r4, p.ratioFx.r5],
      n * r.toInt.toNat / 10000 / 10000 ≤ n * p.ratioFx.r1.toInt.toNat / 10000 / 10000 := by
  intro r hmem
  obtain ⟨-, -, hmax⟩ := ratios_bounds hp r hmem
  exact Nat.div_le_div_right (Nat.div_le_div_right (Nat.mul_le_mul_left n (Int.toNat_le_toNat hmax)))

/-- Settles O48: the table's equation where its checks pass, and every threshold fits 16 bits because the first does. -/
theorem calibrationStoresScaledThresholds : Obligations.CalibrationStoresScaledThresholds := by
  intro s b v q thr hbtn hsense hb hv hr hbmin hvmin hq hfit hthr hfirst hspaced
  subst hq
  have htable := calibTable_rescaled s.par_ok hr hbmin hvmin rfl hfit hthr
  rw [if_neg (Nat.not_lt.mpr hfirst), if_neg (by rintro ⟨hcheck, hnot⟩; exact hnot (hspaced hcheck))] at htable
  obtain ⟨t, he, hknown⟩ := execCalib_of_ok hbtn hsense hb hv htable
  have hstored := congrArg State.thr hknown
  rw [State.known_thr, State.known_thr, State.calibStored_thr] at hstored
  have hkeep : ∀ r ∈ [s.par.ratioFx.r1, s.par.ratioFx.r2, s.par.ratioFx.r3, s.par.ratioFx.r4, s.par.ratioFx.r5],
      thr r % 2 ^ 16 = thr r := by
    intro r hmem
    have hle := scaled_le_first s.par_ok (b.toNat * (v.toNat * 10000 / s.par.vNomTicks)) r hmem
    rw [← hthr, ← hthr] at hle
    omega
  simp only [List.mem_cons, List.not_mem_nil, or_false, forall_eq_or_imp, forall_eq] at hkeep
  obtain ⟨h1, h2, h3, h4, h5⟩ := hkeep
  refine ⟨t, he, ?_, by rw [hstored]; exact hknown⟩
  rw [hstored]
  simp only [ThrFile.ticks, ThrEntry.ticks_ofTicks, List.map_cons, List.map_nil, sample_ticks, BitVec.toNat_ofNat, h1, h2, h3, h4, h5]

/-- A baseline that is not rescaled gives the baseline times the ratio (R172). -/
theorem scaled_nominal (b r : Nat) : b * 10000 * r / 10000 / 10000 = b * r / 10000 := by
  rw [Nat.mul_right_comm, Nat.mul_div_cancel _ (by decide)]

/-- The threshold at the nominal supply as the claims write it, on integers (R172). -/
theorem nominal_cast {r : Fx} (h : 0 ≤ r.toInt) (b : Nat) :
    ((b * r.toInt.toNat / 10000 : Nat) : Int) = b * r.toInt / 10000 := by
  rw [Int.natCast_ediv, Nat.cast_mul, Int.toNat_of_nonneg h]
  rfl

/-- The check of rule R172 on natural numbers. -/
theorem ratioTicks_eq {r : Fx} (h : 0 ≤ r.toInt) : ratioTicks r = ((1023 * r.toInt.toNat / 10000 : Nat) : Int) := by
  rw [ratioTicks, Int.tdiv_eq_ediv_of_nonneg (by omega), nominal_cast h]
  rfl

/-- Settles O49: the table of `calibrationStoresScaledThresholds`, where `q` is 10000; R172's check orders it at 1023. -/
theorem calibrationAtNominalSupply : Obligations.CalibrationAtNominalSupply := by
  intro s b v hbtn hsense hb hv hr hcheck hbmin hnom
  have hp := s.par_ok
  have hq : v.toNat * 10000 / s.par.vNomTicks = 10000 := by
    rw [hnom, Nat.mul_div_cancel_left _ (hp.calMin_pos.trans hp.vNom_min)]
  have hb1023 : b.toNat ≤ 1023 := Nat.le_of_lt_succ b.isLt
  have hratio : s.par.ratioFx.r1.toInt.toNat ≤ 10000 := Int.toNat_le.mpr hp.ratio_first.le
  obtain ⟨t, he, hticks, hknown⟩ := calibrationStoresScaledThresholds s b v 10000 (fun r => b.toNat * r.toInt.toNat / 10000)
    hbtn hsense hb hv hr hbmin (hp.vNom_min.trans_eq hnom.symm) hq.symm (by omega)
    (fun r => (scaled_nominal b.toNat r.toInt.toNat).symm)
    ((Nat.div_le_div_right (Nat.mul_le_mul hb1023 hratio)).trans (by decide))
    (by simp [hcheck])
  have hfault := congrArg State.fault hknown
  have hcls := congrArg State.clsState hknown
  have hnonneg := fun r hr => (ratios_bounds hp r hr).1
  simp only [List.mem_cons, List.not_mem_nil, or_false, forall_eq_or_imp, forall_eq] at hnonneg
  obtain ⟨h1, h2, h3, h4, h5⟩ := hnonneg
  refine ⟨t, he, hfault, hcls, ?values, fun hb => ?decreasing⟩
  case values =>
    refine (List.map_map (f := BitVec.toNat) (g := Nat.cast)).symm.trans ?_
    simp only [hticks, List.map_cons, List.map_nil, nominal_cast, h1, h2, h3, h4, h5]
  case decreasing =>
    have hchecked := hp.ratio_checked
    simp only [Ratios.Checked, ratioTicks_eq, h1, h2, h3, h4, h5, Nat.cast_lt] at hchecked
    have hdrop := congrArg (List.drop 1) hticks
    rw [← List.map_drop, hb] at hdrop
    rw [← List.pairwise_map (f := BitVec.toNat) (R := fun x y => y < x), hdrop]
    simp only [List.drop_succ_cons, List.drop_zero, List.pairwise_cons, List.mem_cons, List.not_mem_nil, or_false,
      forall_eq_or_imp, forall_eq, IsEmpty.forall_iff, implies_true, List.Pairwise.nil, and_self, and_true]
    omega

end Sys2Proof.Machine

/-! # The faults

Every way a request can end in a fault, once; what each kind of fault leaves as it was; and the halt that follows. -/

namespace Sys2Proof.Machine

/-! ## Fault kinds -/

/-- Every fault kind has a code other than 0, so a fault entry halts the block (R190, R197). -/
theorem FaultKind.code_ne_zero (k : FaultKind) : k.code ≠ 0 := by cases k <;> decide

/-- A fault kind is known by its code (R190). -/
theorem FaultKind.code_injective : Function.Injective FaultKind.code := by
  intro k k'
  cases k <;> cases k' <;> decide

/-! ## The ways a request ends in a fault -/

/-- The registers that no fault changes are the same (R198). -/
structure SameResults (s t : State) : Prop where
  lcdState : t.lcdState = s.lcdState
  thr : t.thr = s.thr
  clsState : t.clsState = s.clsState
  prev : t.prev = s.prev

/-- The faults of the requests, each with its cause and the state it leaves (R191 to R194). An `IOError` strikes in the middle of
an operation, at a state `u`. -/
inductive FaultOutcome (s : State) : Instr → FaultKind → State → Prop where
  | wrongLcdState (i : Instr) (st : LcdState) (hn : needsLcdState i = some st) (hs : s.lcdState ≠ st) :
      FaultOutcome s i .protocolMisuse (s.raise .protocolMisuse i.opcode.code (s.lcdState.code.setWidth 16))
  | uncalibrated (x : Ticks) (hs : s.clsState = .uncalibrated) :
      FaultOutcome s (.classify x) .protocolMisuse (s.raise .protocolMisuse 0x21 0)
  | wrongRow (row : Byte) (text : List Byte) (hr : rowAddr row = none) :
      FaultOutcome s (.wrline row text) .argument (s.raise .argument 0x14 (row.setWidth 16))
  | invalidPin (i : Instr) (p : Pin) (u : State) (hi : isUnitL i = true) (hp : s.pinOk p = false) (hu : SameResults s u) :
      FaultOutcome s i .io (u.raise .io i.opcode.code (s.phys p))
  | invalidChannel (i : Instr) (c : Chan) (u : State) (hi : isUnitL i = false) (hc : ¬ s.chanOk c) (hu : SameResults s u) :
      FaultOutcome s i .io (u.raise .io i.opcode.code (physChannel s.par c))
  | failedCalibration (a : Aux) (t : State) (ha : calibTable s.par s.draw s.drawn.draw = .error a)
      (hk : t.known = (s.calibFaulted s.draw s.drawn.draw a).known) : FaultOutcome s .calib .calibration t
  | supplyTooLarge (t : State) (ha : senseTicks s.par s.draw = .error 4)
      (hk : t.known = { s.known with
        fault := ⟨1, 0x24, 4⟩, ana := s.ana.tail, upc := 0, tmr := 0,
        trace := s.trace ++ [.adc .vsense s.draw, .rsp [0x01]] }) : FaultOutcome s .sense5v .calibration t

/-- The request leaves `FAULT` alone, or it ends in a fault and `FAULT` has its kind. -/
def FaultsOrNot (s : State) (i : Instr) (t : State) : Prop :=
  t.fault = s.fault ∨ ∃ k : FaultKind, t.fault.kind = k.code ∧ FaultOutcome s i k t

/-- The faults of a Unit L request: its gate, its argument check, an invalid pin. -/
theorem UnitLOutcome.faultsOrNot {i : Instr} {s t : State} (hi : isUnitL i = true) (h : UnitLOutcome i s t) :
    FaultsOrNot s i t := by
  cases h with
  | misuse st hn hs => exact .inr ⟨_, rfl, .wrongLcdState i st hn hs⟩
  | argument row text hi' _ hr =>
    subst hi'
    exact .inr ⟨_, rfl, .wrongRow row text hr⟩
  | ioError ms p u _ _ hp hu =>
    obtain ⟨_, _, _, _, -, -, -, -, -, -, hsame, -⟩ := runMicro_raised hu
    exact .inr ⟨_, rfl, .invalidPin i p _ hi hp ⟨hsame.lcdState, hsame.thr, hsame.clsState, hsame.prev⟩⟩
  | completes ms u _ _ hu => exact .inl (runMicro_done hu).1.fault

/-- The faults of a Unit B request: an invalid channel, and one more cause for each of `CALIB`, `CLASSIFY` and `SENSE5V`. -/
theorem faultsOrNot_of_unitB {i : Instr} (hi : isUnitL i = false) {s t : State} (h : exec i s = .next t) :
    FaultsOrNot s i t := by
  have start : SameResults s s.idle := ⟨rfl, rfl, rfl, rfl⟩
  cases i with
  | cfgpins | initdisp | sendcmd | wrnib | wrline | clear => cases hi
  | calib =>
    obtain ⟨hc, e⟩ | ⟨-, hc, e⟩ | ⟨hb, hv, ⟨a, ha, e⟩ | ⟨f, -, e⟩⟩ := execCalib_cases s
    · obtain rfl := Host.Outcome.next.inj (e.symm.trans h)
      exact .inr ⟨_, rfl, .invalidChannel .calib .btn _ rfl hc start⟩
    · obtain rfl := Host.Outcome.next.inj (e.symm.trans h)
      exact .inr ⟨_, rfl, .invalidChannel .calib .vsense _ rfl hc ⟨by simp, by simp, by simp, by simp⟩⟩
    · obtain ⟨t', e', hk⟩ := execCalib_of_error hb hv rfl rfl ha
      obtain rfl := Host.Outcome.next.inj (e'.symm.trans h)
      exact .inr ⟨.calibration, congrArg (fun u : State => u.fault.kind) hk, .failedCalibration a t' ha hk⟩
    · obtain rfl := Host.Outcome.next.inj (e.symm.trans h)
      exact .inl (by simp)
  | classify x =>
    obtain ⟨-, e⟩ | ⟨hs, e⟩ := execClassify_cases x s <;> obtain rfl := Host.Outcome.next.inj (e.symm.trans h)
    · exact .inl rfl
    · exact .inr ⟨_, rfl, .uncalibrated x hs⟩
  | rdraw =>
    obtain ⟨-, e⟩ | ⟨hc, e⟩ := execRdraw_cases s <;> obtain rfl := Host.Outcome.next.inj (e.symm.trans h)
    · exact .inl (by simp)
    · exact .inr ⟨_, rfl, .invalidChannel .rdraw .btn _ rfl hc start⟩
  | edge =>
    obtain ⟨-, e⟩ | ⟨hc, e⟩ := execEdge_cases s <;> obtain rfl := Host.Outcome.next.inj (e.symm.trans h)
    · exact .inl (by simp)
    · exact .inr ⟨_, rfl, .invalidChannel .edge .btn _ rfl hc start⟩
  | sense5v =>
    obtain ⟨-, ⟨m, -, e⟩ | ⟨a, ha, e⟩⟩ | ⟨hc, e⟩ := execSense5v_cases s <;>
      obtain rfl := Host.Outcome.next.inj (e.symm.trans h)
    · exact .inl (by simp)
    · obtain rfl := senseTicks_error ha
      exact .inr ⟨_, rfl, .supplyTooLarge _ ha (s.known_read_raise ..)⟩
    · exact .inr ⟨_, rfl, .invalidChannel .sense5v .vsense _ rfl hc start⟩

/-- Everything a request can do to `FAULT`. -/
theorem exec_faultsOrNot {i : Instr} {s t : State} (h : exec i s = .next t) : FaultsOrNot s i t := by
  cases hi : isUnitL i with
  | true => exact (unitL_of_exec hi h).faultsOrNot hi
  | false => exact faultsOrNot_of_unitB hi h

/-- From a block with no fault, the recorded kind tells which faults there can have been. -/
theorem exec_faultOutcome {i : Instr} {s t : State} (hf : s.noFault) (h : exec i s = .next t) {k : FaultKind}
    (hk : t.fault.kind = k.code) : FaultOutcome s i k t := by
  obtain hsame | ⟨k', hk', ho⟩ := exec_faultsOrNot h
  · rw [hsame, hf] at hk
    exact absurd hk.symm k.code_ne_zero
  · obtain rfl := FaultKind.code_injective (hk'.symm.trans hk)
    exact ho

/-- No fault changes `LCD_STATE`, `THR`, `CLS_STATE` or `PREV` (R198). -/
theorem FaultOutcome.sameResults {s t : State} {i : Instr} {k : FaultKind} (h : FaultOutcome s i k t) : SameResults s t := by
  cases h with
  | wrongLcdState | uncalibrated | wrongRow => exact ⟨rfl, rfl, rfl, rfl⟩
  | invalidPin _ _ u _ _ hu | invalidChannel _ _ u _ _ hu => exact { hu with }
  | failedCalibration _ _ _ hk | supplyTooLarge _ _ hk =>
    have hknown : SameResults s t.known := by rw [hk]; exact ⟨rfl, rfl, rfl, rfl⟩
    exact { hknown with }

/-! ## The statements about the kinds -/

/-- Settles O20: the outcomes of a misuse are the two gates, each in a state that does not admit the request. -/
theorem stateGateRaises : Obligations.StateGateRaises := by
  refine ⟨fun i s st hn hs => exec_of_wrongLcdState hn hs, fun x s hs => ?uncalibrated, fun i s t hn hf h hk => ?admitted,
    fun x s t hs hf h hk => ?calibrated, fun i s t hi hf h hk => ?ungated⟩
  case uncalibrated =>
    obtain ⟨hcal, -⟩ | ⟨-, e⟩ := execClassify_cases x s
    · rw [hs] at hcal
      cases hcal
    · exact e
  case admitted =>
    cases exec_faultOutcome hf h (k := .protocolMisuse) hk with
    | wrongLcdState _ st hn' hs => exact hs (Option.some.inj (hn.symm.trans hn'))
    | uncalibrated => cases hn
  case calibrated =>
    cases exec_faultOutcome hf h (k := .protocolMisuse) hk with
    | wrongLcdState _ _ hn => cases hn
    | uncalibrated _ hs' =>
      rw [hs] at hs'
      cases hs'
  case ungated =>
    cases exec_faultOutcome hf h (k := .protocolMisuse) hk with
    | wrongLcdState _ _ hn => obtain rfl | rfl | rfl | rfl := hi <;> cases hn
    | uncalibrated => simp at hi

/-- Settles O22: the outcomes of an `IOError` are an invalid pin of Unit L and an invalid channel of Unit B. -/
theorem ioErrorNamesAnInvalidPinOrChannel : Obligations.IoErrorNamesAnInvalidPinOrChannel := by
  intro i s t hf h hk
  cases exec_faultOutcome hf h (k := .io) hk with
  | invalidPin _ p _ hi hp => exact .inl ⟨hi, p, hp, rfl⟩
  | invalidChannel _ c _ hi hc => exact .inr ⟨hi, c, hc, rfl⟩

/-- A refusal before any event changes only `FAULT` and the record (R192, R194, R198). -/
theorem FaultOutcome.eq_faulted {s t : State} {i : Instr} {k : FaultKind} (h : FaultOutcome s i k t)
    (hk : k = .protocolMisuse ∨ k = .argument) : t = s.faulted t.fault.kind i.opcode.code t.fault.aux := by
  cases h with
  | wrongLcdState | uncalibrated | wrongRow => rfl
  | invalidPin | invalidChannel | failedCalibration | supplyTooLarge => simp at hk

/-- Settles O23: a refusal is the fault entry alone, a `CalibrationError` has its reads before it. -/
theorem faultsArePrecise : Obligations.FaultsArePrecise := by
  refine fun i s t hf h => ⟨fun hk => ?refusal, fun hk => ?calibration, fun hk => ?results⟩
  case refusal =>
    obtain hk | hk := hk
    · exact (exec_faultOutcome hf h (k := .protocolMisuse) hk).eq_faulted (.inl rfl)
    · exact (exec_faultOutcome hf h (k := .argument) hk).eq_faulted (.inr rfl)
  case calibration =>
    cases exec_faultOutcome hf h (k := .calibration) hk with
    | failedCalibration a _ _ hknown =>
      have hfault : t.fault = ⟨1, 0x20, a⟩ := congrArg State.fault hknown
      exact .inl ⟨rfl, by rw [hfault]; exact hknown⟩
    | supplyTooLarge _ _ hknown =>
      have hfault : t.fault = ⟨1, 0x24, 4⟩ := congrArg State.fault hknown
      exact .inr ⟨rfl, by rw [hfault]; exact hknown⟩
  case results =>
    obtain hsame | ⟨k, -, ho⟩ := exec_faultsOrNot h
    · rw [hsame] at hk
      exact absurd hf hk
    · obtain ⟨hlcd, hthr, hcls, hprev⟩ := ho.sameResults
      exact ⟨hlcd, hthr, hcls, hprev⟩

/-- The checks of `CALIB` are numbered 1 to 6 (R191). -/
theorem calibTable_error_bounds {p : Params} {b v : Sample} {a : Aux} (h : calibTable p b v = .error a) :
    1 ≤ a.toNat ∧ a.toNat ≤ 6 := by
  obtain ⟨rfl, -⟩ | ⟨rfl, -⟩ | ⟨-, -, _, _, -, -, hbvr | ⟨f, -, r, -, hr⟩ | ⟨rfl, -⟩⟩ := calibTable_error h
  · decide
  · decide
  · obtain ⟨rfl, -⟩ | ⟨rfl, -⟩ := fxOrAux_error hbvr <;> decide
  · obtain ⟨_, -, -, -, e⟩ | ⟨_, -, -, e⟩ | ⟨-, e⟩ := threshold_cases f r
    · cases e.symm.trans hr
    all_goals
      obtain rfl := Except.error.inj (e.symm.trans hr)
      decide
  · decide

/-- Settles O24: the outcomes of a `CalibrationError` are a failing check of `CALIB` and a supply that does not fit 16 bits. -/
theorem calibrationErrorCauses : Obligations.CalibrationErrorCauses := by
  intro i s t hf h hk
  cases exec_faultOutcome hf h (k := .calibration) hk with
  | failedCalibration a _ ha hknown =>
    have hfault : t.fault = ⟨1, 0x20, a⟩ := congrArg State.fault hknown
    rw [hfault]
    exact .inl ⟨rfl, rfl, calibTable_error_bounds ha⟩
  | supplyTooLarge _ _ hknown =>
    have hfault : t.fault = ⟨1, 0x24, 4⟩ := congrArg State.fault hknown
    rw [hfault]
    exact .inr ⟨rfl, rfl, rfl⟩

/-! ## The argument check of `WRLINE` -/

/-- There are two rows (R78). -/
theorem rowAddr_eq_none {row : Byte} (h1 : row ≠ 1) (h2 : row ≠ 2) : rowAddr row = none := by
  rw [rowAddr, if_neg h1, if_neg h2]

/-- Settles O39: past the gate a line with no row address has no micro-steps, so only the argument check is left. -/
theorem writeLineRefusesOtherRows : Obligations.WriteLineRefusesOtherRows := by
  refine fun s row text h1 h2 => ⟨fun hs => ?ready, exec_of_wrongLcdState (i := .wrline row text) rfl⟩
  have hscript : scriptOf (.wrline row text) s.par = none := congrArg (Option.map _) (rowAddr_eq_none h1 h2)
  obtain ⟨t, he, ho⟩ := exec_unitL (i := .wrline row text) rfl s
  cases ho with
  | misuse st hn hne => exact absurd (hs.trans (Option.some.inj hn)) hne
  | argument row' text' hi =>
    obtain ⟨rfl, -⟩ := Instr.wrline.inj hi
    exact he
  | ioError _ _ _ hm | completes _ _ hm => cases hscript.symm.trans hm

/-! ## The halt -/

theorem State.reqReady_of_fault {s : State} (hf : ¬ s.noFault) : s.reqReady = false := by
  have hh : s.fault.halted = true := s.fault.halted_iff.mpr hf
  rw [State.reqReady, hh, Bool.not_true, Bool.and_false]

/-- Settles O11: a halted block's step, and the reset. -/
theorem haltedUntilReset : Obligations.HaltedUntilReset :=
  ⟨fun _ hf hr => ⟨State.reqReady_of_fault hf, step_of_fault hr hf⟩, fun s hr => ⟨s.afterReset, step_of_rst hr, rfl⟩⟩

/-- No request is refused (R89). -/
theorem exec_answers (i : Instr) (s : State) : ∃ t, exec i s = .next t := by
  cases i <;> exact ⟨_, rfl⟩

theorem runDecoded_answers (d : Decoded) (s : State) : ∃ t, runDecoded d s = .next t := by
  cases d with
  | request i n => exact exec_answers i _
  | illegalOpcode | reservedOperand | incomplete => exact ⟨_, rfl⟩

theorem step_answers (s : State) : ∃ t, step s = .next t := by
  cases hr : s.rst with
  | true => exact ⟨_, step_of_rst hr⟩
  | false =>
    by_cases hf : s.noFault
    · rw [step_of_noFault hr hf]
      exact runDecoded_answers ..
    · exact ⟨_, step_of_fault hr hf⟩

/-- A step that records a fault records one of R190's kinds, and raises no reset. -/
theorem step_records {s t : State} (hr : s.rst = false) (h : step s = .next t) (hne : t.fault ≠ s.fault) :
    ¬ t.noFault ∧ t.rst = false := by
  cases StepOutcome.of_step h with
  | reset hr' =>
    rw [hr] at hr'
    cases hr'
  | halted | waits => exact absurd rfl hne
  | illegalOpcode | reservedOperand => exact ⟨FaultKind.illegalRequest.code_ne_zero, hr⟩
  | request i n _ _ _ _ he =>
    obtain ⟨k, hk, -⟩ := (exec_faultsOrNot he).resolve_left hne
    exact ⟨fun hf => k.code_ne_zero (hk.symm.trans hf), (exec_sameSequencer he).rst.trans hr⟩

/-- Settles O15: every branch of the step answers, and a step that records a fault leaves the block halted. -/
theorem everyStepAnswers : Obligations.EveryStepAnswers := by
  intro s
  obtain ⟨t, h⟩ := step_answers s
  refine ⟨t, h, fun hr hne => ?_⟩
  obtain ⟨hf, hr'⟩ := step_records hr h hne
  exact ⟨t.fault.halted_iff.mpr hf, State.reqReady_of_fault hf, step_of_fault hr' hf⟩

end Sys2Proof.Machine

/-! # The idle block -/

namespace Sys2Proof.Machine

/-- A fetch from an offset that holds no byte is empty (log 14). -/
theorem Memory.fetch_of_read_eq_none {m : Memory} {a : Nat} (h : m.read a = none) (n : Nat) : m.fetch a n = [] := by
  cases n with
  | zero => rfl
  | succ k => simp [Memory.fetch, h]

/-- Until the first byte of a request is there, the block waits (R66). -/
theorem step_of_read_eq_none {s : State} (hr : s.rst = false) (hf : s.noFault) (h : s.req.read s.rp = none) :
    step s = .next s := by
  have hd : decode s.fetchBytes = .incomplete := congrArg decode (Memory.fetch_of_read_eq_none h maxRequest)
  exact stepWaitsForTheRequest s hr hf hd

/-- A pin that is not an output drives nothing (R106). -/
theorem State.drives_eq_none {s : State} {p : Pin} (h : s.pinDir.get p = false) : s.drives p = none := by
  rw [State.drives, h]
  rfl

/-- Settles O14: no byte has been sent, so the block waits; and no pin is an output. -/
theorem resetStateIsIdle : Obligations.ResetStateIsIdle := by
  have hsent : State.reset.req.read State.reset.rp = none := rfl
  exact ⟨step_of_read_eq_none rfl rfl hsent, fun p => State.drives_eq_none (PerPin.get_const false p)⟩

end Sys2Proof.Machine
